-- ==== Sys2Proof/Config.lean ====
section
/-! DEFINITION. The configuration: one field of `Params` for every row of rule R5, and the one free value of the
spec, the noise draw (R213).

`Machine.stepIn` takes the parameters as its argument; `Machine.z8b` is what Z8B-1.0 fixes. The constants XLEN, NREG
and NCHAN of Z8B-1.0 stand here because the types `Word` and `State` take them where no other number is given. -/

namespace Sys2Proof.Config

/-- XLEN of Z8B-1.0: bits in a fixed-point word (R5, R6). -/
def xlen : Nat := 32

/-- NREG of Z8B-1.0: the general registers (R5, R21). -/
def nReg : Nat := 16

/-- NCHAN of Z8B-1.0: the audio channels (R5, R37). -/
def nChan : Nat := 4

/-- NOISE ORACLE (R40, R213): the draw of the n-th noise tick, any 16-bit signed integer.
FREE VALUE: it has no body, so nothing proved in the model depends on which integer it is
(assumption 4). -/
opaque noiseDraw : Nat → BitVec 16

end Sys2Proof.Config

namespace Sys2Proof

/-- OOB_POLICY: what an out-of-range byte access does (R5, R61, R77). -/
inductive OobPolicy
  | ignore
  | clamp
  deriving DecidableEq, Repr

/-- The parameters of rule R5. `Machine.stepIn` is the step of the machine with any of them; `Machine.z8b` is what
Z8B-1.0 fixes. -/
structure Params where
  /-- XLEN: bits in a fixed-point word, half of them integer, half fraction (R6). -/
  xlen : Nat
  /-- NREG: general registers (R21, R98). -/
  nReg : Nat
  /-- MEM_SIZE: bytes in the memory image (R26, R60). -/
  memSize : Nat
  /-- OOB_POLICY: R61 (`ignore`) or R77 (`clamp`). -/
  oobPolicy : OobPolicy
  /-- GFX_BASE: the sprite sheet (R27, R180). -/
  gfxBase : Nat
  /-- MAP2_BASE: the area that the lower half of the sheet and of the map share (R27, R185). -/
  map2Base : Nat
  /-- MAP_BASE: the upper half of the map (R27, R185). -/
  mapBase : Nat
  /-- FLAGS_BASE: one flag byte per sprite (R27, R187). -/
  flagsBase : Nat
  /-- SFX_BASE: the sound effects (R27, R201). -/
  sfxBase : Nat
  /-- DRAW_BASE: the draw state, 0x40 bytes (R28). -/
  drawBase : Nat
  /-- SCREEN_BASE: the framebuffer (R27, R152). -/
  screenBase : Nat
  /-- SCREEN_W: framebuffer width in pixels (R151, R152). -/
  screenW : Nat
  /-- SCREEN_H: framebuffer height in pixels (R151, R152). -/
  screenH : Nat
  /-- SHEET_W: sprite sheet width in pixels (R180). -/
  sheetW : Nat
  /-- SHEET_H: sprite sheet height in pixels (R180). -/
  sheetH : Nat
  /-- SPRITE_PX: side of one sprite in pixels (R184). -/
  spritePx : Nat
  /-- MAP_W: map width in cells (R185). -/
  mapW : Nat
  /-- MAP_H: map height in cells (R185). -/
  mapH : Nat
  /-- TRANSP_ON_PRIMITIVES (R155). -/
  transpOnPrimitives : Bool
  /-- NCHAN: audio channels (R37, R203). -/
  nChan : Nat
  /-- NSFX: sound effects in the image (R201, R203). -/
  nSfx : Nat
  /-- NNOTE: notes per sound effect (R201, R220). -/
  nNote : Nat
  /-- SAMPLE_RATE: output samples per second, which PHASE_STEP assumes (R215). -/
  sampleRate : Nat
  /-- PHASE_STEP[key] (R215). -/
  phaseStep : BitVec 6 → Nat
  /-- WAVE(id, P), with the noise draw of this tick as its last argument (R206, R213). -/
  wave : BitVec 3 → BitVec 32 → Int → Int
  /-- VOLTAB[vol] (R216). -/
  voltab : BitVec 3 → Int
  /-- SLEW (R216). -/
  slew : Int
  /-- OSTEP(key, spd) (R218). -/
  ostep : BitVec 6 → Nat → Nat

end Sys2Proof
end

