-- ==== Sys2Proof/Word.lean ====
section
/-! DEFINITION. The words of Z8B-1.0: fixed-point words, command words, bytes, nibbles, register and channel numbers
(rules R6, R21, R26, R152). A size that R5 names is that of Config; `delta%` puts it there as the numeral it is
defined to be, so that the arithmetic of a proof meets numerals. -/

namespace Sys2Proof

/-- A general register of Z8B-1.0, a fixed-point word: XLEN bits (R5, R6, R21). -/
abbrev Word := BitVec (delta% Config.xlen)

/-- A command word: 32 bits, whatever XLEN is (R90). -/
abbrev CmdWord := BitVec 32

/-- One byte of the memory image (R26). -/
abbrev Byte := BitVec 8

/-- A 4-bit colour, one framebuffer or sheet pixel (R152, R180). -/
abbrev Nibble := BitVec 4

/-- The number of a general register as a register field of four bits gives it, whatever NREG is (R21, R91). -/
abbrev Reg := Fin 16

/-- The number of an audio channel of Z8B-1.0, 0 .. NCHAN-1 (R37). -/
abbrev Chan := Fin (delta% Config.nChan)

end Sys2Proof
end

