-- ==== Sys2Proof/Syntax.lean ====
section
/-! DEFINITION. The 24 commands as syntax: one constructor per row of spec/opcode_table.json (R92 to R97, R100). -/

namespace Sys2Proof

/-- The flag bits of format V: FY (bit 2), FX (bit 1), C (bit 0) (R91, R97). Which of them a command
allows is checked in `Instr.wf`. -/
structure VFlags where
  fy : Bool
  fx : Bool
  c : Bool
  deriving DecidableEq, Repr

/-- The commands (R100). `rd` is the destination, `ra` the first source or the base of a vector
operand, `rb` the second source (R91). -/
inductive Instr
  -- format N (R92)
  | nop
  | endCmd
  -- format I (R93)
  | lih (rd : Reg) (imm : BitVec 16)
  | lil (rd : Reg) (imm : BitVec 16)
  -- format R2 (R95)
  | mov (rd ra : Reg)
  -- format R3 (R94)
  | add (rd ra rb : Reg)
  | sub (rd ra rb : Reg)
  | mul (rd ra rb : Reg)
  | div (rd ra rb : Reg)
  -- formats R2 and S2 (R95, R96)
  | peek (rd ra : Reg)
  | poke (ra rb : Reg)
  | peek4 (rd ra : Reg)
  | poke4 (ra rb : Reg)
  -- format V, and PGET in format R2 (R95, R97)
  | pset (ra : Reg) (f : VFlags)
  | pget (rd ra : Reg)
  | line (ra : Reg) (f : VFlags)
  | rect (ra : Reg) (f : VFlags)
  | rectfill (ra : Reg) (f : VFlags)
  | circ (ra : Reg) (f : VFlags)
  | circfill (ra : Reg) (f : VFlags)
  | spr (ra : Reg) (f : VFlags)
  | sspr (ra : Reg) (f : VFlags)
  | map (ra : Reg) (f : VFlags)
  | sfx (ra : Reg) (f : VFlags)
  deriving DecidableEq, Repr

end Sys2Proof
end

