-- ==== Sys2Proof/WellFormed.lean ====
section
/-! DEFINITION. Well-formed commands: which flag bits each format-V command allows (R97). -/

namespace Sys2Proof

/-- The commands with an optional colour operand allow C and neither flip (R97). -/
def VFlags.colourOnly (f : VFlags) : Bool := !f.fx && !f.fy

/-- SPR and SSPR allow the flips and not C (R97). -/
def VFlags.flipsOnly (f : VFlags) : Bool := !f.c

/-- MAP and SFX allow no flag (R97). -/
def VFlags.noFlag (f : VFlags) : Bool := !f.fx && !f.fy && !f.c

/-- A command is well formed when its flag bits are among those its row allows. Register numbers and
the immediate are in range by their types. -/
def Instr.wf : Instr → Bool
  | .nop | .endCmd => true
  | .lih _ _ | .lil _ _ => true
  | .mov _ _ => true
  | .add _ _ _ | .sub _ _ _ | .mul _ _ _ | .div _ _ _ => true
  | .peek _ _ | .poke _ _ | .peek4 _ _ | .poke4 _ _ => true
  | .pget _ _ => true
  | .pset _ f | .line _ f | .rect _ f | .rectfill _ f | .circ _ f | .circfill _ f => f.colourOnly
  | .spr _ f | .sspr _ f => f.flipsOnly
  | .map _ f | .sfx _ f => f.noFlag

end Sys2Proof
end

