-- ==== Sys2Proof/Decode.lean ====
section
/-! DEFINITION. The decoder, total on every 32-bit word (R90 to R101), and the encoder. -/

namespace Sys2Proof

/-- The 24 opcodes of rule R100, by mnemonic. -/
inductive Op
  | nop | endCmd | lih | lil | mov | add | sub | mul | div | peek | poke | peek4 | poke4
  | pset | pget | line | rect | rectfill | circ | circfill | spr | sspr | map | sfx
  deriving DecidableEq, Repr

/-- Why a word is illegal: the two conditions of rule R241. -/
inductive DecodeError
  /-- `w[31:24]` is not one of the 24 assigned opcodes (R101). -/
  | unassignedOpcode
  /-- A bit that the row's format reserves, or a flag the row does not allow, is 1 (R101). -/
  | reservedBits
  deriving DecidableEq, Repr

/-- The opcode column of rule R100, as bits [31:24] of a word. -/
def Op.code : Op → Byte
  | .nop => 0x00 | .endCmd => 0x01
  | .lih => 0x08 | .lil => 0x09 | .mov => 0x0A
  | .add => 0x10 | .sub => 0x11 | .mul => 0x12 | .div => 0x13
  | .peek => 0x20 | .poke => 0x21 | .peek4 => 0x22 | .poke4 => 0x23
  | .pset => 0x30 | .pget => 0x31 | .line => 0x32 | .rect => 0x33 | .rectfill => 0x34
  | .circ => 0x35 | .circfill => 0x36 | .spr => 0x38 | .sspr => 0x39 | .map => 0x3A
  | .sfx => 0x40

/-- The rows in the order of rule R100. -/
def Op.all : List Op :=
  [.nop, .endCmd, .lih, .lil, .mov, .add, .sub, .mul, .div, .peek, .poke, .peek4, .poke4] ++
  [.pset, .pget, .line, .rect, .rectfill, .circ, .circfill, .spr, .sspr, .map, .sfx]

/-- The row of an opcode byte, if it is assigned (R101). -/
def Op.ofCode (b : Byte) : Option Op := Op.all.find? (fun o => o.code == b)

/-- The row of a command (R100). -/
def Instr.op : Instr → Op
  | .nop => .nop | .endCmd => .endCmd
  | .lih _ _ => .lih | .lil _ _ => .lil | .mov _ _ => .mov
  | .add _ _ _ => .add | .sub _ _ _ => .sub | .mul _ _ _ => .mul | .div _ _ _ => .div
  | .peek _ _ => .peek | .poke _ _ => .poke | .peek4 _ _ => .peek4 | .poke4 _ _ => .poke4
  | .pset _ _ => .pset | .pget _ _ => .pget | .line _ _ => .line | .rect _ _ => .rect
  | .rectfill _ _ => .rectfill | .circ _ _ => .circ | .circfill _ _ => .circfill
  | .spr _ _ => .spr | .sspr _ _ => .sspr | .map _ _ => .map | .sfx _ _ => .sfx

/-- The mask column of rule R100: the bits a row fixes. -/
def Op.mask : Op → CmdWord
  | .nop | .endCmd => 0xFFFFFFFF
  | .lih | .lil => 0xFF0F0000
  | .mov | .peek | .peek4 | .pget => 0xFF00FFFF
  | .add | .sub | .mul | .div => 0xFF000FFF
  | .poke | .poke4 => 0xFFF00FFF
  | .pset | .line | .rect | .rectfill | .circ | .circfill => 0xFFF0FFFE
  | .spr | .sspr => 0xFFF0FFF9
  | .map | .sfx => 0xFFF0FFFF

/-- The match column of rule R100: the opcode with every fixed bit 0. -/
def Op.pattern (o : Op) : CmdWord := o.code ++ 0#24

/-- Field `op` (R91). -/
def fieldOp (w : CmdWord) : Byte := w.extractLsb' 24 8
/-- Field `rd` (R91). -/
def fieldRd (w : CmdWord) : Reg := (w.extractLsb' 20 4).toFin
/-- Field `ra` (R91). -/
def fieldRa (w : CmdWord) : Reg := (w.extractLsb' 16 4).toFin
/-- Field `rb` (R91). -/
def fieldRb (w : CmdWord) : Reg := (w.extractLsb' 12 4).toFin
/-- Field `imm16` (R91). -/
def fieldImm (w : CmdWord) : BitVec 16 := w.extractLsb' 0 16
/-- The flag bits FY, FX, C (R91). -/
def fieldFlags (w : CmdWord) : VFlags := { fy := w.getLsbD 2, fx := w.getLsbD 1, c := w.getLsbD 0 }

/-- The command of a row with the fields of a word (R91, R101). -/
def Op.build (o : Op) (w : CmdWord) : Instr :=
  match o with
  | .nop => .nop
  | .endCmd => .endCmd
  | .lih => .lih (fieldRd w) (fieldImm w)
  | .lil => .lil (fieldRd w) (fieldImm w)
  | .mov => .mov (fieldRd w) (fieldRa w)
  | .add => .add (fieldRd w) (fieldRa w) (fieldRb w)
  | .sub => .sub (fieldRd w) (fieldRa w) (fieldRb w)
  | .mul => .mul (fieldRd w) (fieldRa w) (fieldRb w)
  | .div => .div (fieldRd w) (fieldRa w) (fieldRb w)
  | .peek => .peek (fieldRd w) (fieldRa w)
  | .poke => .poke (fieldRa w) (fieldRb w)
  | .peek4 => .peek4 (fieldRd w) (fieldRa w)
  | .poke4 => .poke4 (fieldRa w) (fieldRb w)
  | .pset => .pset (fieldRa w) (fieldFlags w)
  | .pget => .pget (fieldRd w) (fieldRa w)
  | .line => .line (fieldRa w) (fieldFlags w)
  | .rect => .rect (fieldRa w) (fieldFlags w)
  | .rectfill => .rectfill (fieldRa w) (fieldFlags w)
  | .circ => .circ (fieldRa w) (fieldFlags w)
  | .circfill => .circfill (fieldRa w) (fieldFlags w)
  | .spr => .spr (fieldRa w) (fieldFlags w)
  | .sspr => .sspr (fieldRa w) (fieldFlags w)
  | .map => .map (fieldRa w) (fieldFlags w)
  | .sfx => .sfx (fieldRa w) (fieldFlags w)

/-- Decode(w) of rule R101: strict, total, rejecting by name. -/
def decode (w : CmdWord) : Except DecodeError Instr :=
  match Op.ofCode (fieldOp w) with
  | none => .error .unassignedOpcode
  | some o => if w &&& o.mask = o.pattern then .ok (o.build w) else .error .reservedBits

/-- Format N (R92): `op[31:24] | 0[23:0]`. -/
def encodeN (o : Op) : CmdWord := o.code ++ 0#24

/-- Format I (R93): `op | rd | 0[19:16] | imm16`. -/
def encodeI (o : Op) (rd : Reg) (imm : BitVec 16) : CmdWord :=
  o.code ++ (BitVec.ofFin rd : BitVec 4) ++ 0#4 ++ imm

/-- Format R3 (R94): `op | rd | ra | rb | 0[11:0]`. -/
def encodeR3 (o : Op) (rd ra rb : Reg) : CmdWord :=
  o.code ++ (BitVec.ofFin rd : BitVec 4) ++ (BitVec.ofFin ra : BitVec 4) ++ (BitVec.ofFin rb : BitVec 4) ++ 0#12

/-- Format R2 (R95): `op | rd | ra | 0[15:0]`. -/
def encodeR2 (o : Op) (rd ra : Reg) : CmdWord :=
  o.code ++ (BitVec.ofFin rd : BitVec 4) ++ (BitVec.ofFin ra : BitVec 4) ++ 0#16

/-- Format S2 (R96): `op | 0[23:20] | ra | rb | 0[11:0]`. -/
def encodeS2 (o : Op) (ra rb : Reg) : CmdWord :=
  o.code ++ 0#4 ++ (BitVec.ofFin ra : BitVec 4) ++ (BitVec.ofFin rb : BitVec 4) ++ 0#12

/-- Format V (R97): `op | 0[23:20] | ra | 0[15:3] | FY | FX | C`. -/
def encodeV (o : Op) (ra : Reg) (f : VFlags) : CmdWord :=
  o.code ++ 0#4 ++ (BitVec.ofFin ra : BitVec 4) ++ 0#13 ++
    BitVec.ofBool f.fy ++ BitVec.ofBool f.fx ++ BitVec.ofBool f.c

/-- The word of a command, from the formats of rules R92 to R97. -/
def encode : Instr → CmdWord
  | .nop => encodeN .nop
  | .endCmd => encodeN .endCmd
  | .lih rd imm => encodeI .lih rd imm
  | .lil rd imm => encodeI .lil rd imm
  | .mov rd ra => encodeR2 .mov rd ra
  | .add rd ra rb => encodeR3 .add rd ra rb
  | .sub rd ra rb => encodeR3 .sub rd ra rb
  | .mul rd ra rb => encodeR3 .mul rd ra rb
  | .div rd ra rb => encodeR3 .div rd ra rb
  | .peek rd ra => encodeR2 .peek rd ra
  | .poke ra rb => encodeS2 .poke ra rb
  | .peek4 rd ra => encodeR2 .peek4 rd ra
  | .poke4 ra rb => encodeS2 .poke4 ra rb
  | .pset ra f => encodeV .pset ra f
  | .pget rd ra => encodeR2 .pget rd ra
  | .line ra f => encodeV .line ra f
  | .rect ra f => encodeV .rect ra f
  | .rectfill ra f => encodeV .rectfill ra f
  | .circ ra f => encodeV .circ ra f
  | .circfill ra f => encodeV .circfill ra f
  | .spr ra f => encodeV .spr ra f
  | .sspr ra f => encodeV .sspr ra f
  | .map ra f => encodeV .map ra f
  | .sfx ra f => encodeV .sfx ra f

/-- The command the decoder reads from a table word: one row is one 32-bit word (R90), bits above
`nbits` are 0. -/
def decodeTableWord (nbits w : Nat) : Option Instr :=
  match decode (BitVec.ofNat 32 (w % 2 ^ nbits)) with
  | .ok i => some i
  | .error _ => none

end Sys2Proof
end

