-- ==== Sys2Proof/Machine/Channel.lean ====
section
/-! DEFINITION. The state of one audio channel (R37) and its stopped value. -/

namespace Sys2Proof.Machine

/-- One entry of the audio channel file CH (R37), in a block whose fixed-point words have xl bits, XLEN of Z8B-1.0
where no number is given (R5). -/
structure Channel (xl : Nat := delta% Config.xlen) where
  /-- Index of the sound effect being played; `none` is the spec's -1, silent. That it is below NSFX is an
  invariant (R38, `Channel.ok`). -/
  sfx : Option Nat
  /-- Position in the sound effect, a fixed-point word; its integer half is the note index. -/
  offset : BitVec xl
  /-- Oscillator phase accumulator: 32 bits, of which WAVE reads P[22:0] (R206). -/
  phase : BitVec 32
  /-- Loop-enable flag. -/
  canLoop : Bool
  /-- Key of the previous note. -/
  prevKey : BitVec 6
  /-- Volume applied to the previous sample, a fixed-point word. -/
  prevVol : BitVec xl
  deriving DecidableEq, Repr

/-- The reset and stopped value of every field (R37). -/
def Channel.stopped {xl : Nat} : Channel xl :=
  { sfx := none, offset := 0, phase := 0, canLoop := true, prevKey := 24, prevVol := 0 }

end Sys2Proof.Machine
end

