-- ==== Sys2Proof/Machine/Arith.lean ====
section
/-! DEFINITION. The integer helper functions of rule R9, total on their stated domains, and the fixed-point format of
R6. A word has `xl` bits, XLEN of R5: 32 in Z8B-1.0, where `fracBits` is 16 and `fixOne` is 65536. -/

namespace Sys2Proof.Machine

variable {xl : Nat}

/-- The fraction bits of a fixed-point word, half of them: 16 of 32 (R5, R6; assumption 17). -/
def fracBits (xl : Nat) : Nat := xl / 2

/-- 1.0 as raw bits: 65536 (R6). -/
def fixOne (xl : Nat) : Nat := 2 ^ fracBits xl

/-- The largest fixed-point word as an integer: 0x7FFFFFFF (R6, R127). -/
def maxWord (xl : Nat) : Nat := 2 ^ (xl - 1) - 1

/-- `fdiv(n, d)`, for d > 0: floor division (R9); Lean's `/` on `Int` rounds down for d > 0. -/
def fdiv (n d : Int) : Int := n / d

/-- `tdiv(n, d)`, for d != 0: division truncated toward zero (R9). -/
def tdiv (n d : Int) : Int := Int.tdiv n d

/-- `asr(n, k) = fdiv(n, 2^k)` (R9). -/
def asr (n : Int) (k : Nat) : Int := fdiv n (2 ^ k)

/-- `s32(v)`: the two's-complement reading of a word (R6, R9). -/
def s32 (v : BitVec xl) : Int := v.toInt

/-- `ipart(v)`: the integer half [31:16] read signed, i.e. the value rounded toward minus infinity (R9). -/
def ipart (v : BitVec xl) : Int := (v.extractLsb' (fracBits xl) (xl - fracBits xl)).toInt

/-- `upart(v)`: the integer half [31:16] read unsigned (R9). -/
def upart (v : BitVec xl) : Nat := (v.extractLsb' (fracBits xl) (xl - fracBits xl)).toNat

/-- `fx(n) = (n mod 65536) << 16`: the fixed-point word of an integer (R9). -/
def fx (n : Int) : BitVec xl := BitVec.ofInt xl (n * fixOne xl)

/-- `|n|` (R9). -/
def iabs (n : Int) : Int := (n.natAbs : Int)

/-- `clamp(n, lo, hi) = max(lo, min(hi, n))` (R9). -/
def clamp (n lo hi : Int) : Int := max lo (min hi n)

/-- `sat16(n)` (R9). -/
def sat16 (n : Int) : Int := clamp n (-32768) 32767

/-- The integers lo .. hi in increasing order, empty when hi < lo: the range of a loop
`for x = lo .. hi` (R165, R182). -/
def intRange (lo hi : Int) : List Int :=
  (List.range (hi + 1 - lo).toNat).map fun (k : Nat) => lo + (k : Int)

end Sys2Proof.Machine
end

