-- ==== Sys2Proof/Machine/Waves.lean ====
section
/-! DEFINITION. The oscillator shapes, the pitch and volume tables and the offset step of Z8B-1.0
(R206 to R218), and the values of all parameters of Z8B-1.0 (R5), with which the machine runs. -/

namespace Sys2Proof.Machine

/-- id 0, triangle (R207). -/
def waveTriangle (t : Int) : Int := fdiv (iabs (4 * t - 131072) - 65536) 2

/-- id 1, tilted saw (R208). -/
def waveTiltedSaw (t : Int) : Int :=
  if t < 58982 then fdiv (10 * t) 9 - 32768 else 10 * (65536 - t) - 32768

/-- id 2, sawtooth (R209). -/
def waveSaw (t : Int) : Int := asr (42795 * (if t < 32768 then t else t - 65536)) 16

/-- id 3, square (R210). -/
def waveSquare (t : Int) : Int := if t < 32768 then 16384 else -16384

/-- id 4, pulse (R211). -/
def wavePulse (t : Int) : Int := if 3 * t < 65536 then 16384 else -16384

/-- id 5, organ (R212). -/
def waveOrgan (t : Int) : Int :=
  fdiv (if t < 32768 then 196608 - iabs (24 * t - 393216) else 65536 - iabs (16 * t - 786432)) 9

/-- id 7, phaser, from the position t in the cycle and p = P[22:7] (R214). -/
def wavePhaser (t p : Int) : Int :=
  let k := iabs (2 * p - 65536)
  let u := (t + fdiv k 2) % 65536
  fdiv (iabs (4 * u - 131072) - iabs (8 * t - 262144)) 6

/-- `WAVE(id, P)` (R206), with the noise draw that id 6 returns (R213). -/
def waveZ8b (id : BitVec 3) (phase : BitVec 32) (draw : Int) : Int :=
  let t : Int := (phase.extractLsb' 0 16).toNat
  match id.toNat with
  | 0 => waveTriangle t
  | 1 => waveTiltedSaw t
  | 2 => waveSaw t
  | 3 => waveSquare t
  | 4 => wavePulse t
  | 5 => waveOrgan t
  | 6 => draw
  | _ => wavePhaser t (phase.extractLsb' 7 16).toNat

/-- The table of rule R215, key 0 first. -/
def phaseStepTable : List Nat :=
  [194, 206, 218, 231, 245, 259, 275, 291] ++
  [309, 327, 346, 367, 389, 412, 436, 462] ++
  [490, 519, 550, 583, 617, 654, 693, 734] ++
  [778, 824, 873, 925, 980, 1038, 1100, 1165] ++
  [1234, 1308, 1386, 1468, 1555, 1648, 1746, 1849] ++
  [1959, 2076, 2199, 2330, 2469, 2615, 2771, 2936] ++
  [3110, 3295, 3491, 3699, 3919, 4152, 4399, 4660] ++
  [4937, 5231, 5542, 5872, 6221, 6591, 6983, 7398]

/-- Whether n is the nearest integer to 65536 * f(key) / rate with f(key) = 440 * 2^((key - 33)/12), the origin
R215 gives for its table at SAMPLE_RATE: n - 1/2 and n + 1/2 enclose that number, said of the twelfth powers. -/
def nearestPhaseStep (rate key n : Nat) : Bool :=
  decide (((2 * n - 1) * rate) ^ 12 * 2 ^ 33 ≤ (2 * 65536 * 440) ^ 12 * 2 ^ key) &&
    decide ((2 * 65536 * 440) ^ 12 * 2 ^ key < ((2 * n + 1) * rate) ^ 12 * 2 ^ 33)

/-- `PHASE_STEP[key]` (R215). -/
def phaseStepZ8b (key : BitVec 6) : Nat := phaseStepTable.getD key.toNat 0

/-- `VOLTAB[vol] = fdiv(vol * 65536, 7)` (R216). -/
def voltabZ8b (vol : BitVec 3) : Int := fdiv ((vol.toNat : Int) * 65536) 7

/-- `OSTEP(key, spd) = fdiv(65536, 183 * spd)`, which ignores the key (R218). -/
def ostepZ8b (_key : BitVec 6) (spd : Nat) : Nat := 65536 / (183 * spd)

/-- The parameter values Z8B-1.0 fixes, row by row of the table of R5, with which `step` runs. -/
def z8b : Params :=
  { xlen := delta% Config.xlen
    nReg := delta% Config.nReg
    memSize := 0x8000
    oobPolicy := .ignore
    gfxBase := 0x0000
    map2Base := 0x1000
    mapBase := 0x2000
    flagsBase := 0x3000
    sfxBase := 0x3200
    drawBase := 0x5f00
    screenBase := 0x6000
    screenW := 128
    screenH := 128
    sheetW := 128
    sheetH := 128
    spritePx := 8
    mapW := 128
    mapH := 64
    transpOnPrimitives := false
    nChan := delta% Config.nChan
    nSfx := 64
    nNote := 32
    sampleRate := 22050
    phaseStep := phaseStepZ8b
    wave := waveZ8b
    voltab := voltabZ8b
    slew := 0x400
    ostep := ostepZ8b }

end Sys2Proof.Machine
end

