-- ==== Sys2Proof/Machine/Memory.lean ====
section
/-! DEFINITION. The memory image MEM (R26, R60 to R67, R77): a list of (address, byte) cells in one
canonical form, its byte reads and writes, and the multi-byte accesses built from them. -/

namespace Sys2Proof.Machine

/-- The memory image: cells with rising addresses, none equal to what an unlisted address reads as. -/
abbrev Mem := List Host.Cell

/-- Reset value of the draw-state byte at offset k of DRAW_BASE, 0 <= k < 0x40 (R29 to R36, R42). -/
def drawDefault (k : Nat) : Byte :=
  if k = 0 then 0x10                      -- DRAWPAL[0]: colour 0 is transparent
  else if k < 0x10 then BitVec.ofNat 8 k  -- DRAWPAL
  else if k < 0x20 then BitVec.ofNat 8 (k - 0x10)  -- SCRPAL
  else if k = 0x22 ∨ k = 0x23 then 0x80   -- CLIP_X1, CLIP_Y1
  else if k = 0x25 then 0x06              -- PEN
  else 0x00

/-- Whether an address lies in the draw state of a block (R27). -/
def inDrawState (P : Params) (a : Nat) : Bool := decide (P.drawBase ≤ a) && decide (a < P.drawBase + 0x40)

/-- What an address that no cell lists reads as: the reset contents of Z8B-1.0 (R42), where the host's image
MEM0 counts as zero (DESIGN CHOICE, assumption 2). A block whose draw state stands elsewhere has them listed by its
reset (`resetMem`). -/
def unlisted (a : Nat) : Byte := if inDrawState z8b a then drawDefault (a - z8b.drawBase) else 0x00

/-- `MEM[a]` (R8). -/
def Mem.byte : Mem → Nat → Byte
  | [], a => unlisted a
  | (k, v) :: t, a => if a = k then v else if a < k then unlisted a else Mem.byte t a

/-- `MEM[a] <- b`, keeping the canonical form (R26). -/
def Mem.put : Mem → Nat → Byte → Mem
  | [], a, b => if b = unlisted a then [] else [(a, b)]
  | (k, v) :: t, a, b =>
    if a < k then if b = unlisted a then (k, v) :: t else (a, b) :: (k, v) :: t
    else if a = k then if b = unlisted a then t else (a, b) :: t
    else (k, v) :: Mem.put t a b

/-- The canonical form from address `lo` on, of an image of `size` bytes: addresses rise, lie in the image, and no
cell says what an unlisted address says. -/
def Mem.wfFrom (size lo : Nat) : Mem → Bool
  | [] => true
  | (a, b) :: t => decide (lo ≤ a) && decide (a < size) && b != unlisted a && Mem.wfFrom size (a + 1) t

/-- The canonical form of a memory image of `size` bytes. -/
def Mem.wf (size : Nat) (m : Mem) : Bool := Mem.wfFrom size 0 m

/-- `ReadByte(a)` under the size of the image and the out-of-range policy (R61, R77). -/
def readByte (P : Params) (m : Mem) (a : Nat) : Byte :=
  if a < P.memSize then m.byte a
  else match P.oobPolicy with
    | .ignore => 0
    | .clamp => m.byte (P.memSize - 1)

/-- `WriteByte(a, b)` under the size of the image and the out-of-range policy (R61, R77). -/
def writeByte (P : Params) (m : Mem) (a : Nat) (b : Byte) : Mem :=
  if a < P.memSize then m.put a b
  else match P.oobPolicy with
    | .ignore => m
    | .clamp => m.put (P.memSize - 1) b

/-- `MemRead(addr, n)`: n bytes, little-endian, each tested on its own (R61, R62). -/
def memRead (P : Params) (m : Mem) (a : Nat) : Nat → Nat
  | 0 => 0
  | n + 1 => (readByte P m a).toNat + 256 * memRead P m (a + 1) n

/-- `MemWrite(addr, n, v)`: n bytes, little-endian, in increasing address order (R61, R62). -/
def memWrite (P : Params) (m : Mem) (a : Nat) : Nat → Nat → Mem
  | 0, _ => m
  | n + 1, v => memWrite P (writeByte P m a (BitVec.ofNat 8 v)) (a + 1) n (v / 256)

/-- A 16-bit little-endian quantity of MEM: CAM_X, CAM_Y, FILLP, a note word (R33, R34, R62, R202). -/
def Mem.half (m : Mem) (a : Nat) : BitVec 16 := m.byte (a + 1) ++ m.byte a

/-- Cells written one after another, those outside the image dropped (R61, R261). -/
def putCells (P : Params) (m : Mem) (cells : List Host.Cell) : Mem :=
  cells.foldl (fun m c => if c.1 < P.memSize then m.put c.1 c.2 else m) m

/-- The draw-state bytes at their defaults (R42). -/
def drawCells (P : Params) : List Host.Cell := (List.range 0x40).map fun k => (P.drawBase + k, drawDefault k)

/-- A MEM0 of zeros, as cells: where an unlisted address reads as something else (R261, assumption 2). -/
def zeroCells : List Host.Cell := (List.range 0x40).map fun k => (z8b.drawBase + k, 0x00)

/-- MEM after a reset with the host's image MEM0, given as (address, byte) pairs over zeros: the
image with the 0x40 draw-state bytes at their defaults (R42, R261). Irreducible, so that no proof runs through its
cells unasked: `byte_resetMem` says what it holds. -/
@[irreducible] def resetMem (P : Params) (image : List Host.Cell) : Mem := putCells P [] (zeroCells ++ image ++ drawCells P)

end Sys2Proof.Machine
end

