-- ==== Sys2Proof/Machine/State.lean ====
section
/-! DEFINITION. The state of the machine (R20 to R42), the reasons a step can stop, and the state after reset. -/

namespace Sys2Proof.Machine

/-- SEQ, the sequencer status (R24). -/
inductive SeqStatus
  /-- Commands are executed. -/
  | run
  /-- An END command has executed. -/
  | done
  /-- An illegal command word was met. -/
  | fault
  deriving DecidableEq, Repr

/-- One step of one agent of a block with nc channels, as the schedule names it (R2, R40, R70). -/
inductive Move (nc : Nat := delta% Config.nChan)
  /-- SEQ executes the next command (R232). -/
  | seq
  /-- AUD(ch) takes a tick (R204). -/
  | aud (ch : Fin nc)
  /-- HOST writes one byte of MEM (R76, R266). -/
  | hostWrite (a : Nat) (b : Byte)
  /-- HOST resets the block with the image MEM0 (R260, R261). -/
  | hostReset (image : List Host.Cell)
  /-- HOST supplies the command list (R263). -/
  | hostLaunch (list : List CmdWord)
  deriving DecidableEq, Repr

/-- The event OUT(ch, s): one signed 16-bit sample of channel ch (R39, R217). -/
structure OutEvent (nc : Nat := delta% Config.nChan) where
  ch : Fin nc
  sample : BitVec 16
  deriving DecidableEq, Repr

/-- Why a step does not exist. No command and no tick raises one of these (R204, R240): they are the
rest conditions of SEQ and arise only when it is SEQ's turn. -/
inductive Fault
  /-- SEQ = DONE: the list has ended normally and SEQ has no step (R232, R233). Raised by SEQ's turn.
  Safe: the spec gives no step here. -/
  | seqDone
  /-- SEQ = FAULT: SEQ has no step until a reset (R24, R245). Raised by SEQ's turn. Safe: the spec
  gives no step here. -/
  | seqFaulted
  /-- SEQ = RUN and pc >= NCMD: the list ran off its end, SEQ is stuck (R232). Raised by SEQ's turn.
  Safe: the spec gives no step here. -/
  | seqStuck
  /-- Between reset and launch there is no command list, so SEQ has no step (R263). Raised by SEQ's
  turn. Safe: the spec gives no step here. -/
  | notLaunched
  deriving DecidableEq, Repr

/-- Host moves that the spec does not have, and the host interface's marker of an instruction
without a meaning. -/
inductive Refusal
  /-- An instruction rejected by name. Raised by no arm of `exec` in this model. Safe. -/
  | notModelled (mnemonic : String)
  /-- HOST writes MEM while a launched list has SEQ = RUN: no such move exists (R266). Raised by that
  host move alone. Safe: the model goes no further (assumption 6). -/
  | hostWriteWhileRunning
  /-- HOST launches a second list without a reset: no such move exists (R246, R263). Raised by that
  host move alone. Safe: the model goes no further (assumption 6). -/
  | launchWithoutReset
  deriving DecidableEq, Repr

/-- The state of a block (R20) with nc audio channels and nr general registers of xl bits, NCHAN, NREG and XLEN of
Z8B-1.0 where no numbers are given (R5, R21, R37), with the parameters of its step relation (R40) and the record of its
output (R39) as plain data. -/
structure State (nc : Nat := delta% Config.nChan) (nr : Nat := delta% Config.nReg) (xl : Nat := delta% Config.xlen) where
  /-- General registers (R21). -/
  x : Vector (BitVec xl) nr
  /-- Command pointer (R22). -/
  pc : Nat
  /-- Sequencer status (R24). -/
  seq : SeqStatus
  /-- FAULTPC (R25). -/
  faultPc : Nat
  /-- FAULTW (R25). -/
  faultW : CmdWord
  /-- The memory image, the draw state in it (R26 to R36). -/
  mem : Mem
  /-- The audio channel file (R37). -/
  ch : Vector (Channel xl) nc
  /-- Not state but a parameter (R40): the command list, none between reset and launch (R263). -/
  cmd : Option (List CmdWord)
  /-- MODEL's own: the schedule of R40, moves still to come (assumption 1). -/
  sched : List (Move nc)
  /-- MODEL's own: draws taken so far from the noise oracle of R40 (assumption 4). -/
  noiseCount : Nat
  /-- MODEL's own: the OUT events emitted so far, newest first (R39, assumption 3). -/
  out : List (OutEvent nc)
  deriving DecidableEq, Repr

/-- The machine right after reset (R42), with MEM0 all zero (DESIGN CHOICE, assumption 2) and nothing
launched. -/
def State.reset : State :=
  { x := Vector.replicate (delta% Config.nReg) 0
    pc := 0
    seq := .run
    faultPc := 0
    faultW := 0
    mem := []
    ch := Vector.replicate (delta% Config.nChan) Channel.stopped
    cmd := none
    sched := []
    noiseCount := 0
    out := [] }

/-- The machine right after reset in a block with parameters P, MEM0 all zero and nothing launched (R5, R42). -/
def State.resetIn (P : Params) : State P.nChan P.nReg P.xlen :=
  { x := Vector.replicate P.nReg 0
    pc := 0
    seq := .run
    faultPc := 0
    faultW := 0
    mem := resetMem P []
    ch := Vector.replicate P.nChan Channel.stopped
    cmd := none
    sched := []
    noiseCount := 0
    out := [] }

/-- The outcome of a step. -/
abbrev Result (nc : Nat := delta% Config.nChan) (nr : Nat := delta% Config.nReg) (xl : Nat := delta% Config.xlen) :=
  Host.Outcome (State nc nr xl) Fault Refusal

end Sys2Proof.Machine
end

