-- ==== Sys2Proof/Machine/Operands.lean ====
section
/-! DEFINITION. Operand forms (R98, R99, R103): registers, vector operands, and the conversion each
takes. -/

namespace Sys2Proof.Machine

variable {nc nr xl : Nat}

/-- The register of number k: `x[k mod NREG]`, `x[k mod 16]` of R98. In a block with another number of registers a
number that a register field names is taken so too (R91; DESIGN CHOICE, assumption 17). -/
def State.regAt (s : State nc nr xl) (k : Nat) : BitVec xl :=
  if h : 0 < nr then s.x[k % nr]'(Nat.mod_lt k h) else 0

/-- `x[r]` (R8, R21). -/
def State.reg (s : State nc nr xl) (r : Reg) : BitVec xl := s.regAt r.val

/-- `x[r] <- v` (R8, R21). -/
def State.setReg (s : State nc nr xl) (r : Reg) (v : BitVec xl) : State nc nr xl :=
  { s with x := s.x.setIfInBounds (r.val % nr) v }

/-- `V(ra, i) = x[(ra + i) mod 16]`: operand i of a vector operand, the number wrapping from NREG - 1 to 0 (R98). -/
def State.vop (s : State nc nr xl) (ra : Reg) (i : Nat) : BitVec xl := s.regAt (ra.val + i)

/-- A vector operand as a coordinate, size, index or count (R103). -/
def State.vint (s : State nc nr xl) (ra : Reg) (i : Nat) : Int := ipart (s.vop ra i)

/-- Effective address of a memory-port command: EA = upart(x[ra]) (R144). -/
def State.ea (s : State nc nr xl) (ra : Reg) : Nat := upart (s.reg ra)

/-- A byte value: bits [23:16] of the register, the integer part modulo 256 (R141, R153, R186). -/
def byteOf (v : BitVec xl) : Byte := v.extractLsb' (fracBits xl) 8

end Sys2Proof.Machine
end

