-- ==== Sys2Proof/Machine/Ops.lean ====
section
/-! DEFINITION. The operations the meanings share: the end of a command, writing a register or memory,
taking the one exception and leaving it, and the host's moves. -/

namespace Sys2Proof.Machine

variable {nc nr xl : Nat}

/-- The end of every command that completes: `pc <- pc + 1` (R22). -/
def State.advance (s : State nc nr xl) : State nc nr xl := { s with pc := s.pc + 1 }

/-- The command is done. -/
def retire (s : State nc nr xl) : Result nc nr xl := .next s.advance

/-- A command that writes one register (R120, R264). -/
def writeBack (rd : Reg) (v : BitVec xl) (s : State nc nr xl) : Result nc nr xl := retire (s.setReg rd v)

/-- A new memory image. -/
def State.setMem (s : State nc nr xl) (m : Mem) : State nc nr xl := { s with mem := m }

/-- A new value of one audio channel. -/
def State.setCh (s : State nc nr xl) (ch : Fin nc) (c : Channel xl) : State nc nr xl :=
  { s with ch := s.ch.set ch.val c ch.isLt }

/-- A channel changed, when the number names one of the block's channels: 0 .. NCHAN-1 (R37, R203). -/
def State.modifyCh (s : State nc nr xl) (k : Int) (f : Channel xl → Channel xl) : State nc nr xl :=
  if h : 0 ≤ k ∧ k.toNat < nc then s.setCh ⟨k.toNat, h.2⟩ (f (s.ch.get ⟨k.toNat, h.2⟩)) else s

/-- `MemRead` (R8, R61). -/
def State.load (P : Params) (s : State nc nr xl) (a n : Nat) : Nat := memRead P s.mem a n

/-- `MemWrite` (R8, R61). -/
def State.store (P : Params) (s : State nc nr xl) (a n v : Nat) : State nc nr xl := s.setMem (memWrite P s.mem a n v)

/-- TAKING THE EXCEPTION: `raise IllegalCommand(w)` (R245). FAULTPC and FAULTW are saved, SEQ becomes
FAULT, and nothing else changes, `pc` included. -/
def raiseIllegalCommand (w : CmdWord) (s : State nc nr xl) : State nc nr xl :=
  { s with faultPc := s.pc, faultW := w, seq := .fault }

/-- Reset with the image MEM0 (R42, R261): every piece of the block's state takes its reset value and
no command list is launched; the schedule, the noise oracle and the output record are the
surroundings' and go on. -/
def State.resetWith (P : Params) (image : List Host.Cell) (s : State nc nr xl) : State nc nr xl :=
  { s with
    x := Vector.replicate nr 0
    pc := 0
    seq := .run
    faultPc := 0
    faultW := 0
    mem := resetMem P image
    ch := Vector.replicate nc Channel.stopped
    cmd := none }

/-- THE RETURN: there is no command for it; a reset by the host is the only way out of FAULT or DONE
(R246, R261). -/
def hostReset (P : Params) (image : List Host.Cell) (s : State nc nr xl) : Result nc nr xl := .next (s.resetWith P image)

/-- HOST launches a command list, once after a reset (R263). -/
def hostLaunch (list : List CmdWord) (s : State nc nr xl) : Result nc nr xl :=
  match s.cmd with
  | none => .next { s with cmd := some list }
  | some _ => .refused .launchWithoutReset

/-- Whether HOST may write MEM: SEQ is DONE or FAULT, or nothing is launched yet (R76, R266). -/
def State.hostMayWrite (s : State nc nr xl) : Bool := s.seq != .run || s.cmd.isNone

/-- HOST writes one byte of MEM; outside the image the write does nothing (R76, R252, R266).

DESIGN CHOICE (assumption 16), for a draw-state byte written between reset and launch: the write stays. R76 and
R266 let the host write any byte there, while R263 calls such a write indistinguishable from another MEM0, whose
draw-state bytes reset discards (R261). -/
def hostWrite (P : Params) (a : Nat) (b : Byte) (s : State nc nr xl) : Result nc nr xl :=
  if s.hostMayWrite then
    .next (if a < P.memSize then s.setMem (s.mem.put a b) else s)
  else .refused .hostWriteWhileRunning

end Sys2Proof.Machine
end

