-- ==== Sys2Proof/Machine/Audio.lean ====
section
/-! DEFINITION. The audio channel oscillators: the command SFX (R203) and the tick of AUD(ch) (R204 to R222),
each for any parameters (R5) and then for those of Z8B-1.0. -/

namespace Sys2Proof.Machine

variable {nc nr xl : Nat}

/-- The fields of a note word (R202). -/
structure Note where
  key : BitVec 6
  wave : BitVec 3
  vol : BitVec 3
  /-- Effect: decoded and ignored (R222). -/
  fx : BitVec 3
  deriving DecidableEq, Repr

/-- The note of a note word; bit 15 is ignored (R202). -/
def Note.ofWord (w : BitVec 16) : Note :=
  { key := w.extractLsb' 0 6, wave := w.extractLsb' 6 3, vol := w.extractLsb' 9 3, fx := w.extractLsb' 12 3 }

/-- Bytes of one sound effect, NNOTE note words and a trailer of 4 bytes: 68 (R201). -/
def sfxBytes (P : Params) : Nat := 2 * P.nNote + 4

/-- SB(n): the first byte of sound effect n (R201). -/
def sfxAddr (P : Params) (n : Nat) : Nat := P.sfxBase + sfxBytes P * n

/-- The note word at index k of sound effect n (R201, R202). -/
def noteAt (P : Params) (m : Mem) (n k : Nat) : Note := Note.ofWord (m.half (sfxAddr P n + 2 * k))

/-- SPD, with 0 treated as 1 (R201, R204). -/
def sfxSpeed (P : Params) (m : Mem) (n : Nat) : Nat := max 1 (m.byte (sfxAddr P n + (2 * P.nNote + 1))).toNat

/-- LOOP_START (R201). -/
def loopStart (P : Params) (m : Mem) (n : Nat) : Nat := (m.byte (sfxAddr P n + (2 * P.nNote + 2))).toNat

/-- LOOP_END (R201). -/
def loopEnd (P : Params) (m : Mem) (n : Nat) : Nat := (m.byte (sfxAddr P n + (2 * P.nNote + 3))).toNat

/-- The volume applied to this sample: the previous one moved toward the target by at most SLEW (R204
step 3, R216). -/
def slewedVolume (P : Params) (prev target : Int) : Int := prev + clamp (target - prev) (-P.slew) P.slew

/-- The output sample of an oscillator sample and an applied volume in units of `1.0 = one`: 65536 (R217). -/
def outSample (one : Nat) (sm v : Int) : Int := sat16 (asr (fdiv (sm * v) one) 1)

/-- The wrap of an advanced offset into the loop range, when there is one and the channel loops
(R204 step 4, R219), a note being `one` long: 65536. -/
def loopWrap (one : Nat) (canLoop : Bool) (ls le nxt : Nat) : Nat :=
  if ls < le ∧ canLoop = true ∧ le * one ≤ nxt then
    ls * one + (nxt - ls * one) % ((le - ls) * one)
  else nxt

/-- The note index of a channel: its offset truncated (R204, R205). -/
def Channel.noteIndex (c : Channel xl) : Nat := upart c.offset

/-- The advanced offset of a channel playing sound effect n, after the loop rule (R204 step 4). -/
def nextOffset (P : Params) (m : Mem) (n : Nat) (c : Channel xl) : Nat :=
  loopWrap (fixOne xl) c.canLoop (loopStart P m n) (loopEnd P m n)
    (c.offset.toNat + P.ostep (noteAt P m n c.noteIndex).key (sfxSpeed P m n))

/-- The volume a channel playing sound effect n applies to this sample (R204 step 3). -/
def tickVolume (P : Params) (m : Mem) (n : Nat) (c : Channel xl) : Int :=
  slewedVolume P (s32 c.prevVol) (P.voltab (noteAt P m n c.noteIndex).vol)

/-- The sample a channel playing sound effect n emits, given the noise draw (R204 steps 2 and 3). -/
def tickSample (P : Params) (m : Mem) (n : Nat) (draw : Int) (c : Channel xl) : Int :=
  outSample (fixOne xl) (P.wave (noteAt P m n c.noteIndex).wave c.phase draw) (tickVolume P m n c)

/-- The channel after one tick of sound effect n (R204 steps 3 and 4, R220). -/
def tickChannel (P : Params) (m : Mem) (n : Nat) (c : Channel xl) : Channel xl :=
  let key := (noteAt P m n c.noteIndex).key
  let nxt := nextOffset P m n c
  if P.nNote * fixOne xl ≤ nxt then Channel.stopped
  else
    { c with
      offset := BitVec.ofNat xl nxt
      phase := c.phase + BitVec.ofNat 32 (P.phaseStep key)
      prevKey := if nxt / fixOne xl ≠ c.noteIndex then key else c.prevKey
      prevVol := BitVec.ofInt xl (tickVolume P m n c) }

/-- The event OUT(ch, s) (R39). -/
def State.emit (s : State nc nr xl) (ch : Fin nc) (sample : Int) : State nc nr xl :=
  { s with out := { ch := ch, sample := BitVec.ofInt 16 sample } :: s.out }

/-- A tick takes a fresh noise draw exactly when its note's waveform is the noise (R213). -/
def drawsNoise (P : Params) (m : Mem) (n : Nat) (c : Channel xl) : Bool := (noteAt P m n c.noteIndex).wave == 6

/-- The tick of a channel that plays sound effect n: the sample is emitted, the channel advances, and the
noise oracle moves on when the note drew from it (R204). -/
def tickPlaying (P : Params) (ch : Fin nc) (n : Nat) (s : State nc nr xl) : State nc nr xl :=
  { (s.setCh ch (tickChannel P s.mem n (s.ch.get ch))).emit ch
      (tickSample P s.mem n (Config.noiseDraw s.noiseCount).toInt (s.ch.get ch)) with
    noiseCount := if drawsNoise P s.mem n (s.ch.get ch) then s.noiseCount + 1 else s.noiseCount }

/-- The tick of AUD(ch): total, whatever SEQ holds (R204). A silent channel emits 0 and changes
nothing. -/
def tickIn (P : Params) (ch : Fin nc) (s : State nc nr xl) : State nc nr xl :=
  match (s.ch.get ch).sfx with
  | none => s.emit ch 0
  | some n => tickPlaying P ch n s

/-- The tick of Z8B-1.0. -/
def tick (ch : Fin nc) (s : State nc nr xl) : State nc nr xl := tickIn z8b ch s

/-- A channel started at note index `off` of sound effect n (R203). -/
def Channel.started (n off : Nat) : Channel xl :=
  { Channel.stopped with sfx := some n, offset := BitVec.ofNat xl (off * fixOne xl) }

/-- What SFX with arguments (n, off) makes of its channel (R203). -/
def sfxChannel (P : Params) (n off : Int) (c : Channel xl) : Channel xl :=
  if n = -1 then Channel.stopped
  else if n = -2 then if c.sfx.isSome then { c with canLoop := false } else c
  else if 0 ≤ n ∧ n < P.nSfx ∧ 0 ≤ off ∧ off < P.nNote then
    Channel.started n.toNat off.toNat
  else c

/-- SFX: starts, stops or releases one channel; a channel number outside 0 .. NCHAN-1 has no effect (R203). -/
def sfxIn (P : Params) (ra : Reg) (s : State nc nr xl) : Result nc nr xl :=
  retire (s.modifyCh (s.vint ra 1) (sfxChannel P (s.vint ra 0) (s.vint ra 2)))

/-- SFX of Z8B-1.0. -/
def execSfx (ra : Reg) (s : State nc nr xl) : Result nc nr xl := sfxIn z8b ra s

end Sys2Proof.Machine
end

