-- ==== Sys2Proof/Machine/Pixels.lean ====
section
/-! DEFINITION. The draw state as fields of MEM (R28 to R36), the framebuffer (R152) and the pixel
pipelines of the primitives (R150 to R155) and of the blits (R181).

A drawing command reads the draw state as it stands after its colour operand has set PEN (R153, R265)
and then writes framebuffer nibbles only. So the model computes the list of pixels the command writes
from that memory image, in the spec's order, and writes them one after another. -/

namespace Sys2Proof.Machine

variable {nc nr xl : Nat}

/-- `remap(c) = MEM[DRAW_BASE + c][3:0]` (R29). -/
def remap (P : Params) (m : Mem) (c : Nibble) : Nibble := (m.byte (P.drawBase + c.toNat)).extractLsb' 0 4

/-- `transp(c) = MEM[DRAW_BASE + c][4]` (R29). -/
def transp (P : Params) (m : Mem) (c : Nibble) : Bool := (m.byte (P.drawBase + c.toNat)).getLsbD 4

/-- EX0 = CLIP_X0 (R31, R151). -/
def clipX0 (P : Params) (m : Mem) : Int := (m.byte (P.drawBase + 0x20)).toNat
/-- EY0 = CLIP_Y0 (R31, R151). -/
def clipY0 (P : Params) (m : Mem) : Int := (m.byte (P.drawBase + 0x21)).toNat
/-- EX1 = min(CLIP_X1, SCREEN_W) (R31, R151). -/
def clipX1 (P : Params) (m : Mem) : Int := min ((m.byte (P.drawBase + 0x22)).toNat : Int) P.screenW
/-- EY1 = min(CLIP_Y1, SCREEN_H) (R31, R151). -/
def clipY1 (P : Params) (m : Mem) : Int := min ((m.byte (P.drawBase + 0x23)).toNat : Int) P.screenH

/-- Address of PEN (R32). -/
def penAddr (P : Params) : Nat := P.drawBase + 0x25
/-- PEN (R32). -/
def pen (P : Params) (m : Mem) : Byte := m.byte (penAddr P)

/-- CAM_X (R33). -/
def camX (P : Params) (m : Mem) : Int := (m.half (P.drawBase + 0x28)).toInt
/-- CAM_Y (R33). -/
def camY (P : Params) (m : Mem) : Int := (m.half (P.drawBase + 0x2a)).toInt

/-- FILLP (R34). -/
def fillp (P : Params) (m : Mem) : BitVec 16 := m.half (P.drawBase + 0x31)
/-- FILLP_T (R35). -/
def fillpT (P : Params) (m : Mem) : Bool := (m.byte (P.drawBase + 0x33)).getLsbD 0

/-- The bit of FILLP that belongs to a screen pixel (R34, R154). -/
def fillBit (P : Params) (m : Mem) (xs ys : Int) : Bool := (fillp P m).getLsbD (15 - (xs % 4 + 4 * (ys % 4)).toNat)

/-- `InClip(xs, ys)`: inside the effective clip rectangle (R151). -/
def inClip (P : Params) (m : Mem) (xs ys : Int) : Bool :=
  decide (clipX0 P m ≤ xs) && decide (xs < clipX1 P m) && decide (clipY0 P m ≤ ys) && decide (ys < clipY1 P m)

/-- One framebuffer pixel, column and row, and the colour written to it: `SetPix(x, y, c)` (R152). -/
structure Pixel where
  x : Nat
  y : Nat
  c : Nibble
  deriving DecidableEq, Repr

/-- The framebuffer position of screen coordinates that lie on the screen (R152). -/
def Pixel.at (xs ys : Int) (c : Nibble) : Pixel :=
  { x := xs.toNat, y := ys.toNat, c := c }

/-- `FA(xs, ys) = SCREEN_BASE + 64*ys + fdiv(xs, 2)`, a row being SCREEN_W / 2 = 64 bytes (R152). -/
def fbAddr (P : Params) (x y : Nat) : Nat := P.screenBase + P.screenW / 2 * y + x / 2

/-- The nibble of a byte that holds an even (low) or odd (high) pixel (R152, R180). -/
def nibbleOf (x : Nat) (b : Byte) : Nibble := if x % 2 = 0 then b.extractLsb' 0 4 else b.extractLsb' 4 4

/-- A byte with one nibble replaced and the other kept (R152). -/
def withNibble (x : Nat) (b : Byte) (c : Nibble) : Byte :=
  if x % 2 = 0 then b.extractLsb' 4 4 ++ c else c ++ b.extractLsb' 0 4

/-- `GetPix(xs, ys)` (R152). -/
def getPix (P : Params) (m : Mem) (x y : Nat) : Nibble := nibbleOf x (m.byte (fbAddr P x y))

/-- `SetPix(xs, ys, c)`: a read-modify-write of one byte (R152). -/
def setPix (P : Params) (m : Mem) (p : Pixel) : Mem :=
  m.put (fbAddr P p.x p.y) (withNibble p.x (m.byte (fbAddr P p.x p.y)) p.c)

/-- The pixels of a command, written in order. -/
def drawPixels (P : Params) (m : Mem) (ps : List Pixel) : Mem := ps.foldl (setPix P) m

/-- `ResolveColour(c)`: PEN takes the integer part of c modulo 256, when the command has a colour
operand (R153). -/
def resolveColour (P : Params) (hasColour : Bool) (c : BitVec xl) (m : Mem) : Mem :=
  if hasColour then m.put (penAddr P) (byteOf c) else m

/-- The end of the primitive pipeline for a colour index: the transparency test of R155 where the
parameter asks for it, then the remap (R154). -/
def plotColour (P : Params) (m : Mem) (xs ys : Int) (col : Nibble) : Option Pixel :=
  if P.transpOnPrimitives && transp P m col then none else some (Pixel.at xs ys (remap P m col))

/-- `Plot(xs, ys)`: the pixel it writes, if any (R154). -/
def plot (P : Params) (m : Mem) (xs ys : Int) : Option Pixel :=
  if inClip P m xs ys then
    if fillBit P m xs ys then
      if fillpT P m then none else plotColour P m xs ys ((pen P m).extractLsb' 4 4)
    else plotColour P m xs ys ((pen P m).extractLsb' 0 4)
  else none

/-- `PlotSprite(xs, ys, col)`: the pixel it writes, if any; the transparency test is made on the source
colour, before the remap (R181). -/
def plotSprite (P : Params) (m : Mem) (xs ys : Int) (col : Nibble) : Option Pixel :=
  if inClip P m xs ys then if transp P m col then none else some (Pixel.at xs ys (remap P m col)) else none

/-- The logical x coordinate of operand i as a screen coordinate (R150). -/
def State.screenX (P : Params) (s : State nc nr xl) (m : Mem) (ra : Reg) (i : Nat) : Int := s.vint ra i - camX P m
/-- The logical y coordinate of operand i as a screen coordinate (R150). -/
def State.screenY (P : Params) (s : State nc nr xl) (m : Mem) (ra : Reg) (i : Nat) : Int := s.vint ra i - camY P m

/-- A primitive plots a list of screen positions on the image `m` left by ResolveColour (R154). -/
def plotAll (P : Params) (m : Mem) (pts : List (Int × Int)) (s : State nc nr xl) : Result nc nr xl :=
  retire (s.setMem (drawPixels P m (pts.filterMap fun p => plot P m p.1 p.2)))

end Sys2Proof.Machine
end

