-- ==== Sys2Proof/Machine/Blit.lean ====
section
/-! DEFINITION. The blitter: SPR, SSPR, MAP (R180 to R187). Loops are restricted to the effective clip
rectangle and to the map, as R269 allows. Each command is given for any parameters (R5) and then for those of
Z8B-1.0. -/

namespace Sys2Proof.Machine

variable {nc nr xl : Nat}

/-- `SheetPix(u, v)`: colour 0 outside the sheet (R180). -/
def sheetPix (P : Params) (m : Mem) (u v : Int) : Nibble :=
  if 0 ≤ u ∧ u < P.sheetW ∧ 0 ≤ v ∧ v < P.sheetH then
    nibbleOf u.toNat (m.byte (P.gfxBase + P.sheetW / 2 * v.toNat + u.toNat / 2))
  else 0

/-- The arguments of `Blit` (R182): source rectangle on the sheet, destination rectangle in logical
coordinates, flips. -/
structure BlitArgs where
  sx : Int
  sy : Int
  sw : Int
  sh : Int
  dx : Int
  dy : Int
  dw : Int
  dh : Int
  fx : Bool
  fy : Bool
  deriving DecidableEq, Repr

/-- Source column u of destination column i: nearest neighbour, then the flip (R182). -/
def BlitArgs.srcU (b : BlitArgs) (i : Int) : Int :=
  if b.fx then b.sw - 1 - fdiv (i * b.sw) b.dw else fdiv (i * b.sw) b.dw

/-- Source row v of destination row j (R182). -/
def BlitArgs.srcV (b : BlitArgs) (j : Int) : Int :=
  if b.fy then b.sh - 1 - fdiv (j * b.sh) b.dh else fdiv (j * b.sh) b.dh

/-- The pixel that `Blit` writes at screen position (xs, ys) of its destination, if any (R181, R182). -/
def blitPixel (P : Params) (m : Mem) (b : BlitArgs) (xs ys : Int) : Option Pixel :=
  plotSprite P m xs ys
    (sheetPix P m (b.sx + b.srcU (xs - (b.dx - camX P m))) (b.sy + b.srcV (ys - (b.dy - camY P m))))

/-- `Blit`: the destination positions inside the clip rectangle, row by row (R182, R269). -/
def blit (P : Params) (m : Mem) (b : BlitArgs) : List Pixel :=
  if b.sw ≤ 0 ∨ b.sh ≤ 0 ∨ b.dw ≤ 0 ∨ b.dh ≤ 0 then []
  else
    let left := b.dx - camX P m
    let top := b.dy - camY P m
    (intRange (max top (clipY0 P m)) (min (top + b.dh - 1) (clipY1 P m - 1))).flatMap fun ys =>
      (intRange (max left (clipX0 P m)) (min (left + b.dw - 1) (clipX1 P m - 1))).filterMap fun xs =>
        blitPixel P m b xs ys

/-- Sprites in one row of the sheet: 16 (R5, R184). -/
def sheetCols (P : Params) : Nat := P.sheetW / P.spritePx

/-- Sprites on the sheet: 256 (R5, R184). -/
def sheetSprites (P : Params) : Nat := sheetCols P * (P.sheetH / P.spritePx)

/-- Sprite n, at ((n mod 16)*8, fdiv(n, 16)*8) on the sheet, drawn unstretched at logical (dx, dy) with
pw x ph pixels (R184). -/
def spriteBlit (P : Params) (n dx dy pw ph : Int) (flipX flipY : Bool) : BlitArgs :=
  { sx := (n % (sheetCols P : Nat)) * P.spritePx, sy := fdiv n (sheetCols P) * P.spritePx, sw := pw, sh := ph
    dx := dx, dy := dy, dw := pw, dh := ph, fx := flipX, fy := flipY }

/-- The map rows that stand at MAP_BASE, the rest standing in the shared area: MAP_H / 2 = 32 (R5, R185). -/
def mapLowRows (P : Params) : Nat := P.mapH / 2

/-- `MapAddr(mx, my)` (R185). -/
def mapAddr (P : Params) (mx my : Nat) : Nat :=
  if my < mapLowRows P then P.mapBase + P.mapW * my + mx
  else P.map2Base + P.mapW * (my - mapLowRows P) + mx

/-- `Flags(n) = MEM[FLAGS_BASE + n]` (R187). -/
def spriteFlags (P : Params) (m : Mem) (n : Byte) : Byte := m.byte (P.flagsBase + n.toNat)

/-- The pixels of map cell (mx, my) drawn at logical (dx, dy), if its sprite passes the layer filter
(R186). -/
def mapCell (P : Params) (m : Mem) (layer : Byte) (mx my : Nat) (dx dy : Int) : List Pixel :=
  let n := m.byte (mapAddr P mx my)
  if layer = 0 ∨ spriteFlags P m n &&& layer ≠ 0 then
    blit P m (spriteBlit P n.toNat dx dy P.spritePx P.spritePx false false)
  else []

/-- The pixels of a MAP command: the cells of the window that lie in the map, row by row (R186, R269). -/
def mapPixels (P : Params) (m : Mem) (celx cely sx sy celw celh : Int) (layer : Byte) : List Pixel :=
  (intRange (max 0 (-cely)) (min (celh - 1) (P.mapH - 1 - cely))).flatMap fun cy =>
    (intRange (max 0 (-celx)) (min (celw - 1) (P.mapW - 1 - celx))).flatMap fun cx =>
      mapCell P m layer (celx + cx).toNat (cely + cy).toNat (sx + P.spritePx * cx)
        (sy + P.spritePx * cy)

/-- A blit command writes its pixels (R181). -/
def blitAll (P : Params) (ps : List Pixel) (s : State nc nr xl) : Result nc nr xl := retire (s.setMem (drawPixels P s.mem ps))

/-- A size operand of SPR in pixels: floor(8w) (R184). -/
def spriteSize (P : Params) (w : BitVec xl) : Int := fdiv (s32 w * P.spritePx) (fixOne xl)

/-- SPR (R184). -/
def sprIn (P : Params) (ra : Reg) (f : VFlags) (s : State nc nr xl) : Result nc nr xl :=
  let n := s.vint ra 0
  blitAll P
    (if 0 ≤ n ∧ n < sheetSprites P then
      blit P s.mem (spriteBlit P n (s.vint ra 1) (s.vint ra 2) (spriteSize P (s.vop ra 3))
        (spriteSize P (s.vop ra 4)) f.fx f.fy)
    else []) s

/-- SSPR (R183). -/
def ssprIn (P : Params) (ra : Reg) (f : VFlags) (s : State nc nr xl) : Result nc nr xl :=
  blitAll P
    (blit P s.mem
      { sx := s.vint ra 0, sy := s.vint ra 1, sw := s.vint ra 2, sh := s.vint ra 3
        dx := s.vint ra 4, dy := s.vint ra 5, dw := s.vint ra 6, dh := s.vint ra 7, fx := f.fx, fy := f.fy }) s

/-- MAP (R186). -/
def mapIn (P : Params) (ra : Reg) (s : State nc nr xl) : Result nc nr xl :=
  blitAll P
    (mapPixels P s.mem (s.vint ra 0) (s.vint ra 1) (s.vint ra 2) (s.vint ra 3) (s.vint ra 4)
      (s.vint ra 5) (byteOf (s.vop ra 6))) s

/-- SPR of Z8B-1.0. -/
def execSpr (ra : Reg) (f : VFlags) (s : State nc nr xl) : Result nc nr xl := sprIn z8b ra f s

/-- SSPR of Z8B-1.0. -/
def execSspr (ra : Reg) (f : VFlags) (s : State nc nr xl) : Result nc nr xl := ssprIn z8b ra f s

/-- MAP of Z8B-1.0. -/
def execMap (ra : Reg) (s : State nc nr xl) : Result nc nr xl := mapIn z8b ra s

end Sys2Proof.Machine
end

