-- ==== Sys2Proof/Machine/Flags.lean ====
section
/-! DEFINITION. The block has no flags (R23): this file holds what stands in their place, the rule by
which each arithmetic operation narrows its exact result (R124 to R129). Nothing is recorded. -/

namespace Sys2Proof.Machine

variable {xl : Nat}

/-- ADD, SUB and MUL wrap: the exact integer modulo 2^XLEN (R8, R124 to R126). -/
def wrap (n : Int) : BitVec xl := BitVec.ofInt xl n

/-- DIV saturates by the operands' sign bits: 0x7FFFFFFF or 0x80000001, never 0x80000000 (R127). -/
def divSaturated (a b : BitVec xl) : BitVec xl := if a.msb = b.msb then wrap (maxWord xl) else wrap (-maxWord xl)

/-- Whether a quotient fits: |q| <= 0x7FFFFFFF (R127). -/
def quotientFits (xl : Nat) (q : Int) : Bool := decide (-maxWord xl ≤ q) && decide (q ≤ maxWord xl)

/-- `fxadd(a, b)` (R124, R129). -/
def fxadd (a b : BitVec xl) : BitVec xl := wrap (s32 a + s32 b)

/-- `fxsub(a, b)` (R125, R129). -/
def fxsub (a b : BitVec xl) : BitVec xl := wrap (s32 a - s32 b)

/-- `fxmul(a, b)`: the exact product divided by 65536 with floor, an arithmetic shift right by 16 (R126, R129). -/
def fxmul (a b : BitVec xl) : BitVec xl := wrap (fdiv (s32 a * s32 b) (fixOne xl))

/-- `fxdiv(a, b)`: the dividend when the divisor is 1.0 (R127, R129). -/
def fxdiv (a b : BitVec xl) : BitVec xl :=
  if b = wrap (fixOne xl) then a
  else if b = 0 then divSaturated a b
  else
    let q := tdiv (s32 a * fixOne xl) (s32 b)
    if quotientFits xl q then wrap q else divSaturated a b

end Sys2Proof.Machine
end

