-- ==== Sys2Proof/Machine/Fxu.lean ====
section
/-! DEFINITION. The fixed-point unit: LIH, LIL, MOV, ADD, SUB, MUL, DIV (R120 to R129). -/

namespace Sys2Proof.Machine

variable {nc nr xl : Nat}

/-- LIH: `x[rd] <- imm16 << 16` (R121).

DESIGN CHOICE (assumption 17), for an integer half of another length than the immediate's 16 bits: a shorter one takes
its low bits; a longer one has zeros above it (R99: no extension), so that 0xFFFF loads 65535.0 and not the
`sext_16(imm16)` of R121. -/
def execLih (rd : Reg) (imm : BitVec 16) (s : State nc nr xl) : Result nc nr xl :=
  writeBack rd (BitVec.ofNat xl (imm.toNat * fixOne xl)) s

/-- LIL: `x[rd] <- (x[rd][31:16] << 16) + imm16` (R122).

DESIGN CHOICE (assumption 17), for a fraction half of another length than the immediate's 16 bits: a shorter one takes
its low bits; a longer one has it in its lowest 16 bits with zeros above, so that the value is n + f / 2^(XLEN/2) and
not the n + f/65536 of R122. -/
def execLil (rd : Reg) (imm : BitVec 16) (s : State nc nr xl) : Result nc nr xl :=
  writeBack rd (BitVec.ofNat xl (upart (s.reg rd) * fixOne xl + imm.toNat % fixOne xl)) s

/-- MOV (R123). -/
def execMov (rd ra : Reg) (s : State nc nr xl) : Result nc nr xl := writeBack rd (s.reg ra) s

/-- ADD (R124). -/
def execAdd (rd ra rb : Reg) (s : State nc nr xl) : Result nc nr xl := writeBack rd (fxadd (s.reg ra) (s.reg rb)) s

/-- SUB (R125). -/
def execSub (rd ra rb : Reg) (s : State nc nr xl) : Result nc nr xl := writeBack rd (fxsub (s.reg ra) (s.reg rb)) s

/-- MUL (R126). -/
def execMul (rd ra rb : Reg) (s : State nc nr xl) : Result nc nr xl := writeBack rd (fxmul (s.reg ra) (s.reg rb)) s

/-- DIV (R127). -/
def execDiv (rd ra rb : Reg) (s : State nc nr xl) : Result nc nr xl := writeBack rd (fxdiv (s.reg ra) (s.reg rb)) s

end Sys2Proof.Machine
end

