-- ==== Sys2Proof/Machine/MemPort.lean ====
section
/-! DEFINITION. The memory port: PEEK, POKE, PEEK4, POKE4 (R140 to R145), each for any parameters, whose
MEM_SIZE and OOB_POLICY it follows (R61, R77), and then for those of Z8B-1.0. -/

namespace Sys2Proof.Machine

variable {nc nr xl : Nat}

/-- PEEK: `x[rd] <- MemRead(upart(x[ra]), 1) << 16` (R140). -/
def peekIn (P : Params) (rd ra : Reg) (s : State nc nr xl) : Result nc nr xl :=
  writeBack rd (BitVec.ofNat xl (s.load P (s.ea ra) 1 * fixOne xl)) s

/-- POKE: the byte stored is bits [23:16] of the value register (R141). -/
def pokeIn (P : Params) (ra rb : Reg) (s : State nc nr xl) : Result nc nr xl :=
  retire (s.store P (s.ea ra) 1 (byteOf (s.reg rb)).toNat)

/-- PEEK4: the four bytes become the 32 raw bits of the register (R142): four of them whatever XLEN is, with zeros
above bit 31 of a longer word and the high bits dropped from a shorter one (DESIGN CHOICE, assumption 17). -/
def peek4In (P : Params) (rd ra : Reg) (s : State nc nr xl) : Result nc nr xl :=
  writeBack rd (BitVec.ofNat xl (s.load P (s.ea ra) 4)) s

/-- POKE4: all 32 bits are stored, little-endian (R143): the low 32 of a longer word, zeros
above a shorter one (DESIGN CHOICE, assumption 17). -/
def poke4In (P : Params) (ra rb : Reg) (s : State nc nr xl) : Result nc nr xl :=
  retire (s.store P (s.ea ra) 4 (s.reg rb).toNat)

/-- PEEK of Z8B-1.0. -/
def execPeek (rd ra : Reg) (s : State nc nr xl) : Result nc nr xl := peekIn z8b rd ra s

/-- POKE of Z8B-1.0. -/
def execPoke (ra rb : Reg) (s : State nc nr xl) : Result nc nr xl := pokeIn z8b ra rb s

/-- PEEK4 of Z8B-1.0. -/
def execPeek4 (rd ra : Reg) (s : State nc nr xl) : Result nc nr xl := peek4In z8b rd ra s

/-- POKE4 of Z8B-1.0. -/
def execPoke4 (ra rb : Reg) (s : State nc nr xl) : Result nc nr xl := poke4In z8b ra rb s

end Sys2Proof.Machine
end

