-- ==== Sys2Proof/Machine/Pde.lean ====
section
/-! DEFINITION. The drawing primitives PSET, PGET, LINE, RECT, RECTFILL, CIRC, CIRCFILL (R156 to R165):
the screen positions each one plots, in the spec's order. Spans and filled areas visit only the
positions inside the effective clip rectangle, as R165 and R269 allow. Each command is given for any parameters
(R5) and then for those of Z8B-1.0. -/

namespace Sys2Proof.Machine

variable {nc nr xl : Nat}

/-- `HSpan(xa, xb, ys)`, intersected with the clip rectangle (R165). -/
def hspan (P : Params) (m : Mem) (xa xb ys : Int) : List (Int × Int) :=
  if clipY0 P m ≤ ys ∧ ys < clipY1 P m then
    (intRange (max xa (clipX0 P m)) (min xb (clipX1 P m - 1))).map fun x => (x, ys)
  else []

/-- `VSpan(xs, ya, yb)`, intersected with the clip rectangle (R165). -/
def vspan (P : Params) (m : Mem) (xs ya yb : Int) : List (Int × Int) :=
  if clipX0 P m ≤ xs ∧ xs < clipX1 P m then
    (intRange (max ya (clipY0 P m)) (min yb (clipY1 P m - 1))).map fun y => (xs, y)
  else []

/-- The stepping loop of rule R158 from (x, y) with error term err; the fuel is never used up
(at most dx + dy + 1 plots). -/
def lineLoop (x1 y1 dx dy sx sy : Int) : Nat → Int → Int → Int → List (Int × Int)
  | 0, _, _, _ => []
  | fuel + 1, x, y, err =>
    (x, y) ::
      if x = x1 ∧ y = y1 then []
      else
        let stepX := decide (2 * err > -dy)
        let stepY := decide (2 * err < dx)
        lineLoop x1 y1 dx dy sx sy fuel
          (if stepX then x + sx else x)
          (if stepY then y + sy else y)
          (err - (if stepX then dy else 0) + (if stepY then dx else 0))

/-- The screen positions of a line from (x0, y0) to (x1, y1) (R158). -/
def linePoints (P : Params) (m : Mem) (x0 y0 x1 y1 : Int) : List (Int × Int) :=
  if y0 = y1 then hspan P m (min x0 x1) (max x0 x1) y0
  else if x0 = x1 then vspan P m x0 (min y0 y1) (max y0 y1)
  else
    let dx := iabs (x1 - x0)
    let dy := iabs (y1 - y0)
    lineLoop x1 y1 dx dy (if x1 > x0 then 1 else -1) (if y1 > y0 then 1 else -1)
      (dx + dy + 1).toNat x0 y0 (dx - dy)

/-- The border of the rectangle with the given corners (R159). -/
def rectPoints (P : Params) (m : Mem) (xa ya xb yb : Int) : List (Int × Int) :=
  let x0 := min xa xb
  let x1 := max xa xb
  let y0 := min ya yb
  let y1 := max ya yb
  hspan P m x0 x1 y0 ++ hspan P m x0 x1 y1 ++ vspan P m x0 y0 y1 ++ vspan P m x1 y0 y1

/-- The whole rectangle with the given corners, row by row (R160). -/
def rectfillPoints (P : Params) (m : Mem) (xa ya xb yb : Int) : List (Int × Int) :=
  (intRange (max (min ya yb) (clipY0 P m)) (min (max ya yb) (clipY1 P m - 1))).flatMap fun y =>
    hspan P m (min xa xb) (max xa xb) y

/-- The midpoint stepping loop of rule R163; the fuel is never used up (dy grows by 1 and stays at most
dx, which never grows). -/
def midpointLoop : Nat → Int → Int → Int → List (Int × Int)
  | 0, _, _, _ => []
  | fuel + 1, dx, dy, err =>
    if dx ≥ dy then
      (dx, dy) ::
        if err < 0 then midpointLoop fuel dx (dy + 1) (err + 2 * (dy + 1) + 1)
        else midpointLoop fuel (dx - 1) (dy + 1) (err + 2 * ((dy + 1) - (dx - 1)) + 1)
    else []

/-- The pairs (dx, dy) of rule R163 for a radius; a negative radius gives none (R161, R162). -/
def midpointPairs (r : Int) : List (Int × Int) :=
  if 0 ≤ r then midpointLoop (r + 1).toNat r 0 (1 - r) else []

/-- The eight plots of one pair (R161). -/
def circOctants (cx cy dx dy : Int) : List (Int × Int) :=
  [(cx + dx, cy + dy), (cx + dy, cy + dx), (cx - dy, cy + dx), (cx - dx, cy + dy)] ++
  [(cx - dx, cy - dy), (cx - dy, cy - dx), (cx + dy, cy - dx), (cx + dx, cy - dy)]

/-- The positions of a circle (R161). -/
def circPoints (cx cy r : Int) : List (Int × Int) :=
  (midpointPairs r).flatMap fun p => circOctants cx cy p.1 p.2

/-- The four spans of one pair (R162). -/
def circSpans (P : Params) (m : Mem) (cx cy dx dy : Int) : List (Int × Int) :=
  hspan P m (cx - dx) (cx + dx) (cy + dy) ++ hspan P m (cx - dx) (cx + dx) (cy - dy) ++
  hspan P m (cx - dy) (cx + dy) (cy + dx) ++ hspan P m (cx - dy) (cx + dy) (cy - dx)

/-- The positions of a filled circle (R162). -/
def circfillPoints (P : Params) (m : Mem) (cx cy r : Int) : List (Int × Int) :=
  (midpointPairs r).flatMap fun p => circSpans P m cx cy p.1 p.2

/-- PSET (R156). -/
def psetIn (P : Params) (ra : Reg) (f : VFlags) (s : State nc nr xl) : Result nc nr xl :=
  let m := resolveColour P f.c (s.vop ra 2) s.mem
  plotAll P m [(s.screenX P m ra 0, s.screenY P m ra 1)] s

/-- PGET: the raw nibble inside the effective clip rectangle, 0 outside (R157). -/
def pgetIn (P : Params) (rd ra : Reg) (s : State nc nr xl) : Result nc nr xl :=
  let xs := s.screenX P s.mem ra 0
  let ys := s.screenY P s.mem ra 1
  writeBack rd (if inClip P s.mem xs ys then fx (getPix P s.mem xs.toNat ys.toNat).toNat else 0) s

/-- LINE (R158). -/
def lineIn (P : Params) (ra : Reg) (f : VFlags) (s : State nc nr xl) : Result nc nr xl :=
  let m := resolveColour P f.c (s.vop ra 4) s.mem
  plotAll P m (linePoints P m (s.screenX P m ra 0) (s.screenY P m ra 1) (s.screenX P m ra 2) (s.screenY P m ra 3)) s

/-- RECT (R159). -/
def rectIn (P : Params) (ra : Reg) (f : VFlags) (s : State nc nr xl) : Result nc nr xl :=
  let m := resolveColour P f.c (s.vop ra 4) s.mem
  plotAll P m (rectPoints P m (s.screenX P m ra 0) (s.screenY P m ra 1) (s.screenX P m ra 2) (s.screenY P m ra 3)) s

/-- RECTFILL (R160). -/
def rectfillIn (P : Params) (ra : Reg) (f : VFlags) (s : State nc nr xl) : Result nc nr xl :=
  let m := resolveColour P f.c (s.vop ra 4) s.mem
  plotAll P m (rectfillPoints P m (s.screenX P m ra 0) (s.screenY P m ra 1) (s.screenX P m ra 2) (s.screenY P m ra 3)) s

/-- CIRC (R161). -/
def circIn (P : Params) (ra : Reg) (f : VFlags) (s : State nc nr xl) : Result nc nr xl :=
  let m := resolveColour P f.c (s.vop ra 3) s.mem
  plotAll P m (circPoints (s.screenX P m ra 0) (s.screenY P m ra 1) (s.vint ra 2)) s

/-- CIRCFILL (R162). -/
def circfillIn (P : Params) (ra : Reg) (f : VFlags) (s : State nc nr xl) : Result nc nr xl :=
  let m := resolveColour P f.c (s.vop ra 3) s.mem
  plotAll P m (circfillPoints P m (s.screenX P m ra 0) (s.screenY P m ra 1) (s.vint ra 2)) s

/-- PSET of Z8B-1.0. -/
def execPset (ra : Reg) (f : VFlags) (s : State nc nr xl) : Result nc nr xl := psetIn z8b ra f s

/-- PGET of Z8B-1.0. -/
def execPget (rd ra : Reg) (s : State nc nr xl) : Result nc nr xl := pgetIn z8b rd ra s

/-- LINE of Z8B-1.0. -/
def execLine (ra : Reg) (f : VFlags) (s : State nc nr xl) : Result nc nr xl := lineIn z8b ra f s

/-- RECT of Z8B-1.0. -/
def execRect (ra : Reg) (f : VFlags) (s : State nc nr xl) : Result nc nr xl := rectIn z8b ra f s

/-- RECTFILL of Z8B-1.0. -/
def execRectfill (ra : Reg) (f : VFlags) (s : State nc nr xl) : Result nc nr xl := rectfillIn z8b ra f s

/-- CIRC of Z8B-1.0. -/
def execCirc (ra : Reg) (f : VFlags) (s : State nc nr xl) : Result nc nr xl := circIn z8b ra f s

/-- CIRCFILL of Z8B-1.0. -/
def execCircfill (ra : Reg) (f : VFlags) (s : State nc nr xl) : Result nc nr xl := circfillIn z8b ra f s

end Sys2Proof.Machine
end

