-- ==== Sys2Proof/Machine/System.lean ====
section
/-! DEFINITION. The sequencer commands NOP and END (R230, R231). -/

namespace Sys2Proof.Machine

variable {nc nr xl : Nat}

/-- NOP (R230). -/
def execNop (s : State nc nr xl) : Result nc nr xl := retire s

/-- END: `SEQ <- DONE; pc <- pc + 1` (R231). -/
def execEnd (s : State nc nr xl) : Result nc nr xl := retire { s with seq := .done }

end Sys2Proof.Machine
end

