-- ==== Sys2Proof/Machine/Dispatch.lean ====
section
/-! DEFINITION. One arm per command: the meaning each one calls. -/

namespace Sys2Proof.Machine

/-- The effect of one decoded command (R232). -/
def exec (i : Instr) (s : State) : Host.Outcome State Fault Refusal :=
  match i with
  | .nop => Sys2Proof.Machine.execNop s
  | .endCmd => Sys2Proof.Machine.execEnd s
  | .lih rd imm => Sys2Proof.Machine.execLih rd imm s
  | .lil rd imm => Sys2Proof.Machine.execLil rd imm s
  | .mov rd ra => Sys2Proof.Machine.execMov rd ra s
  | .add rd ra rb => Sys2Proof.Machine.execAdd rd ra rb s
  | .sub rd ra rb => Sys2Proof.Machine.execSub rd ra rb s
  | .mul rd ra rb => Sys2Proof.Machine.execMul rd ra rb s
  | .div rd ra rb => Sys2Proof.Machine.execDiv rd ra rb s
  | .peek rd ra => Sys2Proof.Machine.execPeek rd ra s
  | .poke ra rb => Sys2Proof.Machine.execPoke ra rb s
  | .peek4 rd ra => Sys2Proof.Machine.execPeek4 rd ra s
  | .poke4 ra rb => Sys2Proof.Machine.execPoke4 ra rb s
  | .pset ra f => Sys2Proof.Machine.execPset ra f s
  | .pget rd ra => Sys2Proof.Machine.execPget rd ra s
  | .line ra f => Sys2Proof.Machine.execLine ra f s
  | .rect ra f => Sys2Proof.Machine.execRect ra f s
  | .rectfill ra f => Sys2Proof.Machine.execRectfill ra f s
  | .circ ra f => Sys2Proof.Machine.execCirc ra f s
  | .circfill ra f => Sys2Proof.Machine.execCircfill ra f s
  | .spr ra f => Sys2Proof.Machine.execSpr ra f s
  | .sspr ra f => Sys2Proof.Machine.execSspr ra f s
  | .map ra _ => Sys2Proof.Machine.execMap ra s
  | .sfx ra _ => Sys2Proof.Machine.execSfx ra s

end Sys2Proof.Machine
end

