-- ==== Sys2Proof/Machine/Configured.lean ====
section
/-! DEFINITION. The commands under any parameters (R5). -/

namespace Sys2Proof.Machine

variable {nc nr xl : Nat}

/-- The effect of one decoded command on a block with parameters P; `exec` is `execIn z8b`. -/
def execIn (P : Params) (i : Instr) (s : State nc nr xl) : Result nc nr xl :=
  match i with
  | .nop => execNop s
  | .endCmd => execEnd s
  | .lih rd imm => execLih rd imm s
  | .lil rd imm => execLil rd imm s
  | .mov rd ra => execMov rd ra s
  | .add rd ra rb => execAdd rd ra rb s
  | .sub rd ra rb => execSub rd ra rb s
  | .mul rd ra rb => execMul rd ra rb s
  | .div rd ra rb => execDiv rd ra rb s
  | .peek rd ra => peekIn P rd ra s
  | .poke ra rb => pokeIn P ra rb s
  | .peek4 rd ra => peek4In P rd ra s
  | .poke4 ra rb => poke4In P ra rb s
  | .pset ra f => psetIn P ra f s
  | .pget rd ra => pgetIn P rd ra s
  | .line ra f => lineIn P ra f s
  | .rect ra f => rectIn P ra f s
  | .rectfill ra f => rectfillIn P ra f s
  | .circ ra f => circIn P ra f s
  | .circfill ra f => circfillIn P ra f s
  | .spr ra f => sprIn P ra f s
  | .sspr ra f => ssprIn P ra f s
  | .map ra _ => mapIn P ra s
  | .sfx ra _ => sfxIn P ra s

end Sys2Proof.Machine
end

