-- ==== Sys2Proof/Machine/Sequencer.lean ====
section
/-! DEFINITION. The sequencer step (R232) and the choice of the agent that steps (R70). The steps are written over
a block's parameters (R5) and its commands' effects (`run`), so that the block of Z8B-1.0 and a block with
other parameters share them. -/

namespace Sys2Proof.Machine

variable {nc nr xl : Nat}

/-- `w = CMD[pc]`, when SEQ has a step; otherwise why it has none (R24, R232, R263). -/
def fetch (s : State nc nr xl) : Except Fault CmdWord :=
  match s.cmd with
  | none => .error .notLaunched
  | some list =>
    match s.seq with
    | .done => .error .seqDone
    | .fault => .error .seqFaulted
    | .run =>
      match list[s.pc]? with
      | some w => .ok w
      | none => .error .seqStuck

/-- A fetched word: decoded and executed, or the exception taken (R232). -/
def runWord (run : Instr → State nc nr xl → Result nc nr xl) (w : CmdWord) (s : State nc nr xl) : Result nc nr xl :=
  match decode w with
  | .ok i => run i s
  | .error _ => .next (raiseIllegalCommand w s)

/-- The step of SEQ (R232). -/
def seqStep (run : Instr → State nc nr xl → Result nc nr xl) (s : State nc nr xl) : Result nc nr xl :=
  match fetch s with
  | .ok w => runWord run w s
  | .error r => .fault r

/-- The agent whose turn it is, and the state with that turn taken off the schedule: with an empty
schedule it is SEQ's turn (R70, assumption 1). -/
def takeTurn (s : State nc nr xl) : Move nc × State nc nr xl :=
  match s.sched with
  | [] => (.seq, s)
  | mv :: rest => (mv, { s with sched := rest })

/-- The step of the agent that a move names, in a block with parameters P whose commands are `run` (R2, R70). -/
def perform (P : Params) (run : Instr → State nc nr xl → Result nc nr xl) (mv : Move nc) (s : State nc nr xl) : Result nc nr xl :=
  match mv with
  | .seq => seqStep run s
  | .aud ch => .next (tickIn P ch s)
  | .hostWrite a b => hostWrite P a b s
  | .hostReset image => hostReset P image s
  | .hostLaunch list => hostLaunch list s

/-- A command list with the word w at index pc, padded with NOP where it is shorter. -/
def placeWord (list : List CmdWord) (pc : Nat) (w : CmdWord) : List CmdWord :=
  list.take pc ++ List.replicate (pc - list.length) 0 ++ w :: list.drop (pc + 1)

end Sys2Proof.Machine
end

