-- ==== Sys2Proof/Machine/Step.lean ====
section
/-! DEFINITION. One step of the machine, and the placing of the word that the next step fetches. -/

namespace Sys2Proof.Machine

/-- One atomic step of the agent whose turn it is, in the block Z8B-1.0 (R70, R232). -/
def step (s : State) : Host.Outcome State Fault Refusal :=
  perform z8b exec (takeTurn s).1 (takeTurn s).2

/-- The step of a block with parameters P, of which NCHAN, NREG and XLEN give its state its shape (R5); `step` is
`stepIn z8b`. -/
def stepIn (P : Params) (s : State P.nChan P.nReg P.xlen) : Result P.nChan P.nReg P.xlen :=
  perform P (execIn P) (takeTurn s).1 (takeTurn s).2

/-- The state whose next step fetches and runs the table word w: the word stands at CMD[pc], a list is
launched, SEQ runs and it is SEQ's turn (R232, R263). -/
def State.withFetchWord (s : State) (nbits w : Nat) : State :=
  { s with
    cmd := some (placeWord (s.cmd.getD []) s.pc (BitVec.ofNat 32 (w % 2 ^ nbits)))
    seq := .run
    sched := .seq :: s.sched }

end Sys2Proof.Machine
end

