-- ==== Sys2Proof/Machine/HostView.lean ====
section
/-! DEFINITION. What the host reads of the block, as the numbers the spec gives (R24, R25, R37, R76, R252). A
read changes nothing, so it is no step. -/

namespace Sys2Proof.Machine

variable {nc nr xl : Nat}

/-- SEQ as the host reads it: RUN is encoded 0, DONE 1, FAULT 2 (R24). -/
def SeqStatus.code : SeqStatus → Nat
  | .run => 0
  | .done => 1
  | .fault => 2

/-- `sfx` as the host reads it: -1 when silent (R37). -/
def Channel.sfxCode (c : Channel xl) : Int :=
  match c.sfx with
  | none => -1
  | some n => n

/-- One entry of CH as the host reads it (R37, R252). -/
structure ChannelView (xl : Nat := delta% Config.xlen) where
  sfx : Int
  offset : BitVec xl
  phase : BitVec 32
  canLoop : BitVec 1
  prevKey : BitVec 6
  prevVol : BitVec xl
  deriving DecidableEq, Repr

/-- The host's reading of a channel (R37). -/
def Channel.view (c : Channel xl) : ChannelView xl :=
  { sfx := c.sfxCode, offset := c.offset, phase := c.phase, canLoop := BitVec.ofBool c.canLoop
    prevKey := c.prevKey, prevVol := c.prevVol }

/-- The host's registers view: all it may read beside MEM (R252). -/
structure HostView (nc : Nat := delta% Config.nChan) (nr : Nat := delta% Config.nReg) (xl : Nat := delta% Config.xlen) where
  x : Vector (BitVec xl) nr
  pc : Nat
  seq : Nat
  faultPc : Nat
  faultW : CmdWord
  ch : Vector (ChannelView xl) nc
  deriving DecidableEq, Repr

/-- What the host reads of a state (R76, R252). -/
def State.hostView (s : State nc nr xl) : HostView nc nr xl :=
  { x := s.x, pc := s.pc, seq := s.seq.code, faultPc := s.faultPc, faultW := s.faultW
    ch := ⟨(s.ch.toList.map Channel.view).toArray, by simp⟩ }

/-- The host's read of one byte of MEM: bounds-safe, nothing outside the image (R76, R252). -/
def State.hostRead (P : Params) (s : State nc nr xl) (a : Nat) : Option Byte :=
  if a < P.memSize then some (s.mem.byte a) else none

end Sys2Proof.Machine
end

