-- ==== Sys2Proof/Safety.lean ====
section
/-! DEFINITION. What the claims speak of: the parameters the rules are written for, the invariants of the state, the
conditions of a channel (R221) and the ways a run can end (R233). -/

namespace Sys2Proof.Machine

variable {nc nr xl : Nat}

/-- The parameters for which the rules are written (R5, assumption 9): there is a register, a word holds 1.0, every view
lies in the image (R67), the lower half of the sheet is the area shared with the map (R66, R180), the framebuffer overlaps
no view that the drawing commands read (R182, R269), and the envelope's numbers stay in their ranges (R38, R216). -/
structure Fits (P : Params) : Prop where
  xlen : 3 ≤ P.xlen
  nReg : 0 < P.nReg
  image : 0 < P.memSize
  drawState : P.drawBase + 0x40 ≤ P.memSize
  screen : P.screenBase + P.screenW / 2 * P.screenH ≤ P.memSize
  sheet : P.gfxBase + P.sheetW / 2 * P.sheetH ≤ P.memSize
  mapUpper : P.mapBase + P.mapW * (P.mapH / 2) ≤ P.memSize
  mapLower : P.map2Base + P.mapW * (P.mapH - P.mapH / 2) ≤ P.memSize
  shared : P.map2Base = P.gfxBase + P.sheetW / 2 * (P.sheetH / 2)
  flags : P.flagsBase + 0x100 ≤ P.memSize
  sfx : P.sfxBase + (2 * P.nNote + 4) * P.nSfx ≤ P.memSize
  evenRows : P.screenW % 2 = 0 ∧ P.sheetW % 2 = 0
  screenApart : ∀ base size, (base, size) ∈
      [(P.drawBase, 0x40), (P.gfxBase, P.sheetW / 2 * P.sheetH), (P.mapBase, P.mapW * (P.mapH / 2)),
        (P.map2Base, P.mapW * (P.mapH - P.mapH / 2)), (P.flagsBase, 0x100)] →
      base + size ≤ P.screenBase ∨ P.screenBase + P.screenW / 2 * P.screenH ≤ base
  notes : P.nNote * fixOne P.xlen ≤ 2 ^ P.xlen
  slew : 0 ≤ P.slew
  voltab : ∀ vol, 0 ≤ P.voltab vol ∧ P.voltab vol ≤ fixOne P.xlen

/-- The invariant of a channel (R38, R216): a playing channel's sound effect is below NSFX, its note below NNOTE and
its volume at most 1.0, a silent channel holds its stopped values. -/
def Channel.ok (P : Params) (c : Channel xl) : Bool :=
  match c.sfx with
  | none => decide (c = Channel.stopped)
  | some n => decide (n < P.nSfx) && decide (c.noteIndex < P.nNote) && decide (c.prevVol.toNat ≤ fixOne xl)

/-- The invariant of a block: MEM in canonical form, every channel as R38 says. -/
abbrev State.InvIn (P : Params) (s : State nc nr xl) : Prop :=
  s.mem.wf P.memSize = true ∧ ∀ k : Fin nc, (s.ch.get k).ok P = true

/-- The invariant of the machine, the block of Z8B-1.0. -/
abbrev State.Inv (s : State) : Prop := s.InvIn z8b

/-- The conditions of a channel (R221). -/
inductive Condition
  | silent
  | playing
  | released
  deriving DecidableEq, Repr

/-- The condition a channel is in, a function of its fields (R221). -/
def Channel.condition (c : Channel xl) : Condition :=
  if c.sfx = none then .silent else if c.canLoop then .playing else .released

/-- A run has ended normally (R233). -/
abbrev State.endedNormally (s : State nc nr xl) : Prop := s.seq = .done

/-- A run has ended by fault (R233). -/
abbrev State.endedByFault (s : State nc nr xl) : Prop := s.seq = .fault

/-- A launched list has run off its end without END (R232, R233). -/
abbrev State.stuck (s : State nc nr xl) : Prop := s.seq = .run ∧ ∃ list, s.cmd = some list ∧ list.length ≤ s.pc

/-- A step is safe when it exists or SEQ is at one of its rest conditions: the host made no move that
the spec does not have. -/
def Result.safe : Result nc nr xl → Bool
  | .next _ => true
  | .fault _ => true
  | .refused _ => false

end Sys2Proof.Machine
end

