-- ==== Sys2Proof/Certificates/Slice0/Obligations.lean ====
section
/-! DEFINITION. The statements for the provers. They are written from the numbered rules of spec/, with
addresses, constants and formulas spelled out as the rules print them. A premise `s.mem.wf` or `s.Inv`
is an invariant of the model, itself stated in `StepKeepsInvariant`. -/

namespace Sys2Proof.Claims

open Sys2Proof.Machine

variable {nc nr xl : Nat}

/-! ### What the statements share -/

/-- A register number as the four bits of its field (R91). -/
abbrev bits (r : Reg) : BitVec 4 := BitVec.ofFin r

/-- What no command but END and no fault touches: sequencer status, fault registers, command list, and
the model's own fields. -/
def KeepsControl (s t : State nc nr xl) : Prop :=
  t.seq = s.seq ∧ t.faultPc = s.faultPc ∧ t.faultW = s.faultW ∧ t.cmd = s.cmd ∧ t.sched = s.sched ∧
    t.noiseCount = s.noiseCount ∧ t.out = s.out

/-- FRAME of a command that writes register rd and nothing else (R120). -/
def RegFrame (rd : Reg) (s t : State nc) : Prop :=
  t.pc = s.pc + 1 ∧ (∀ r, r ≠ rd → t.reg r = s.reg r) ∧ t.mem = s.mem ∧
    (∀ a, t.mem.byte a = s.mem.byte a) ∧ t.ch = s.ch ∧ KeepsControl s t

/-- FRAME of a command that writes memory and nothing else; which bytes, the statement says. -/
def MemFrame (s t : State nc nr xl) : Prop :=
  t.pc = s.pc + 1 ∧ (∀ r, t.reg r = s.reg r) ∧ t.ch = s.ch ∧ KeepsControl s t

/-- Byte `DRAW_BASE + k` of the draw state (R28). -/
abbrev draw (m : Mem) (k : Nat) : Byte := m.byte (0x5f00 + k)

/-- The colour of a framebuffer pixel (R152). -/
abbrev pixel (m : Mem) (x y : Fin 128) : Nibble := getPix z8b m x.val y.val

/-- The clip test of R151 for a pixel of the screen. -/
def clipped (m : Mem) (x y : Fin 128) : Bool :=
  decide ((draw m 0x20).toNat ≤ x.val) && decide (x.val < (draw m 0x22).toNat) &&
    decide ((draw m 0x21).toNat ≤ y.val) && decide (y.val < (draw m 0x23).toNat)

/-- The colour that `Plot` writes at a screen pixel under pen byte `pen`, none where it writes nothing
(R154 with TRANSP_ON_PRIMITIVES = 0). -/
def primitiveColour (m : Mem) (pen : Byte) (x y : Fin 128) : Option Nibble :=
  if clipped m x y then
    if (draw m 0x32 ++ draw m 0x31 : BitVec 16).getLsbD (15 - (x.val % 4 + 4 * (y.val % 4))) then
      if (draw m 0x33).getLsbD 0 then none
      else some (BitVec.ofNat 4 (draw m (pen.toNat / 16)).toNat)
    else some (BitVec.ofNat 4 (draw m (pen.toNat % 16)).toNat)
  else none

/-- The colour that `PlotSprite` writes at a screen pixel for source colour col (R181). -/
def spriteColour (m : Mem) (x y : Fin 128) (col : Nat) : Option Nibble :=
  if clipped m x y && !(draw m col).getLsbD 4 then some (BitVec.ofNat 4 (draw m col).toNat) else none

/-- The sheet pixel (u, v), 0 outside the sheet (R180). -/
def sheetColour (m : Mem) (u v : Int) : Nat :=
  if 0 ≤ u ∧ u < 128 ∧ 0 ≤ v ∧ v < 128 then
    (m.byte (64 * v.toNat + u.toNat / 2)).toNat / 16 ^ (u.toNat % 2) % 16
  else 0

/-- The pen a drawing command draws with: its colour operand's bits [23:16] when C = 1, else PEN (R153). -/
def penAfter (m : Mem) (hasColour : Bool) (colour : Word) : Byte :=
  if hasColour then BitVec.ofNat 8 (colour.toNat / 65536) else draw m 0x25

/-- FRAME of a drawing command: outside the framebuffer only PEN, and that as said (R164). -/
def DrawFrame (pen : Byte) (s t : State nc nr xl) : Prop :=
  (∀ a, a < 0x6000 ∨ 0x8000 ≤ a → t.mem.byte a = if a = 0x5f25 then pen else s.mem.byte a) ∧ MemFrame s t

/-- A primitive that plots exactly the screen positions `covered`: every framebuffer pixel is the plotted
colour or unchanged (R154). -/
def Paints (pen : Byte) (covered : Int → Int → Prop) (s t : State) : Prop :=
  DrawFrame pen s t ∧
  ∀ x y : Fin 128,
    (covered x.val y.val → pixel t.mem x y = (primitiveColour s.mem pen x y).getD (pixel s.mem x y)) ∧
    (¬ covered x.val y.val → pixel t.mem x y = pixel s.mem x y)

/-- Operand i of a vector operand: x[(ra + i) mod 16] (R98). -/
abbrev operand (s : State) (ra : Reg) (i : Nat) : Word := s.x.get ⟨(ra.val + i) % 16, Nat.mod_lt _ (by decide)⟩

/-- Operand i as a coordinate, size, index or count: its value rounded toward minus infinity (R9, R103). -/
abbrev whole (s : State) (ra : Reg) (i : Nat) : Int := (operand s ra i).toInt / 65536

/-- Two bytes, the high one first, as a two's-complement integer: sext_16(hi : lo) (R8). -/
def signed16 (hi lo : Byte) : Int :=
  if hi.toNat < 128 then 256 * hi.toNat + lo.toNat else 256 * hi.toNat + lo.toNat - 65536

/-- CAM_X = sext_16(MEM[0x5f29] : MEM[0x5f28]) (R33). -/
abbrev cameraX (m : Mem) : Int := signed16 (m.byte 0x5f29) (m.byte 0x5f28)
/-- CAM_Y = sext_16(MEM[0x5f2b] : MEM[0x5f2a]) (R33). -/
abbrev cameraY (m : Mem) : Int := signed16 (m.byte 0x5f2b) (m.byte 0x5f2a)

/-- Screen x of operand i (R150). -/
abbrev sx (s : State) (ra : Reg) (i : Nat) : Int := whole s ra i - cameraX s.mem
/-- Screen y of operand i (R150). -/
abbrev sy (s : State) (ra : Reg) (i : Nat) : Int := whole s ra i - cameraY s.mem

/-- One turn of the loop of R158: (x, y, err). -/
def lineTurn (dx dy stepX stepY : Int) (q : Int × Int × Int) : Int × Int × Int :=
  let e2 := 2 * q.2.2
  (if e2 > -dy then q.1 + stepX else q.1, if e2 < dx then q.2.1 + stepY else q.2.1,
    q.2.2 + (if e2 > -dy then -dy else 0) + (if e2 < dx then dx else 0))

/-- (x, y, err) of R158 after k turns of its loop. -/
def lineAt (x0 y0 x1 y1 : Int) (k : Nat) : Int × Int × Int :=
  (lineTurn (abs (x1 - x0)) (abs (y1 - y0)) (if x1 > x0 then 1 else -1) (if y1 > y0 then 1 else -1))^[k]
    (x0, y0, abs (x1 - x0) - abs (y1 - y0))

/-- One turn of the stepping of R163: (dx, dy, err). -/
def midpointTurn (q : Int × Int × Int) : Int × Int × Int :=
  if q.2.2 < 0 then (q.1, q.2.1 + 1, q.2.2 + 2 * (q.2.1 + 1) + 1)
  else (q.1 - 1, q.2.1 + 1, q.2.2 + 2 * ((q.2.1 + 1) - (q.1 - 1)) + 1)

/-- (dx, dy, err) of R163 after k turns, for radius r. -/
def midpointAt (r : Int) (k : Nat) : Int × Int × Int := midpointTurn^[k] (r, 0, 1 - r)

/-- (dx, dy) is emitted by R163 for radius r. -/
def emitted (r dx dy : Int) : Prop :=
  0 ≤ r ∧ ∃ k, (midpointAt r k).1 = dx ∧ (midpointAt r k).2.1 = dy ∧ dy ≤ dx

/-- A blit of a source rectangle to a destination rectangle, both with a corner and a size (R182). -/
def Blits (s t : State) (sx sy sw sh dx dy dw dh : Int) (flipX flipY : Bool) : Prop :=
  DrawFrame (draw s.mem 0x25) s t ∧
  ∀ x y : Fin 128,
    let i := (x.val : Int) - (dx - cameraX s.mem)
    let j := (y.val : Int) - (dy - cameraY s.mem)
    let u := if flipX then sw - 1 - i * sw / dw else i * sw / dw
    let v := if flipY then sh - 1 - j * sh / dh else j * sh / dh
    pixel t.mem x y =
      if 0 < sw ∧ 0 < sh ∧ 0 ≤ i ∧ i < dw ∧ 0 ≤ j ∧ j < dh then
        (spriteColour s.mem x y (sheetColour s.mem (sx + u) (sy + v))).getD (pixel s.mem x y)
      else pixel s.mem x y

/-- The sample of waveform id at position t in the cycle, with p = P[22:7] and the noise draw (R207 to R214). -/
def waveform (id : BitVec 3) (t p draw : Int) : Int :=
  if id = 0 then (|4 * t - 131072| - 65536) / 2
  else if id = 1 then (if t < 58982 then 10 * t / 9 - 32768 else 10 * (65536 - t) - 32768)
  else if id = 2 then 42795 * (if t < 32768 then t else t - 65536) / 65536
  else if id = 3 then (if t < 32768 then 16384 else -16384)
  else if id = 4 then (if 3 * t < 65536 then 16384 else -16384)
  else if id = 5 then (if t < 32768 then 196608 - |24 * t - 393216| else 65536 - |16 * t - 786432|) / 9
  else if id = 6 then draw
  else (|4 * ((t + |2 * p - 65536| / 2) % 65536) - 131072| - |8 * t - 262144|) / 6

/-- PHASE_STEP, key 0 first, as R215 prints it. -/
def pitchTable : List Nat :=
  [194, 206, 218, 231, 245, 259, 275, 291, 309, 327, 346, 367, 389, 412, 436, 462] ++
  [490, 519, 550, 583, 617, 654, 693, 734, 778, 824, 873, 925, 980, 1038, 1100, 1165] ++
  [1234, 1308, 1386, 1468, 1555, 1648, 1746, 1849, 1959, 2076, 2199, 2330, 2469, 2615, 2771, 2936] ++
  [3110, 3295, 3491, 3699, 3919, 4152, 4399, 4660, 4937, 5231, 5542, 5872, 6221, 6591, 6983, 7398]

/-- A row of the opcode map (R100). -/
structure Row where
  mnemonic : String
  fixedBits : CmdWord
  mask : CmdWord

/-- The opcode map, as R100 prints it. -/
def opcodeMap : List Row :=
  [⟨"NOP", 0x00000000, 0xFFFFFFFF⟩, ⟨"END", 0x01000000, 0xFFFFFFFF⟩, ⟨"LIH", 0x08000000, 0xFF0F0000⟩,
   ⟨"LIL", 0x09000000, 0xFF0F0000⟩, ⟨"MOV", 0x0A000000, 0xFF00FFFF⟩, ⟨"ADD", 0x10000000, 0xFF000FFF⟩,
   ⟨"SUB", 0x11000000, 0xFF000FFF⟩, ⟨"MUL", 0x12000000, 0xFF000FFF⟩, ⟨"DIV", 0x13000000, 0xFF000FFF⟩,
   ⟨"PEEK", 0x20000000, 0xFF00FFFF⟩, ⟨"POKE", 0x21000000, 0xFFF00FFF⟩, ⟨"PEEK4", 0x22000000, 0xFF00FFFF⟩] ++
  [⟨"POKE4", 0x23000000, 0xFFF00FFF⟩, ⟨"PSET", 0x30000000, 0xFFF0FFFE⟩, ⟨"PGET", 0x31000000, 0xFF00FFFF⟩,
   ⟨"LINE", 0x32000000, 0xFFF0FFFE⟩, ⟨"RECT", 0x33000000, 0xFFF0FFFE⟩, ⟨"RECTFILL", 0x34000000, 0xFFF0FFFE⟩,
   ⟨"CIRC", 0x35000000, 0xFFF0FFFE⟩, ⟨"CIRCFILL", 0x36000000, 0xFFF0FFFE⟩, ⟨"SPR", 0x38000000, 0xFFF0FFF9⟩,
   ⟨"SSPR", 0x39000000, 0xFFF0FFF9⟩, ⟨"MAP", 0x3A000000, 0xFFF0FFFF⟩, ⟨"SFX", 0x40000000, 0xFFF0FFFF⟩]

/-- The mnemonic of a command (R100). -/
def mnemonic : Instr → String
  | .nop => "NOP" | .endCmd => "END" | .lih _ _ => "LIH" | .lil _ _ => "LIL" | .mov _ _ => "MOV"
  | .add _ _ _ => "ADD" | .sub _ _ _ => "SUB" | .mul _ _ _ => "MUL" | .div _ _ _ => "DIV"
  | .peek _ _ => "PEEK" | .poke _ _ => "POKE" | .peek4 _ _ => "PEEK4" | .poke4 _ _ => "POKE4"
  | .pset _ _ => "PSET" | .pget _ _ => "PGET" | .line _ _ => "LINE" | .rect _ _ => "RECT"
  | .rectfill _ _ => "RECTFILL" | .circ _ _ => "CIRC" | .circfill _ _ => "CIRCFILL"
  | .spr _ _ => "SPR" | .sspr _ _ => "SSPR" | .map _ _ => "MAP" | .sfx _ _ => "SFX"

/-- The register a command writes, if any (R21). -/
def dest : Instr → Option Reg
  | .lih rd _ | .lil rd _ | .mov rd _ | .add rd _ _ | .sub rd _ _ | .mul rd _ _ | .div rd _ _ => some rd
  | .peek rd _ | .peek4 rd _ | .pget rd _ => some rd
  | .nop | .endCmd | .poke _ _ | .poke4 _ _ | .pset _ _ | .line _ _ | .rect _ _ | .rectfill _ _ => none
  | .circ _ _ | .circfill _ _ | .spr _ _ | .sspr _ _ | .map _ _ | .sfx _ _ => none

/-- The commands that write MEM: POKE, POKE4 and the drawing commands but PGET (R27). -/
def storesMem : Instr → Bool
  | .poke _ _ | .poke4 _ _ | .pset _ _ | .line _ _ | .rect _ _ | .rectfill _ _ => true
  | .circ _ _ | .circfill _ _ | .spr _ _ | .sspr _ _ | .map _ _ => true
  | .nop | .endCmd | .lih _ _ | .lil _ _ | .mov _ _ | .add _ _ _ | .sub _ _ _ | .mul _ _ _ => false
  | .div _ _ _ | .peek _ _ | .peek4 _ _ | .pget _ _ | .sfx _ _ => false

/-- What the audio agents do not see and do not change: the part of the state a run is judged by (R267). -/
def SameBlock (s t : State nc nr xl) : Prop :=
  t.x = s.x ∧ t.pc = s.pc ∧ t.seq = s.seq ∧ t.faultPc = s.faultPc ∧ t.faultW = s.faultW ∧ t.mem = s.mem

/-- It is SEQ's turn in s, and s' is s with that turn taken: an empty schedule, or one that names SEQ
(the model's schedule, assumption 1). -/
def SeqTurn (s s' : State nc nr xl) : Prop :=
  (s.sched = [] ∧ s' = s) ∨ ∃ rest, s.sched = .seq :: rest ∧ s' = { s with sched := rest }

/-- CMD[pc] = w with SEQ = RUN: the word SEQ executes next (R232). -/
def Fetches (s : State nc nr xl) (w : CmdWord) : Prop :=
  ∃ list, s.cmd = some list ∧ list[s.pc]? = some w ∧ s.seq = .run

/-- What SFX with arguments (n, ch, off) does in a block with nSfx sound effects of nNote notes, 1.0 being the raw bits
`one` (R203): n = -1 stops channel ch, n = -2 releases it when it plays, a valid (n, off) starts it; any other
argument, and any other channel, is left as it is, and nothing else changes but pc. -/
def SfxActs (one nSfx nNote : Nat) (n ch off : Int) (s t : State nc nr xl) : Prop :=
  t.pc = s.pc + 1 ∧ t.x = s.x ∧ t.mem = s.mem ∧ KeepsControl s t ∧
    (∀ k : Fin nc, (k.val : Int) ≠ ch → t.ch.get k = s.ch.get k) ∧
    ∀ k : Fin nc, (k.val : Int) = ch →
      (n = -1 → t.ch.get k = ⟨none, 0, 0, true, 24, 0⟩) ∧
      (n = -2 → t.ch.get k =
        if (s.ch.get k).sfx = none then s.ch.get k else { s.ch.get k with canLoop := false }) ∧
      (∀ m : Nat, (m : Int) = n → m < nSfx → 0 ≤ off → off < nNote →
        t.ch.get k = ⟨some m, BitVec.ofInt xl (off * one), 0, true, 24, 0⟩) ∧
      ((n < -2 ∨ nSfx ≤ n ∨ (0 ≤ n ∧ (off < 0 ∨ nNote ≤ off))) → t.ch.get k = s.ch.get k)

/-- The 64 draw-state bytes after reset (R42). -/
def drawStateTable : List Byte :=
  [0x10, 1, 2, 3, 4, 5, 6, 7, 8, 9, 10, 11, 12, 13, 14, 15] ++ [0, 1, 2, 3, 4, 5, 6, 7, 8, 9, 10, 11, 12, 13, 14, 15] ++
  [0, 0, 0x80, 0x80, 0, 6, 0, 0, 0, 0, 0, 0, 0, 0, 0, 0] ++ [0, 0, 0, 0, 0, 0, 0, 0, 0, 0, 0, 0, 0, 0, 0, 0]

/-- The block after a reset with a host's image, given its MEM_SIZE and DRAW_BASE (R42, R261): every piece of state has
its value of the table, MEM the image with the draw-state bytes at their defaults. -/
def AfterReset (memSize drawBase : Nat) (image : List Host.Cell) (t : State nc nr xl) : Prop :=
  (∀ r : Fin nr, t.x.get r = 0) ∧ t.pc = 0 ∧ t.seq = .run ∧ t.seq.code = 0 ∧ t.faultPc = 0 ∧ t.faultW = 0 ∧
    (∀ k, t.ch.get k = ⟨none, 0, 0, true, 24, 0⟩) ∧ t.cmd = none ∧
    (∀ k, k < 0x40 → drawBase + k < memSize → drawStateTable[k]? = some (t.mem.byte (drawBase + k))) ∧
    (∀ a, a < memSize → (a < drawBase ∨ drawBase + 0x40 ≤ a) →
      t.mem.byte a = ((image.reverse.find? fun c => c.1 == a).map (·.2)).getD 0)

end Sys2Proof.Claims

open Sys2Proof Sys2Proof.Machine Sys2Proof.Claims

/-! ### Encoding -/

/-- O1. Words printed in section 2.1 of the test vectors decode as printed (R91 to R101). -/
def Obligations.PrintedWordsDecodeAsPrinted : Prop :=
  decode 0x00000000 = .ok .nop ∧ decode 0x01000000 = .ok .endCmd ∧ decode 0x08300007 = .ok (.lih 3 7) ∧
  decode 0x13312000 = .ok (.div 3 1 2) ∧ decode 0x21012000 = .ok (.poke 1 2) ∧
  decode 0x31800000 = .ok (.pget 8 0) ∧ decode 0x32040001 = .ok (.line 4 ⟨false, false, true⟩) ∧
  decode 0x38080002 = .ok (.spr 8 ⟨false, true, false⟩) ∧ decode 0x40040000 = .ok (.sfx 4 ⟨false, false, false⟩) ∧
  decode 0x10312800 = .error .reservedBits ∧ decode 0x37000000 = .error .unassignedOpcode

/-- O2. DECODE AND ENCODE AGREE for every command: a well-formed command is read back with every operand, an
ill-formed one (a flag its row does not allow) encodes to an illegal word (R91 to R97, R101). -/
def Obligations.DecodeOfEncode : Prop :=
  ∀ i : Instr, decode (encode i) = if i.wf then .ok i else .error .reservedBits

/-- O3. Every legal word is the encoding of the well-formed command it decodes to: no bit of a word is
dropped (R101). -/
def Obligations.EncodeOfDecode : Prop :=
  ∀ (w : CmdWord) (i : Instr), decode w = .ok i → i.wf = true ∧ encode i = w

/-- O4. THE OPCODE MAP (R100): a word whose masked bits match a row is that row's command, a word that matches
no row is illegal, and no word matches two rows. -/
def Obligations.OpcodeMapSelectsTheCommand : Prop :=
  (∀ row ∈ opcodeMap, ∀ w : CmdWord, w &&& row.mask = row.fixedBits → ∃ i, decode w = .ok i ∧ mnemonic i = row.mnemonic) ∧
  (∀ w : CmdWord, (∀ row ∈ opcodeMap, w &&& row.mask ≠ row.fixedBits) → ∃ e, decode w = .error e) ∧
  (∀ r ∈ opcodeMap, ∀ r' ∈ opcodeMap, ∀ w : CmdWord,
    w &&& r.mask = r.fixedBits → w &&& r'.mask = r'.fixedBits → r.mnemonic = r'.mnemonic)

/-! ### The sequencer and the fault -/

/-- O5. A STEP RUNS THE DECODED COMMAND: when it is SEQ's turn and CMD[pc] decodes to i, the step is exec of i
at that state, the turn taken off the schedule (R232); and the same of a block with other parameters, of which the
machine is the one with the values of Z8B-1.0 (R5). -/
def Obligations.StepRunsDecodedCommand : Prop :=
  (∀ (s s' : State) (w : CmdWord) (i : Instr), SeqTurn s s' → Fetches s w → decode w = .ok i →
    step s = exec i s') ∧
  (∀ (P : Params) (s s' : State P.nChan P.nReg P.xlen) (w : CmdWord) (i : Instr), SeqTurn s s' → Fetches s w → decode w = .ok i →
    stepIn P s = execIn P i s') ∧
  (∀ s : State, stepIn z8b s = step s) ∧ (∀ (i : Instr) (s : State), execIn z8b i s = exec i s)

/-- O6. FAULT ENTRY (R245): an illegal word leaves pc where it is, saves its index and bits, sets SEQ to FAULT
(encoded 2, R24) and changes nothing else. -/
def Obligations.IllegalWordTakesTheException : Prop :=
  ∀ (s s' : State) (w : CmdWord) (e : DecodeError), SeqTurn s s' → Fetches s w → decode w = .error e →
    ∃ t, step s = .next t ∧ t.faultPc = s.pc ∧ t.faultW = w ∧ t.seq = .fault ∧ t.seq.code = 2 ∧ t.pc = s.pc ∧ t.x = s.x ∧
      t.mem = s.mem ∧ t.ch = s.ch ∧ t.cmd = s.cmd ∧ t.sched = s'.sched ∧ t.noiseCount = s.noiseCount ∧ t.out = s.out

/-- O7. SEQ has a step exactly when a list is launched, SEQ = RUN and pc < NCMD (R232, R263), at SEQ's turn; the
rest conditions stop under names of the model's (assumptions 1, 5, 7). -/
def Obligations.SeqHasAStepExactlyWhenRunning : Prop :=
  ∀ s s' : State, SeqTurn s s' →
    ((∃ t, step s = .next t) ↔ s.seq = .run ∧ ∃ list, s.cmd = some list ∧ s.pc < list.length) ∧
    (s.cmd = none → step s = .fault .notLaunched) ∧
    ∀ list, s.cmd = some list →
      (s.seq = .done → step s = .fault .seqDone) ∧
      (s.seq = .fault → step s = .fault .seqFaulted) ∧
      (s.seq = .run → list.length ≤ s.pc → step s = .fault .seqStuck)

/-- O8. EVERY COMMAND COMPLETES (R22, R240): whatever the operands and the memory, a decoded command answers a
next state with pc one further, and leaves the fault registers, the command list, the schedule and the output
record alone. -/
def Obligations.EveryCommandCompletes : Prop :=
  ∀ (i : Instr) (s : State), ∃ t, exec i s = .next t ∧ t.pc = s.pc + 1 ∧ t.faultPc = s.faultPc ∧ t.faultW = s.faultW ∧
    t.cmd = s.cmd ∧ t.sched = s.sched ∧ t.noiseCount = s.noiseCount ∧ t.out = s.out

/-- O9. WHO WRITES WHAT, over all commands (R21, R24, R27, R37): a register changes only if it is the command's
rd, a byte of MEM only by POKE, POKE4 and the drawing commands, a channel only by SFX, and SEQ only by END. -/
def Obligations.CommandsWriteOnlyTheirOwnState : Prop :=
  ∀ (i : Instr) (s t : State), exec i s = .next t →
    (∀ r, t.reg r ≠ s.reg r → dest i = some r) ∧
    (storesMem i = false → t.mem = s.mem) ∧
    ((∀ ra f, i ≠ .sfx ra f) → t.ch = s.ch) ∧
    (t.seq = if i = .endCmd then .done else s.seq)

/-- O10. NOP and END (R230, R231): NOP changes pc alone, END also sets SEQ to DONE (encoded 1, R24). -/
def Obligations.NopAndEndEffects : Prop :=
  decode 0x00000000 = .ok .nop ∧ decode 0x01000000 = .ok .endCmd ∧
  ∀ s : State,
    (∃ t, exec .nop s = .next t ∧ t.seq = s.seq ∧ MemFrame s t ∧ t.mem = s.mem) ∧
    (∃ t, exec .endCmd s = .next t ∧ t.seq = .done ∧ t.seq.code = 1 ∧ t.pc = s.pc + 1 ∧ t.x = s.x ∧ t.mem = s.mem ∧ t.ch = s.ch ∧
      t.faultPc = s.faultPc ∧ t.faultW = s.faultW ∧ t.cmd = s.cmd ∧ t.sched = s.sched ∧
      t.noiseCount = s.noiseCount ∧ t.out = s.out)

/-- O11. Only a reset leaves DONE or FAULT (R24): any other step from them keeps SEQ, pc, the registers and the
fault registers. -/
def Obligations.OnlyResetLeavesDoneOrFault : Prop :=
  ∀ s t : State, step s = .next t → s.seq ≠ .run → (∀ image rest, s.sched ≠ .hostReset image :: rest) →
    t.seq = s.seq ∧ t.pc = s.pc ∧ t.x = s.x ∧ t.faultPc = s.faultPc ∧ t.faultW = s.faultW

/-- O12. EVERY COMMAND LIST TERMINATES (R233): with SEQ alone stepping, at most NCMD - pc steps lead to a state
in which SEQ has no step. -/
def Obligations.EveryCommandListTerminates : Prop :=
  ∀ (s : State) (list : List CmdWord), s.sched = [] → s.cmd = some list →
    ∃ (k : Nat) (t : State) (r : Fault), k ≤ list.length - s.pc ∧ Sys2Proof.core.run k s = .next t ∧ step t = .fault r

/-! ### Fixed-point unit -/

/-- O13. LIH (R121): the register becomes the fixed-point word of the integer sext_16(imm16). -/
def Obligations.LihLoadsIntegerHalf : Prop :=
  ∀ (rd : Reg) (imm : BitVec 16) (s : State),
    decode (0x08#8 ++ bits rd ++ 0#4 ++ imm) = .ok (.lih rd imm) ∧
    ∃ t, exec (.lih rd imm) s = .next t ∧ (t.reg rd).toNat = imm.toNat * 65536 ∧
      (t.reg rd).toInt = imm.toInt * 65536 ∧ RegFrame rd s t

/-- O14. LIL (R122): the integer half is kept, the fraction half is the immediate. -/
def Obligations.LilLoadsFractionHalf : Prop :=
  ∀ (rd : Reg) (imm : BitVec 16) (s : State),
    decode (0x09#8 ++ bits rd ++ 0#4 ++ imm) = .ok (.lil rd imm) ∧
    ∃ t, exec (.lil rd imm) s = .next t ∧
      (t.reg rd).toNat = (s.reg rd).toNat / 65536 * 65536 + imm.toNat ∧ RegFrame rd s t

/-- O15. MOV (R123). -/
def Obligations.MovCopiesARegister : Prop :=
  ∀ (rd ra : Reg) (s : State),
    decode (0x0A#8 ++ bits rd ++ bits ra ++ 0#16) = .ok (.mov rd ra) ∧
    ∃ t, exec (.mov rd ra) s = .next t ∧ t.reg rd = s.reg ra ∧ RegFrame rd s t

/-- O16. ADD (R124): the sum modulo 2^32, exact when it is in range. -/
def Obligations.AddWraps : Prop :=
  ∀ (rd ra rb : Reg) (s : State),
    decode (0x10#8 ++ bits rd ++ bits ra ++ bits rb ++ 0#12) = .ok (.add rd ra rb) ∧
    ∃ t, exec (.add rd ra rb) s = .next t ∧
      (t.reg rd).toNat = ((s.reg ra).toNat + (s.reg rb).toNat) % 2 ^ 32 ∧
      (-2 ^ 31 ≤ (s.reg ra).toInt + (s.reg rb).toInt → (s.reg ra).toInt + (s.reg rb).toInt < 2 ^ 31 →
        (t.reg rd).toInt = (s.reg ra).toInt + (s.reg rb).toInt) ∧
      RegFrame rd s t

/-- O17. SUB (R125): the difference modulo 2^32. -/
def Obligations.SubWraps : Prop :=
  ∀ (rd ra rb : Reg) (s : State),
    decode (0x11#8 ++ bits rd ++ bits ra ++ bits rb ++ 0#12) = .ok (.sub rd ra rb) ∧
    ∃ t, exec (.sub rd ra rb) s = .next t ∧
      ((t.reg rd).toNat : Int) = ((s.reg ra).toNat - (s.reg rb).toNat : Int) % 2 ^ 32 ∧ RegFrame rd s t

/-- O18. MUL (R126): bits [47:16] of the 64-bit two's-complement product. -/
def Obligations.MulTakesMiddleBitsOfProduct : Prop :=
  ∀ (rd ra rb : Reg) (s : State),
    decode (0x12#8 ++ bits rd ++ bits ra ++ bits rb ++ 0#12) = .ok (.mul rd ra rb) ∧
    ∃ t, exec (.mul rd ra rb) s = .next t ∧
      t.reg rd = ((s.reg ra).signExtend 64 * (s.reg rb).signExtend 64).extractLsb' 16 32 ∧ RegFrame rd s t

/-- O19. DIV (R127): the dividend when the divisor is 1.0; else the quotient truncated toward zero when the
divisor is not 0 and it fits; else the saturation value by the signs. -/
def Obligations.DivTruncatesAndSaturates : Prop :=
  ∀ (rd ra rb : Reg) (s : State),
    decode (0x13#8 ++ bits rd ++ bits ra ++ bits rb ++ 0#12) = .ok (.div rd ra rb) ∧
    ∃ t, exec (.div rd ra rb) s = .next t ∧ RegFrame rd s t ∧
      let a := s.reg ra
      let b := s.reg rb
      let q := Int.tdiv (a.toInt * 65536) b.toInt
      (b = 0x00010000 → t.reg rd = a) ∧
      (b ≠ 0x00010000 → b ≠ 0 → |q| ≤ 0x7FFFFFFF → (t.reg rd).toInt = q) ∧
      (b ≠ 0x00010000 → (b = 0 ∨ 0x7FFFFFFF < |q|) →
        t.reg rd = if a.getLsbD 31 = b.getLsbD 31 then 0x7FFFFFFF else 0x80000001)

/-- O20. The identities of R128. -/
def Obligations.ArithmeticIdentities : Prop :=
  ∀ a b : Word,
    fxmul a 0x00010000 = a ∧ fxdiv a 0x00010000 = a ∧ fxadd a b = fxadd b a ∧ fxmul a b = fxmul b a ∧
    fxsub (fxadd a b) b = a ∧ fxadd a 0 = a ∧ fxsub a 0 = a ∧ fxmul a 0 = 0 ∧ (b ≠ 0 → fxdiv 0 b = 0) ∧
    fxdiv a 0 = (if 0 ≤ a.toInt then 0x7FFFFFFF else 0x80000001)

/-- O21. DIV at every sign combination (R128): negating either operand negates the quotient when nothing
saturates. -/
def Obligations.DivIsOddInBothOperands : Prop :=
  ∀ a a' b b' : Word, b ≠ 0 → a'.toInt = -a.toInt → b'.toInt = -b.toInt →
    |Int.tdiv (a.toInt * 65536) b.toInt| ≤ 0x7FFFFFFF →
    (fxdiv a' b).toInt = -(fxdiv a b).toInt ∧ (fxdiv a b').toInt = -(fxdiv a b).toInt

/-! ### Memory port -/

/-- O22. PEEK (R140, R144, R61): the byte at the unsigned integer half of x[ra], as a fixed-point integer; 0
when that address is outside the image. -/
def Obligations.PeekReadsAByte : Prop :=
  ∀ (rd ra : Reg) (s : State),
    decode (0x20#8 ++ bits rd ++ bits ra ++ 0#16) = .ok (.peek rd ra) ∧
    ∃ t, exec (.peek rd ra) s = .next t ∧
      (t.reg rd).toNat =
        (if (s.reg ra).toNat / 65536 < 0x8000 then (s.mem.byte ((s.reg ra).toNat / 65536)).toNat * 65536 else 0) ∧
      RegFrame rd s t

/-- O23. POKE (R141, R144, R61): the byte at the address becomes bits [23:16] of x[rb]; outside the image nothing
is written; every other byte stays. -/
def Obligations.PokeStoresAByte : Prop :=
  ∀ (ra rb : Reg) (s : State), s.mem.wf 0x8000 = true →
    decode (0x21#8 ++ 0#4 ++ bits ra ++ bits rb ++ 0#12) = .ok (.poke ra rb) ∧
    ∃ t, exec (.poke ra rb) s = .next t ∧ MemFrame s t ∧
      ∀ a, t.mem.byte a =
        if a = (s.reg ra).toNat / 65536 ∧ a < 0x8000 then (s.reg rb).extractLsb' 16 8 else s.mem.byte a

/-- O24. PEEK4 (R142, R62): four bytes, the lowest address in bits [7:0], each address tested on its own. -/
def Obligations.Peek4ReadsFourBytes : Prop :=
  ∀ (rd ra : Reg) (s : State),
    decode (0x22#8 ++ bits rd ++ bits ra ++ 0#16) = .ok (.peek4 rd ra) ∧
    ∃ t, exec (.peek4 rd ra) s = .next t ∧ RegFrame rd s t ∧
      ∀ i : Fin 4, (t.reg rd).extractLsb' (8 * i.val) 8 =
        if (s.reg ra).toNat / 65536 + i.val < 0x8000 then s.mem.byte ((s.reg ra).toNat / 65536 + i.val) else 0

/-- O25. POKE4 (R143, R62): the four bytes of x[rb], little-endian, each address tested on its own and none
wrapping; every other byte stays. -/
def Obligations.Poke4StoresFourBytes : Prop :=
  ∀ (ra rb : Reg) (s : State), s.mem.wf 0x8000 = true →
    decode (0x23#8 ++ 0#4 ++ bits ra ++ bits rb ++ 0#12) = .ok (.poke4 ra rb) ∧
    ∃ t, exec (.poke4 ra rb) s = .next t ∧ MemFrame s t ∧
      ∀ a, t.mem.byte a =
        if (s.reg ra).toNat / 65536 ≤ a ∧ a < (s.reg ra).toNat / 65536 + 4 ∧ a < 0x8000 then
          (s.reg rb).extractLsb' (8 * (a - (s.reg ra).toNat / 65536)) 8
        else s.mem.byte a

/-- O26. ROUND TRIP (R145): what POKE and POKE4 store in range, PEEK and PEEK4 return; out of range the stores
change no byte and the loads return 0. -/
def Obligations.PokePeekRoundTrip : Prop :=
  ∀ (ra rb rd : Reg) (s t u : State), s.mem.wf 0x8000 = true →
    let ea := (s.reg ra).toNat / 65536
    (exec (.poke ra rb) s = .next t → exec (.peek rd ra) t = .next u →
      (ea < 0x8000 → (u.reg rd).toNat = (s.reg rb).toNat / 65536 % 256 * 65536) ∧
      (0x8000 ≤ ea → (∀ a, t.mem.byte a = s.mem.byte a) ∧ u.reg rd = 0)) ∧
    (exec (.poke4 ra rb) s = .next t → exec (.peek4 rd ra) t = .next u →
      (ea + 4 ≤ 0x8000 → u.reg rd = s.reg rb) ∧
      (0x8000 ≤ ea → (∀ a, t.mem.byte a = s.mem.byte a) ∧ u.reg rd = 0))

/-- O27. The two out-of-range policies (R61, R77), byte by byte, in an image of any MEM_SIZE (R5): `ignore` reads 0
and drops writes, `clamp` goes to the last byte; every other byte stays. And the memory port of a block with either
(R140 to R144), each byte of a PEEK4 or POKE4 on its own: that it takes MEM_SIZE and the policy from the block's
parameters is the model's reading (assumption 9). -/
def Obligations.OutOfRangePolicies : Prop :=
  (∀ (P : Params) (m : Mem) (a : Nat) (b : Byte), m.wf P.memSize = true →
    (P.oobPolicy = .ignore →
      readByte P m a = (if a < P.memSize then m.byte a else 0) ∧
      ∀ a', (writeByte P m a b).byte a' = if a' = a ∧ a < P.memSize then b else m.byte a') ∧
    (P.oobPolicy = .clamp →
      readByte P m a = m.byte (min a (P.memSize - 1)) ∧
      ∀ a', (writeByte P m a b).byte a' = if a' = min a (P.memSize - 1) then b else m.byte a')) ∧
  ∀ (P : Params) (nc : Nat) (ra rb rd : Reg) (s : State nc), 0 < P.memSize → s.mem.wf P.memSize = true →
    let ea := (s.reg ra).toNat / 65536
    let last := P.memSize - 1
    (P.oobPolicy = .ignore →
      (∃ t, execIn P (.peek rd ra) s = .next t ∧ RegFrame rd s t ∧
        (t.reg rd).toNat = if ea < P.memSize then (s.mem.byte ea).toNat * 65536 else 0) ∧
      (∃ t, execIn P (.poke ra rb) s = .next t ∧ MemFrame s t ∧
        ∀ a, t.mem.byte a = if a = ea ∧ a < P.memSize then (s.reg rb).extractLsb' 16 8 else s.mem.byte a) ∧
      (∃ t, execIn P (.peek4 rd ra) s = .next t ∧ RegFrame rd s t ∧
        ∀ i : Fin 4, (t.reg rd).extractLsb' (8 * i.val) 8 =
          if ea + i.val < P.memSize then s.mem.byte (ea + i.val) else 0) ∧
      ∃ t, execIn P (.poke4 ra rb) s = .next t ∧ MemFrame s t ∧
        ∀ a, t.mem.byte a =
          if ea ≤ a ∧ a < ea + 4 ∧ a < P.memSize then (s.reg rb).extractLsb' (8 * (a - ea)) 8 else s.mem.byte a) ∧
    (P.oobPolicy = .clamp →
      (∃ t, execIn P (.peek rd ra) s = .next t ∧ RegFrame rd s t ∧
        (t.reg rd).toNat = (s.mem.byte (min ea last)).toNat * 65536) ∧
      (∃ t, execIn P (.poke ra rb) s = .next t ∧ MemFrame s t ∧
        ∀ a, t.mem.byte a = if a = min ea last then (s.reg rb).extractLsb' 16 8 else s.mem.byte a) ∧
      (∃ t, execIn P (.peek4 rd ra) s = .next t ∧ RegFrame rd s t ∧
        ∀ i : Fin 4, (t.reg rd).extractLsb' (8 * i.val) 8 = s.mem.byte (min (ea + i.val) last)) ∧
      ∃ t, execIn P (.poke4 ra rb) s = .next t ∧ MemFrame s t ∧
        ∀ a, t.mem.byte a =
          if a < last then if ea ≤ a ∧ a < ea + 4 then (s.reg rb).extractLsb' (8 * (a - ea)) 8 else s.mem.byte a
          else if a = last ∧ last ≤ ea + 3 then (s.reg rb).extractLsb' 24 8 else s.mem.byte a)

/-- O28. Equal memories are equal data: two canonical images of one size that read alike are the same list. -/
def Obligations.CanonicalMemoriesAreEqualData : Prop :=
  ∀ (size : Nat) (m m' : Mem), m.wf size = true → m'.wf size = true → (∀ a, a < size → m.byte a = m'.byte a) → m = m'

/-! ### Pixel drawing engine -/

/-- O29. Framebuffer addressing (R152): GetPix is the low nibble for even x, the high for odd x, of the byte at
0x6000 + 64*y + x/2; SetPix replaces that nibble, and every other pixel and every other byte stays. -/
def Obligations.SetPixReplacesOneNibble : Prop :=
  ∀ (m : Mem) (x y : Fin 128) (c : Nibble), m.wf 0x8000 = true →
    let m' := setPix z8b m ⟨x.val, y.val, c⟩
    (pixel m x y).toNat = (m.byte (0x6000 + 64 * y.val + x.val / 2)).toNat / 16 ^ (x.val % 2) % 16 ∧
    pixel m' x y = c ∧
    (∀ u v : Fin 128, (u, v) ≠ (x, y) → pixel m' u v = pixel m u v) ∧
    (∀ a, a ≠ 0x6000 + 64 * y.val + x.val / 2 → m'.byte a = m.byte a)

/-- O30. PSET (R156): one position is plotted, PEN is updated when C = 1 even if nothing is drawn. -/
def Obligations.PsetPlotsOnePosition : Prop :=
  ∀ (ra : Reg) (f : VFlags) (s : State), s.mem.wf 0x8000 = true →
    decode (0x30#8 ++ 0#4 ++ bits ra ++ 0#15 ++ BitVec.ofBool f.c) = .ok (.pset ra ⟨false, false, f.c⟩) ∧
    ∃ t, exec (.pset ra f) s = .next t ∧
      Paints (penAfter s.mem f.c (operand s ra 2)) (fun x y => x = sx s ra 0 ∧ y = sy s ra 1) s t

/-- O31. PGET (R157): the raw nibble of a position inside the effective clip rectangle, 0 for any other. -/
def Obligations.PgetReadsAPixel : Prop :=
  ∀ (rd ra : Reg) (s : State),
    decode (0x31#8 ++ bits rd ++ bits ra ++ 0#16) = .ok (.pget rd ra) ∧
    ∃ t, exec (.pget rd ra) s = .next t ∧ RegFrame rd s t ∧
      (∀ x y : Fin 128, (x.val : Int) = sx s ra 0 → (y.val : Int) = sy s ra 1 →
        (t.reg rd).toNat = if clipped s.mem x y then (pixel s.mem x y).toNat * 65536 else 0) ∧
      ((sx s ra 0 < 0 ∨ 128 ≤ sx s ra 0 ∨ sy s ra 1 < 0 ∨ 128 ≤ sy s ra 1) → t.reg rd = 0)

/-- O32. LINE (R158): a span when a coordinate is shared, else the position at every turn of the loop, up to and
including the first at which it is at the second end point. -/
def Obligations.LinePlotsItsPositions : Prop :=
  ∀ (ra : Reg) (f : VFlags) (s : State), s.mem.wf 0x8000 = true →
    decode (0x32#8 ++ 0#4 ++ bits ra ++ 0#15 ++ BitVec.ofBool f.c) = .ok (.line ra ⟨false, false, f.c⟩) ∧
    let x0 := sx s ra 0
    let y0 := sy s ra 1
    let x1 := sx s ra 2
    let y1 := sy s ra 3
    ∃ t, exec (.line ra f) s = .next t ∧
      Paints (penAfter s.mem f.c (operand s ra 4))
        (fun x y =>
          if y0 = y1 then y = y0 ∧ min x0 x1 ≤ x ∧ x ≤ max x0 x1
          else if x0 = x1 then x = x0 ∧ min y0 y1 ≤ y ∧ y ≤ max y0 y1
          else ∃ k : Nat,
            (∀ j < k, ¬ ((lineAt x0 y0 x1 y1 j).1 = x1 ∧ (lineAt x0 y0 x1 y1 j).2.1 = y1)) ∧
            (lineAt x0 y0 x1 y1 k).1 = x ∧ (lineAt x0 y0 x1 y1 k).2.1 = y) s t

/-- O33. The loop of R158 reaches the second end point after max(dx, dy) turns and not before, so a line plots
max(dx, dy) + 1 positions and both ends are drawn (R158, R269). -/
def Obligations.LineReachesItsEnd : Prop :=
  ∀ x0 y0 x1 y1 : Int, x0 ≠ x1 → y0 ≠ y1 →
    let n := (max |x1 - x0| |y1 - y0|).toNat
    (lineAt x0 y0 x1 y1 n).1 = x1 ∧ (lineAt x0 y0 x1 y1 n).2.1 = y1 ∧
    (∀ k < n, ¬ ((lineAt x0 y0 x1 y1 k).1 = x1 ∧ (lineAt x0 y0 x1 y1 k).2.1 = y1)) ∧
    ∀ (P : Params) (m : Mem), (linePoints P m x0 y0 x1 y1).length = n + 1 ∧
      (linePoints P m x0 y0 x1 y1).head? = some (x0, y0) ∧ (linePoints P m x0 y0 x1 y1).getLast? = some (x1, y1)

/-- O34. RECT (R159): the border of the rectangle with both corners inclusive, corners in any order. -/
def Obligations.RectPaintsTheBorder : Prop :=
  ∀ (ra : Reg) (f : VFlags) (s : State), s.mem.wf 0x8000 = true →
    decode (0x33#8 ++ 0#4 ++ bits ra ++ 0#15 ++ BitVec.ofBool f.c) = .ok (.rect ra ⟨false, false, f.c⟩) ∧
    let x0 := min (sx s ra 0) (sx s ra 2)
    let x1 := max (sx s ra 0) (sx s ra 2)
    let y0 := min (sy s ra 1) (sy s ra 3)
    let y1 := max (sy s ra 1) (sy s ra 3)
    ∃ t, exec (.rect ra f) s = .next t ∧
      Paints (penAfter s.mem f.c (operand s ra 4))
        (fun x y => x0 ≤ x ∧ x ≤ x1 ∧ y0 ≤ y ∧ y ≤ y1 ∧ (x = x0 ∨ x = x1 ∨ y = y0 ∨ y = y1)) s t

/-- O35. RECTFILL (R160): every position of the rectangle, both corners inclusive. -/
def Obligations.RectfillPaintsTheRectangle : Prop :=
  ∀ (ra : Reg) (f : VFlags) (s : State), s.mem.wf 0x8000 = true →
    decode (0x34#8 ++ 0#4 ++ bits ra ++ 0#15 ++ BitVec.ofBool f.c) = .ok (.rectfill ra ⟨false, false, f.c⟩) ∧
    ∃ t, exec (.rectfill ra f) s = .next t ∧
      Paints (penAfter s.mem f.c (operand s ra 4))
        (fun x y => min (sx s ra 0) (sx s ra 2) ≤ x ∧ x ≤ max (sx s ra 0) (sx s ra 2) ∧
          min (sy s ra 1) (sy s ra 3) ≤ y ∧ y ≤ max (sy s ra 1) (sy s ra 3)) s t

/-- O36. CIRC (R161, R163): the eight reflections of every pair of the midpoint stepping; a negative radius draws
nothing and still updates PEN. -/
def Obligations.CircPaintsTheOutline : Prop :=
  ∀ (ra : Reg) (f : VFlags) (s : State), s.mem.wf 0x8000 = true →
    decode (0x35#8 ++ 0#4 ++ bits ra ++ 0#15 ++ BitVec.ofBool f.c) = .ok (.circ ra ⟨false, false, f.c⟩) ∧
    ∃ t, exec (.circ ra f) s = .next t ∧
      Paints (penAfter s.mem f.c (operand s ra 3))
        (fun x y => ∃ dx dy, emitted (whole s ra 2) dx dy ∧
          ((|x - sx s ra 0| = dx ∧ |y - sy s ra 1| = dy) ∨ (|x - sx s ra 0| = dy ∧ |y - sy s ra 1| = dx))) s t

/-- O37. CIRCFILL (R162, R163): the four spans of every pair of the midpoint stepping. -/
def Obligations.CircfillPaintsTheDisc : Prop :=
  ∀ (ra : Reg) (f : VFlags) (s : State), s.mem.wf 0x8000 = true →
    decode (0x36#8 ++ 0#4 ++ bits ra ++ 0#15 ++ BitVec.ofBool f.c) = .ok (.circfill ra ⟨false, false, f.c⟩) ∧
    ∃ t, exec (.circfill ra f) s = .next t ∧
      Paints (penAfter s.mem f.c (operand s ra 3))
        (fun x y => ∃ dx dy, emitted (whole s ra 2) dx dy ∧
          ((|y - sy s ra 1| = dy ∧ |x - sx s ra 0| ≤ dx) ∨ (|y - sy s ra 1| = dx ∧ |x - sx s ra 0| ≤ dy))) s t

/-- O38. The midpoint stepping is run in full (R163): the model's pairs are the turns of the loop while dx >= dy,
one per scanline offset dy = 0, 1, 2, ..., and there are at most r + 1 of them. -/
def Obligations.MidpointPairsAreTheTurns : Prop :=
  ∀ r : Int, 0 ≤ r →
    (∀ k : Nat, k < (midpointPairs r).length →
      (midpointPairs r)[k]? = some ((midpointAt r k).1, (k : Int)) ∧ (midpointAt r k).2.1 = k ∧ (k : Int) ≤ (midpointAt r k).1) ∧
    (midpointAt r (midpointPairs r).length).1 < (midpointPairs r).length ∧
    0 < (midpointPairs r).length ∧ ((midpointPairs r).length : Int) ≤ r + 1

/-- O39. The fill pattern, the clip test and the parameter TRANSP_ON_PRIMITIVES, position by position (R154, R155):
with the parameter 0 Plot writes primitiveColour; with 1 a transparent colour writes nothing; off the screen Plot
writes nothing (R151). That the edge of the screen is SCREEN_W and SCREEN_H (R5) where R151 prints 128 is the model's
reading (assumption 9). -/
def Obligations.PlotFollowsThePipeline : Prop :=
  (∀ (P : Params) (m : Mem) (xs ys : Int), (xs < 0 ∨ P.screenW ≤ xs ∨ ys < 0 ∨ P.screenH ≤ ys) →
    plot P m xs ys = none) ∧
  ∀ (P : Params) (m : Mem) (x y : Fin 128), P.drawBase = 0x5f00 → P.screenW = 128 → P.screenH = 128 →
    let colour := if (draw m 0x32 ++ draw m 0x31 : BitVec 16).getLsbD (15 - (x.val % 4 + 4 * (y.val % 4)))
      then (draw m 0x25).toNat / 16 else (draw m 0x25).toNat % 16
    (P.transpOnPrimitives = false →
      plot P m x.val y.val = (primitiveColour m (draw m 0x25) x y).map fun c => ⟨x.val, y.val, c⟩) ∧
    (P.transpOnPrimitives = true →
      plot P m x.val y.val =
        if (draw m colour).getLsbD 4 then none
        else (primitiveColour m (draw m 0x25) x y).map fun c => ⟨x.val, y.val, c⟩)

/-- O40. SSPR (R183, R182, R181): every destination position takes its nearest-neighbour sheet pixel, flipped as
asked, transparent source colours skipped; no size that is not positive draws. -/
def Obligations.SsprBlits : Prop :=
  ∀ (ra : Reg) (f : VFlags) (s : State), s.mem.wf 0x8000 = true →
    decode (0x39#8 ++ 0#4 ++ bits ra ++ 0#13 ++ BitVec.ofBool f.fy ++ BitVec.ofBool f.fx ++ 0#1) =
      .ok (.sspr ra ⟨f.fy, f.fx, false⟩) ∧
    ∃ t, exec (.sspr ra f) s = .next t ∧
      Blits s t (whole s ra 0) (whole s ra 1) (whole s ra 2) (whole s ra 3) (whole s ra 4) (whole s ra 5) (whole s ra 6)
        (whole s ra 7) f.fx f.fy

/-- O41. SPR (R184): sprite n of the sheet, unstretched, floor(8w) by floor(8h) pixels; an index outside 0 .. 255
draws nothing. -/
def Obligations.SprBlits : Prop :=
  ∀ (ra : Reg) (f : VFlags) (s : State), s.mem.wf 0x8000 = true →
    decode (0x38#8 ++ 0#4 ++ bits ra ++ 0#13 ++ BitVec.ofBool f.fy ++ BitVec.ofBool f.fx ++ 0#1) =
      .ok (.spr ra ⟨f.fy, f.fx, false⟩) ∧
    let n := whole s ra 0
    let pw := (operand s ra 3).toInt * 8 / 65536
    let ph := (operand s ra 4).toInt * 8 / 65536
    ∃ t, exec (.spr ra f) s = .next t ∧
      if 0 ≤ n ∧ n ≤ 255 then
        Blits s t (n % 16 * 8) (n / 16 * 8) pw ph (whole s ra 1) (whole s ra 2) pw ph f.fx f.fy
      else (∀ a, t.mem.byte a = s.mem.byte a) ∧ MemFrame s t

/-- O42. MAP (R186, R185, R187): a screen pixel takes its 8 x 8 cell's sprite pixel when the cell lies in the
window and in the map and its sprite passes the layer filter, else it stays. -/
def Obligations.MapDrawsItsCells : Prop :=
  ∀ (ra : Reg) (f : VFlags) (s : State), s.mem.wf 0x8000 = true →
    decode (0x3A#8 ++ 0#4 ++ bits ra ++ 0#16) = .ok (.map ra ⟨false, false, false⟩) ∧
    ∃ t, exec (.map ra f) s = .next t ∧ DrawFrame (draw s.mem 0x25) s t ∧
      ∀ x y : Fin 128,
        let px := (x.val : Int) + cameraX s.mem - whole s ra 2
        let py := (y.val : Int) + cameraY s.mem - whole s ra 3
        let mx := whole s ra 0 + px / 8
        let my := whole s ra 1 + py / 8
        let n := s.mem.byte (if my < 32 then 0x2000 + 128 * my.toNat + mx.toNat else 0x1000 + 128 * (my.toNat - 32) + mx.toNat)
        let layer : Byte := (operand s ra 6).extractLsb' 16 8
        pixel t.mem x y =
          if 0 ≤ px / 8 ∧ px / 8 < whole s ra 4 ∧ 0 ≤ py / 8 ∧ py / 8 < whole s ra 5 ∧
            0 ≤ mx ∧ mx < 128 ∧ 0 ≤ my ∧ my < 64 ∧ (layer = 0 ∨ s.mem.byte (0x3000 + n.toNat) &&& layer ≠ 0) then
            (spriteColour s.mem x y
              (sheetColour s.mem ((n.toNat : Int) % 16 * 8 + px % 8) ((n.toNat : Int) / 16 * 8 + py % 8))).getD
                (pixel s.mem x y)
          else pixel s.mem x y

/-- O43. THE SHARED AREA (R66, R185): sheet rows 64 .. 127 and map rows 32 .. 63 are the same bytes, so the sheet
pixel (u, v) is a nibble of the map cell (64 * (v mod 2) + u / 2, v / 2). -/
def Obligations.SheetAndMapShareTheirBytes : Prop :=
  ∀ (m : Mem) (u v : Fin 128), 64 ≤ v.val →
    sheetPix z8b m u.val v.val =
      nibbleOf u.val (m.byte (mapAddr z8b (64 * (v.val % 2) + u.val / 2) (v.val / 2))) ∧
    0x1000 ≤ mapAddr z8b (64 * (v.val % 2) + u.val / 2) (v.val / 2) ∧
    mapAddr z8b (64 * (v.val % 2) + u.val / 2) (v.val / 2) < 0x2000

/-! ### Audio -/

/-- O44. SFX (R203): n = -1 stops the channel, n = -2 releases a playing one, a valid (n, off) starts it; every
other argument and every other channel is without effect. And the same under any XLEN, NREG, NCHAN, NSFX and NNOTE (R5),
the first three being those of the state: that operand i is then x[(ra + i) mod NREG], where R98 prints 16, is the
model's reading (assumption 9), and that its integer half begins at bit XLEN / 2 is the model's choice (assumption 17). -/
def Obligations.SfxStartsStopsReleases : Prop :=
  ∀ (ra : Reg) (f : VFlags),
    decode (0x40#8 ++ 0#4 ++ bits ra ++ 0#16) = .ok (.sfx ra ⟨false, false, false⟩) ∧
    (∀ s : State, ∃ t, exec (.sfx ra f) s = .next t ∧
      SfxActs 65536 64 32 (whole s ra 0) (whole s ra 1) (whole s ra 2) s t) ∧
    ∀ (P : Params) (nc nr xl : Nat) (s : State nc nr xl) (hnr : 0 < nr),
      let arg := fun i : Nat => (s.x[(ra.val + i) % nr]'(Nat.mod_lt _ hnr)).toInt / 2 ^ (xl / 2)
      ∃ t, execIn P (.sfx ra f) s = .next t ∧ SfxActs (2 ^ (xl / 2)) P.nSfx P.nNote (arg 0) (arg 1) (arg 2) s t

/-- O45. THE TICK (R204), as its procedure reads: a silent channel emits 0 and changes nothing; a playing one
decodes its note, emits a sample (for some noise draw), and moves volume, phase and offset on, with the loop and the
stop; nothing else changes but the model's noise counter. -/
def Obligations.TickFollowsTheProcedure : Prop :=
  ∀ (s : State) (ch : Chan), s.Inv →
    let c := s.ch.get ch
    let t := tick ch s
    (∀ j, j ≠ ch → t.ch.get j = s.ch.get j) ∧ SameBlock s t ∧ t.cmd = s.cmd ∧ t.sched = s.sched ∧
    (c.sfx = none → t.out = ⟨ch, 0⟩ :: s.out ∧ t.ch = s.ch ∧ t.noiseCount = s.noiseCount) ∧
    ∀ n : Nat, c.sfx = some n →
      let byte := fun k => (s.mem.byte (0x3200 + 68 * n + k)).toNat
      let spd := max 1 (byte 65)
      let ls := byte 66
      let le := byte 67
      let k := c.offset.toNat / 65536
      let w := byte (2 * k) + 256 * byte (2 * k + 1)
      let key := w % 64
      let v := c.prevVol.toInt + max (-0x400) (min 0x400 ((w / 512 % 8 : Nat) * 65536 / 7 - c.prevVol.toInt))
      let adv := c.offset.toNat + 65536 / (183 * spd)
      let nxt := if ls < le ∧ c.canLoop = true ∧ le * 65536 ≤ adv
        then ls * 65536 + (adv - ls * 65536) % ((le - ls) * 65536) else adv
      (∃ draw : Int, -32768 ≤ draw ∧ draw ≤ 32767 ∧
        ∃ smp : OutEvent, t.out = smp :: s.out ∧ smp.ch = ch ∧
          smp.sample.toInt =
            max (-32768) (min 32767
              (waveform (BitVec.ofNat 3 (w / 64)) (c.phase.toNat % 65536 : Nat) (c.phase.toNat / 128 % 65536 : Nat) draw
                * v / 65536 / 2))) ∧
      t.ch.get ch =
        if 32 * 65536 ≤ nxt then ⟨none, 0, 0, true, 24, 0⟩
        else
          { sfx := some n, offset := BitVec.ofNat 32 nxt
            phase := BitVec.ofNat 32 (c.phase.toNat + pitchTable.getD key 0), canLoop := c.canLoop
            prevKey := if nxt / 65536 ≠ k then BitVec.ofNat 6 key else c.prevKey, prevVol := BitVec.ofInt 32 v }

/-- O46. An audio agent's turn is a tick, whatever SEQ holds (R204, R232), and a tick under its parameters in a block
with other parameters (R5). -/
def Obligations.AudioTurnIsATick : Prop :=
  (∀ (s : State) (ch : Chan) (rest : List Move), s.sched = .aud ch :: rest →
    step s = .next (tick ch { s with sched := rest })) ∧
  ∀ (P : Params) (s : State P.nChan P.nReg P.xlen) (ch : Fin P.nChan) (rest : List (Move P.nChan)), s.sched = .aud ch :: rest →
    stepIn P s = .next (tickIn P ch { s with sched := rest })

/-- O47. WAVE (R206 to R212, R214): id by id the formula of its rule, of t = P[15:0] and p = P[22:7]; every sample
is at most 43691 in magnitude; ids 0 to 5 depend on the phase only through t, id 6 is the draw whatever the phase,
id 7 has period 2^23 and depends on more than t. -/
def Obligations.WaveformContract : Prop :=
  (∀ (id : BitVec 3) (p : Word) (draw : Int),
    waveZ8b id p draw = waveform id (p.toNat % 65536 : Nat) (p.toNat / 128 % 65536 : Nat) draw) ∧
  (∀ (id : BitVec 3) (p : Word) (draw : Int), -32768 ≤ draw → draw ≤ 32767 → |waveZ8b id p draw| ≤ 43691) ∧
  (∀ (id : BitVec 3) (p p' : Word) (draw draw' : Int), id.toNat ≤ 5 → p.toNat % 65536 = p'.toNat % 65536 →
    waveZ8b id p draw = waveZ8b id p' draw') ∧
  (∀ (p : Word) (draw : Int), waveZ8b 6 p draw = draw) ∧
  (∀ (p p' : Word) (draw draw' : Int), p.toNat % 2 ^ 23 = p'.toNat % 2 ^ 23 → waveZ8b 7 p draw = waveZ8b 7 p' draw') ∧
  (∀ draw : Int, waveZ8b 7 0x00000000 draw = -43691 ∧ waveZ8b 7 0x00400000 draw = -21846)

/-- O48. The output saturation never acts (R217): with the bound of R206 and a volume in 0 .. 1.0 the sample is the
halved product itself, at most 21846 in magnitude. -/
def Obligations.OutputNeverSaturates : Prop :=
  ∀ sm v : Int, |sm| ≤ 43691 → 0 ≤ v → v ≤ 65536 →
    outSample 65536 sm v = sm * v / 65536 / 2 ∧ |outSample 65536 sm v| ≤ 21846

/-- O49. VOLTAB and SLEW (R216): the target is floor(vol * 65536 / 7); the applied volume moves toward the target by at most SLEW, never past it, stays in
0 .. 0x10000, and reaches any target within 64 samples. -/
def Obligations.VolumeSlewsTowardTarget : Prop :=
  ∀ (prev : Int) (vol : BitVec 3), 0 ≤ prev → prev ≤ 0x10000 →
    let target := z8b.voltab vol
    let v := slewedVolume z8b prev target
    target = (vol.toNat : Int) * 65536 / 7 ∧ |v - prev| ≤ 0x400 ∧ 0 ≤ v ∧ v ≤ 0x10000 ∧ |target - v| = max 0 (|target - prev| - 0x400) ∧
    (fun u => slewedVolume z8b u target)^[64] prev = target

/-- O50. Noise (R213): two states that differ only in how many draws were taken give ticks that differ only in that
count and in the emitted sample. -/
def Obligations.NoiseReachesOnlyTheSample : Prop :=
  ∀ (s s' : State) (ch : Chan), s' = { s with noiseCount := s'.noiseCount } →
    SameBlock (tick ch s) (tick ch s') ∧ (tick ch s').ch = (tick ch s).ch ∧ (tick ch s').cmd = (tick ch s).cmd ∧
    (tick ch s').sched = (tick ch s).sched ∧ (tick ch s').out.tail = (tick ch s).out.tail ∧
    (tick ch s').noiseCount - s'.noiseCount = (tick ch s).noiseCount - s.noiseCount

/-- O51. Loop (R219): an advanced offset that reaches the end of an existing loop range is wrapped into it with its
overshoot kept; without a range, without can_loop or before the end it stays. -/
def Obligations.LoopWrapsIntoRange : Prop :=
  ∀ ls le nxt : Nat,
    (ls < le → le * 65536 ≤ nxt →
      ls * 65536 ≤ loopWrap 65536 true ls le nxt ∧ loopWrap 65536 true ls le nxt < le * 65536 ∧
      (loopWrap 65536 true ls le nxt : Int) ≡ nxt [ZMOD ((le - ls : Nat) * 65536 : Nat)]) ∧
    (nxt < le * 65536 → loopWrap 65536 true ls le nxt = nxt) ∧
    (le ≤ ls → loopWrap 65536 true ls le nxt = nxt) ∧ loopWrap 65536 false ls le nxt = nxt

/-- O52. A CHANNEL WITHOUT A LOOP ENDS (R221): released, or with no loop range, or with LOOP_END > 32, it is silent
within 32 * 65536 of its own ticks. -/
def Obligations.UnloopedChannelFallsSilent : Prop :=
  ∀ (s : State) (ch : Chan) (n : Nat), s.Inv → (s.ch.get ch).sfx = some n →
    ((s.ch.get ch).condition = .released ∨
      (s.mem.byte (0x3200 + 68 * n + 67)).toNat ≤ (s.mem.byte (0x3200 + 68 * n + 66)).toNat ∨
      32 < (s.mem.byte (0x3200 + 68 * n + 67)).toNat) →
    ∃ k, k ≤ 32 * 65536 ∧ (((tick ch)^[k] s).ch.get ch).condition = .silent

/-- O53. A PLAYING CHANNEL WITH A LOOP RANGE NEVER ENDS BY TICKS (R221): with LOOP_END <= 32 it stays PLAYING. -/
def Obligations.LoopingChannelPlaysOn : Prop :=
  ∀ (s : State) (ch : Chan) (n : Nat), s.Inv → (s.ch.get ch).condition = .playing → (s.ch.get ch).sfx = some n →
    (s.mem.byte (0x3200 + 68 * n + 66)).toNat < (s.mem.byte (0x3200 + 68 * n + 67)).toNat →
    (s.mem.byte (0x3200 + 68 * n + 67)).toNat ≤ 32 →
    ∀ k, (((tick ch)^[k] s).ch.get ch).condition = .playing

/-! ### Reset, host, invariants, interleaving -/

/-- O54. RESET (R42, R261): every piece of state takes its value of the table, MEM the host's image with the
draw-state bytes at their defaults; and the same under any XLEN, NREG, MEM_SIZE, DRAW_BASE and NCHAN (R5). The image is a list of
pairs over zeros, the last pair of an address counting (the model's form, assumption 10). -/
def Obligations.ResetSetsEveryPieceOfState : Prop :=
  (∀ (image : List Host.Cell) (s : State) (rest : List Move), s.sched = .hostReset image :: rest →
    ∃ t, step s = .next t ∧ AfterReset 0x8000 0x5f00 image t) ∧
  ∀ (P : Params) (image : List Host.Cell) (s : State P.nChan P.nReg P.xlen) (rest : List (Move P.nChan)),
    s.sched = .hostReset image :: rest → ∃ t, stepIn P s = .next t ∧ AfterReset P.memSize P.drawBase image t

/-- O55. RESET AND LAUNCH (R246, R263): the two in a row leave the list launched, pc 0, and the next turn the next
move's. A launch with nothing launched puts its list in place and changes nothing else; with a list launched there is
no such move, whatever SEQ holds (the model refuses it by name, assumption 6). -/
def Obligations.BootLaunchesTheList : Prop :=
  (∀ (image : List Host.Cell) (list : List CmdWord) (s : State) (rest : List Move),
    s.sched = .hostReset image :: .hostLaunch list :: rest →
    ∃ t, Sys2Proof.core.run 2 s = .next t ∧ t.cmd = some list ∧ t.pc = 0 ∧ t.seq = .run ∧ t.sched = rest ∧
      t.mem = resetMem z8b image) ∧
  ∀ (list : List CmdWord) (s : State) (rest : List Move), s.sched = .hostLaunch list :: rest →
    (s.cmd = none → step s = .next { s with sched := rest, cmd := some list }) ∧
    (s.cmd ≠ none → step s = .refused .launchWithoutReset)

/-- O56. HOST WRITES (R76, R252, R266): while SEQ is DONE or FAULT, or before launch, a host write sets its byte in
range and does nothing out of range; while a launched list has SEQ = RUN there is no such move (the model refuses
it by name, assumption 6). That a draw-state byte written before launch stays is the model's choice (assumption
16). -/
def Obligations.HostWritesOnlyWhileSeqRests : Prop :=
  ∀ (a : Nat) (b : Byte) (s : State) (rest : List Move), s.mem.wf 0x8000 = true → s.sched = .hostWrite a b :: rest →
    (s.seq ≠ .run ∨ s.cmd = none →
      ∃ t, step s = .next t ∧ t = { s with sched := rest, mem := t.mem } ∧
        ∀ a', t.mem.byte a' = if a' = a ∧ a < 0x8000 then b else s.mem.byte a') ∧
    (s.seq = .run → s.cmd ≠ none → step s = .refused .hostWriteWhileRunning)

/-- O57. WHAT THE HOST READS (R24, R37, R76, R252): SEQ as 0, 1 or 2 and sfx as -1 .. 63 (R38), the rest as State holds
it; a byte of MEM inside the image and nothing outside it; and a write the host makes is what it reads next. -/
def Obligations.HostReadsTheState : Prop :=
  ∀ s : State,
    (s.hostView.seq = 0 ↔ s.seq = .run) ∧ (s.hostView.seq = 1 ↔ s.seq = .done) ∧
    (s.hostView.seq = 2 ↔ s.seq = .fault) ∧ s.hostView.x = s.x ∧ s.hostView.pc = s.pc ∧
    s.hostView.faultPc = s.faultPc ∧ s.hostView.faultW = s.faultW ∧
    (∀ k : Chan,
      let v := s.hostView.ch.get k
      let c := s.ch.get k
      (v.sfx = -1 ↔ c.sfx = none) ∧ (∀ n : Nat, v.sfx = n ↔ c.sfx = some n) ∧
      (s.Inv → -1 ≤ v.sfx ∧ v.sfx ≤ 63) ∧
      (v.canLoop = 1 ↔ c.canLoop = true) ∧ v.offset = c.offset ∧ v.phase = c.phase ∧ v.prevKey = c.prevKey ∧
      v.prevVol = c.prevVol) ∧
    (∀ a, s.hostRead z8b a = if a < 0x8000 then some (s.mem.byte a) else none) ∧
    (∀ (a : Nat) (b : Byte) (t : State), s.mem.wf 0x8000 = true → a < 0x8000 → hostWrite z8b a b s = .next t →
      t.hostRead z8b a = some b)

/-- O58. The machine after reset meets the invariant of R38 and R216, and so does a block with other parameters (R5).
That its MEM is in canonical form, over a MEM0 of zeros, is the model's (assumption 2). -/
def Obligations.ResetMeetsInvariant : Prop :=
  State.reset.Inv ∧ State.reset = State.resetIn z8b ∧ ∀ P : Params, (State.resetIn P).InvIn P

/-- O59. EVERY STEP OF EVERY AGENT KEEPS THE INVARIANT (R38, R216): MEM stays canonical, a playing channel's sound
effect stays below NSFX, its offset below 32.0 and its volume at most 1.0, a silent channel holds its stopped values;
and so in a block with other parameters for which the rules are written (R5, R67, assumption 9). -/
def Obligations.StepKeepsInvariant : Prop :=
  (∀ s t : State, s.Inv → step s = .next t → t.Inv) ∧
  ∀ P : Params, Fits P → ∀ s t : State P.nChan P.nReg P.xlen, s.InvIn P → stepIn P s = .next t → t.InvIn P

/-- O60. THE RESULT DOES NOT DEPEND ON THE INTERLEAVING (R267 (a)): a schedule of SEQ steps and ticks leaves the same
registers, pc, SEQ, fault registers and MEM as its SEQ steps alone. -/
def Obligations.TicksDoNotChangeTheResult : Prop :=
  ∀ (moves : List Move) (s t : State), (∀ mv ∈ moves, mv = .seq ∨ ∃ ch, mv = .aud ch) →
    Sys2Proof.core.run moves.length { s with sched := moves } = .next t →
    ∃ t', Sys2Proof.core.run (moves.filter (· = .seq)).length { s with sched := moves.filter (· = .seq) } = .next t' ∧
      SameBlock t' t
end

