-- ==== Sys2Proof/Laws/Memory.lean ====
section
/-! SUPPORT. The laws of the memory image: read after write, the canonical form, and what the
multi-byte accesses do to every byte. -/

namespace Sys2Proof.Machine

/-- The canonical form from `lo` on, taken apart at the first cell. -/
theorem Mem.wfFrom_cons {size lo a : Nat} {b : Byte} {t : Mem} :
    Mem.wfFrom size lo ((a, b) :: t) = true ↔
      lo ≤ a ∧ a < size ∧ b ≠ unlisted a ∧ Mem.wfFrom size (a + 1) t = true := by
  simp [Mem.wfFrom, and_assoc]

theorem Mem.wfFrom_mono {size lo lo' : Nat} {m : Mem} (h : Mem.wfFrom size lo m = true) (hl : lo' ≤ lo) :
    Mem.wfFrom size lo' m = true := by
  cases m with
  | nil => rfl
  | cons c t =>
    obtain ⟨k, v⟩ := c
    rw [Mem.wfFrom_cons] at h ⊢
    exact ⟨le_trans hl h.1, h.2⟩

theorem Mem.wf_of_wfFrom {size lo : Nat} {m : Mem} (h : Mem.wfFrom size lo m = true) : m.wf size = true :=
  Mem.wfFrom_mono h (Nat.zero_le _)

/-- Below its first address a canonical image lists nothing. -/
theorem Mem.byte_of_lt {size lo a : Nat} {m : Mem} (h : Mem.wfFrom size lo m = true) (ha : a < lo) :
    m.byte a = unlisted a := by
  cases m with
  | nil => rfl
  | cons c t =>
    obtain ⟨k, v⟩ := c
    rw [Mem.wfFrom_cons] at h
    have : a < k := by omega
    simp [Mem.byte, this, Nat.ne_of_lt this]

/-- Outside the image a canonical memory lists nothing. -/
theorem Mem.byte_of_ge {size lo a : Nat} {m : Mem} (h : Mem.wfFrom size lo m = true) (ha : size ≤ a) :
    m.byte a = unlisted a := by
  induction m generalizing lo with
  | nil => rfl
  | cons c t ih =>
    obtain ⟨k, v⟩ := c
    rw [Mem.wfFrom_cons] at h
    have : ¬ a < k ∧ a ≠ k := by omega
    simp [Mem.byte, this, ih h.2.2.2]

theorem Mem.byte_put_of_wfFrom {size lo : Nat} {m : Mem} (h : Mem.wfFrom size lo m = true) (a a' : Nat) (b : Byte) :
    (m.put a b).byte a' = if a' = a then b else m.byte a' := by
  induction m generalizing lo with
  | nil =>
    by_cases hb : b = unlisted a <;> by_cases ha : a' = a <;> simp [Mem.put, Mem.byte, hb, ha]
  | cons c t ih =>
    obtain ⟨k, v⟩ := c
    rw [Mem.wfFrom_cons] at h
    obtain ⟨-, -, -, ht⟩ := h
    rcases Nat.lt_trichotomy a k with hk | rfl | hk
    · by_cases hb : b = unlisted a <;> by_cases ha : a' = a
      · subst ha; simp [Mem.put, Mem.byte, hk, hb, Nat.ne_of_lt hk]
      · simp [Mem.put, hk, hb, ha]
      · simp [Mem.put, Mem.byte, hk, hb, ha]
      · by_cases hl : a' < a
        · have : a' < k := by omega
          simp [Mem.put, Mem.byte, hk, hb, ha, hl, this, Nat.ne_of_lt this]
        · simp [Mem.put, Mem.byte, hk, hb, ha, hl]
    · by_cases hb : b = unlisted a <;> by_cases ha : a' = a
      · subst ha; simp [Mem.put, hb, Mem.byte_of_lt ht]
      · by_cases hl : a' < a
        · have := Mem.byte_of_lt ht (show a' < a + 1 by omega)
          simp [Mem.put, Mem.byte, hb, ha, hl, this]
        · simp [Mem.put, Mem.byte, hb, ha, hl]
      · simp [Mem.put, Mem.byte, hb, ha]
      · simp [Mem.put, Mem.byte, hb, ha]
    · have h1 : ¬ a < k := by omega
      have h2 : a ≠ k := by omega
      simp only [Mem.put, Mem.byte, h1, h2, if_false, ih ht]
      by_cases ha : a' = a
      · subst ha; simp [h1, h2]
      · simp [ha]

/-- READ AFTER WRITE, one byte (R65): the address written reads as the byte written, every other
address as before. -/
theorem Mem.byte_put {size : Nat} {m : Mem} (h : m.wf size = true) (a a' : Nat) (b : Byte) :
    (m.put a b).byte a' = if a' = a then b else m.byte a' := Mem.byte_put_of_wfFrom h a a' b

theorem Mem.put_wfFrom {size lo : Nat} {m : Mem} (h : Mem.wfFrom size lo m = true) {a : Nat} (b : Byte) (hlo : lo ≤ a)
    (ha : a < size) : Mem.wfFrom size lo (m.put a b) = true := by
  induction m generalizing lo with
  | nil => by_cases hb : b = unlisted a <;> simp [Mem.put, Mem.wfFrom, hb, hlo, ha]
  | cons c t ih =>
    obtain ⟨k, v⟩ := c
    have h' := Mem.wfFrom_cons.1 h
    obtain ⟨h1, h2, h3, ht⟩ := h'
    rcases Nat.lt_trichotomy a k with hk | rfl | hk
    · by_cases hb : b = unlisted a
      · simpa [Mem.put, hk, hb] using h
      · simp only [Mem.put, hk, hb, if_true, if_false]
        exact Mem.wfFrom_cons.2 ⟨hlo, ha, hb, Mem.wfFrom_cons.2 ⟨by omega, h2, h3, ht⟩⟩
    · by_cases hb : b = unlisted a
      · simpa [Mem.put, hb] using Mem.wfFrom_mono ht (by omega)
      · simp only [Mem.put, hb, if_false, lt_irrefl, if_true]
        exact Mem.wfFrom_cons.2 ⟨hlo, ha, hb, ht⟩
    · have e1 : ¬ a < k := by omega
      have e2 : a ≠ k := by omega
      simp only [Mem.put, e1, e2, if_false]
      exact Mem.wfFrom_cons.2 ⟨h1, h2, h3, ih ht (by omega)⟩

/-- A write inside the image keeps the canonical form. -/
theorem Mem.put_wf {size : Nat} {m : Mem} (h : m.wf size = true) {a : Nat} (b : Byte) (ha : a < size) : (m.put a b).wf size = true :=
  Mem.put_wfFrom h b (Nat.zero_le _) ha

/-- Canonical images that read alike are the same list. -/
theorem Mem.ext_of_byte {size : Nat} {m m' : Mem} (h : m.wf size = true) (h' : m'.wf size = true) (e : ∀ a, m.byte a = m'.byte a) :
    m = m' := by
  suffices H : ∀ (m m' : Mem) (lo : Nat), Mem.wfFrom size lo m = true → Mem.wfFrom size lo m' = true →
      (∀ a, lo ≤ a → m.byte a = m'.byte a) → m = m' from H m m' 0 h h' fun a _ => e a
  intro m
  induction m with
  | nil =>
    intro m' lo _ h' e
    cases m' with
    | nil => rfl
    | cons c t =>
      obtain ⟨k, v⟩ := c
      obtain ⟨h1, -, h3, -⟩ := Mem.wfFrom_cons.1 h'
      exact absurd (e k h1) (by simpa [Mem.byte] using fun q => h3 q.symm)
  | cons c t ih =>
    obtain ⟨k, v⟩ := c
    intro m' lo h h' e
    obtain ⟨h1, -, h3, ht⟩ := Mem.wfFrom_cons.1 h
    cases m' with
    | nil => exact absurd (e k h1) (by simpa [Mem.byte] using h3)
    | cons c' t' =>
      obtain ⟨k', v'⟩ := c'
      obtain ⟨h1', -, h3', ht'⟩ := Mem.wfFrom_cons.1 h'
      rcases Nat.lt_trichotomy k k' with hk | rfl | hk
      · exact absurd (e k h1) (by simpa [Mem.byte, hk, Nat.ne_of_lt hk] using h3)
      · have ev : v = v' := by simpa [Mem.byte] using e k h1
        subst ev
        congr 1
        refine ih t' (k + 1) ht ht' fun a ha => ?_
        have := e a (by omega)
        have n1 : a ≠ k := by omega
        have n2 : ¬ a < k := by omega
        simpa [Mem.byte, n1, n2] using this
      · refine absurd (e k' h1') ?_
        simpa [Mem.byte, hk, Nat.ne_of_lt hk] using fun q => h3' q.symm

/-- R61: an in-range byte read, and the 0 of an ignored one. -/
theorem readByte_ignore {P : Params} (hP : P.oobPolicy = .ignore) (m : Mem) (a : Nat) :
    readByte P m a = if a < P.memSize then m.byte a else 0 := by simp [readByte, hP]

/-- R61: an in-range byte write, and an ignored one. -/
theorem writeByte_ignore {P : Params} (hP : P.oobPolicy = .ignore) (m : Mem) (a : Nat) (b : Byte) :
    writeByte P m a b = if a < P.memSize then m.put a b else m := by simp [writeByte, hP]

/-- A byte write keeps the canonical form under either policy, in an image that has a byte. -/
theorem writeByte_wf {P : Params} (h0 : 0 < P.memSize) {m : Mem} (h : m.wf P.memSize = true) (a : Nat) (b : Byte) :
    (writeByte P m a b).wf P.memSize = true := by
  unfold writeByte
  split
  · exact Mem.put_wf h b ‹_›
  · split
    · exact h
    · exact Mem.put_wf h b (by omega)

/-- Every byte after a byte write with ignored out-of-range accesses. -/
theorem byte_writeByte {P : Params} (hP : P.oobPolicy = .ignore) {m : Mem} (h : m.wf P.memSize = true) (a a' : Nat)
    (b : Byte) : (writeByte P m a b).byte a' = if a' = a ∧ a < P.memSize then b else m.byte a' := by
  rw [writeByte_ignore hP]
  by_cases ha : a < P.memSize <;> simp [ha, Mem.byte_put h]

/-- Every byte after a byte write that goes to the last byte when out of range (R77). -/
theorem byte_writeByte_clamp {P : Params} (hP : P.oobPolicy = .clamp) {m : Mem} (h : m.wf P.memSize = true)
    (a a' : Nat) (b : Byte) :
    (writeByte P m a b).byte a' = if a' = min a (P.memSize - 1) then b else m.byte a' := by
  unfold writeByte
  split
  · next ha => rw [Nat.min_eq_left (by omega)]; exact Mem.byte_put h _ _ _
  · next ha => rw [hP, Nat.min_eq_right (by omega)]; exact Mem.byte_put h _ _ _

/-- `MemWrite` keeps the canonical form. -/
theorem memWrite_wf {P : Params} (h0 : 0 < P.memSize) {m : Mem} (h : m.wf P.memSize = true) (a n v : Nat) :
    (memWrite P m a n v).wf P.memSize = true := by
  induction n generalizing m a v with
  | zero => exact h
  | succ n ih => exact ih (writeByte_wf h0 h _ _) _ _

/-- EVERY BYTE AFTER `MemWrite` (R61, R62): the n addresses from `a` on take the bytes of v,
little-endian, those of them outside the image drop theirs, every other address reads as before. -/
theorem byte_memWrite {P : Params} (hP : P.oobPolicy = .ignore) {m : Mem} (h : m.wf P.memSize = true)
    (a n v a' : Nat) :
    (memWrite P m a n v).byte a' =
      if a ≤ a' ∧ a' < a + n ∧ a' < P.memSize then BitVec.ofNat 8 (v / 256 ^ (a' - a)) else m.byte a' := by
  induction n generalizing m a v with
  | zero => simp [memWrite]; omega
  | succ n ih =>
    have hw : (writeByte P m a (BitVec.ofNat 8 v)).wf P.memSize = true := by
      rw [writeByte_ignore hP]
      split
      · exact Mem.put_wf h _ ‹_›
      · exact h
    simp only [memWrite]
    rw [ih hw, byte_writeByte hP h]
    rcases Nat.lt_trichotomy a' a with hl | rfl | hl
    · have : ¬ a + 1 ≤ a' ∧ ¬ a ≤ a' ∧ a' ≠ a := by omega
      simp [this]
    · simp
    · have e : a' - a = (a' - (a + 1)) + 1 := by omega
      have hne : a' ≠ a := by omega
      have : (a + 1 ≤ a' ∧ a' < a + 1 + n ∧ a' < P.memSize) ↔ (a ≤ a' ∧ a' < a + (n + 1) ∧ a' < P.memSize) := by omega
      simp only [this, hne, false_and, if_false, e, pow_succ', Nat.div_div_eq_div_mul]

/-- Cells written keep the canonical form. -/
theorem putCells_wf {P : Params} {m : Mem} (h : m.wf P.memSize = true) (cells : List Host.Cell) :
    (putCells P m cells).wf P.memSize = true := by
  induction cells generalizing m with
  | nil => exact h
  | cons c t ih =>
    refine ih ?_
    dsimp only
    split
    · exact Mem.put_wf h _ ‹_›
    · exact h

/-- EVERY BYTE AFTER cells written: in the image the last cell of its address counts. -/
theorem byte_putCells {P : Params} {m : Mem} (h : m.wf P.memSize = true) (cells : List Host.Cell) (a : Nat) :
    (putCells P m cells).byte a =
      if a < P.memSize then ((cells.reverse.find? fun c => c.1 == a).map (·.2)).getD (m.byte a) else m.byte a := by
  induction cells generalizing m with
  | nil => simp [putCells]
  | cons c t ih =>
    rw [show putCells P m (c :: t) = putCells P (if c.1 < P.memSize then m.put c.1 c.2 else m) t from rfl]
    have hw : (if c.1 < P.memSize then m.put c.1 c.2 else m).wf P.memSize = true := by
      split
      · exact Mem.put_wf h _ ‹_›
      · exact h
    have hb : a < P.memSize → (if c.1 < P.memSize then m.put c.1 c.2 else m).byte a =
        if a = c.1 then c.2 else m.byte a := by
      intro ha
      split
      · exact Mem.byte_put h _ _ _
      · rw [if_neg (by omega)]
    rw [ih hw]
    split
    · next ha =>
      rw [hb ha, List.reverse_cons, List.find?_append]
      cases t.reverse.find? fun c => c.1 == a with
      | some v => simp
      | none =>
        by_cases hc : a = c.1
        · simp [hc]
        · simp [hc, Ne.symm hc]
    · next ha =>
      split
      · next hc => rw [Mem.byte_put h, if_neg (by omega)]
      · rfl

/-- What a list of consecutive cells says of an address. -/
theorem find?_cells (base : Nat) (f : Nat → Byte) (n a : Nat) :
    ((((List.range n).map fun k => (base + k, f k)) : List Host.Cell).reverse.find? fun c => c.1 == a) =
      if base ≤ a ∧ a < base + n then some (a, f (a - base)) else none := by
  induction n with
  | zero => simp
  | succ n ih =>
    rw [List.range_succ, List.map_append, List.reverse_append, List.find?_append, ih]
    by_cases ha : a = base + n
    · subst ha; simp
    · have e : (base ≤ a ∧ a < base + (n + 1)) ↔ (base ≤ a ∧ a < base + n) := by omega
      have hne : base + n ≠ a := by omega
      simp [e, hne]

/-- MEM after a reset is canonical (R261). -/
theorem resetMem_wf (P : Params) (image : List Host.Cell) : (resetMem P image).wf P.memSize = true := by
  rw [resetMem]; exact putCells_wf rfl _

/-- EVERY BYTE OF MEM AFTER A RESET (R42, R261): a draw-state byte holds its default, another the image's byte, zero
where the image has none. -/
theorem byte_resetMem (P : Params) (image : List Host.Cell) {a : Nat} (ha : a < P.memSize) :
    (resetMem P image).byte a =
      if inDrawState P a then drawDefault (a - P.drawBase)
      else ((image.reverse.find? fun c => c.1 == a).map (·.2)).getD 0 := by
  rw [resetMem, byte_putCells rfl, if_pos ha, List.reverse_append, List.reverse_append, List.find?_append,
    List.find?_append, drawCells, zeroCells, find?_cells, find?_cells]
  by_cases hd : P.drawBase ≤ a ∧ a < P.drawBase + 0x40
  · simp [inDrawState, hd]
  · have : inDrawState P a = false := by simp [inDrawState]; omega
    rw [if_neg hd, this]
    cases image.reverse.find? fun c => c.1 == a with
    | some v => simp
    | none =>
      by_cases hz : z8b.drawBase ≤ a ∧ a < z8b.drawBase + 0x40
      · simp [hz]
      · have : inDrawState z8b a = false := by simp [inDrawState]; omega
        simp [hz, Mem.byte, unlisted, this]

/-- In the block of Z8B-1.0 a reset with an image of zeros lists nothing. -/
theorem resetMem_z8b : resetMem z8b [] = [] := by decide +kernel

end Sys2Proof.Machine
end

