-- ==== Sys2Proof/Laws/State.lean ====
section
/-! SUPPORT. One lemma per field per update of the state, and the laws of the register file and the
channel file, so that no proof unfolds a record update. -/

namespace Sys2Proof.Machine

variable {nc nr xl : Nat}

@[simp] theorem setReg_x (s : State nc nr xl) (r : Reg) (v : BitVec xl) : (s.setReg r v).x = s.x.setIfInBounds (r.val % nr) v := rfl
@[simp] theorem setReg_pc (s : State nc nr xl) (r : Reg) (v : BitVec xl) : (s.setReg r v).pc = s.pc := rfl
@[simp] theorem setReg_seq (s : State nc nr xl) (r : Reg) (v : BitVec xl) : (s.setReg r v).seq = s.seq := rfl
@[simp] theorem setReg_faultPc (s : State nc nr xl) (r : Reg) (v : BitVec xl) : (s.setReg r v).faultPc = s.faultPc := rfl
@[simp] theorem setReg_faultW (s : State nc nr xl) (r : Reg) (v : BitVec xl) : (s.setReg r v).faultW = s.faultW := rfl
@[simp] theorem setReg_mem (s : State nc nr xl) (r : Reg) (v : BitVec xl) : (s.setReg r v).mem = s.mem := rfl
@[simp] theorem setReg_ch (s : State nc nr xl) (r : Reg) (v : BitVec xl) : (s.setReg r v).ch = s.ch := rfl
@[simp] theorem setReg_cmd (s : State nc nr xl) (r : Reg) (v : BitVec xl) : (s.setReg r v).cmd = s.cmd := rfl
@[simp] theorem setReg_sched (s : State nc nr xl) (r : Reg) (v : BitVec xl) : (s.setReg r v).sched = s.sched := rfl
@[simp] theorem setReg_noiseCount (s : State nc nr xl) (r : Reg) (v : BitVec xl) : (s.setReg r v).noiseCount = s.noiseCount := rfl
@[simp] theorem setReg_out (s : State nc nr xl) (r : Reg) (v : BitVec xl) : (s.setReg r v).out = s.out := rfl

@[simp] theorem advance_x (s : State nc nr xl) : (s.advance).x = s.x := rfl
@[simp] theorem advance_pc (s : State nc nr xl) : (s.advance).pc = s.pc + 1 := rfl
@[simp] theorem advance_seq (s : State nc nr xl) : (s.advance).seq = s.seq := rfl
@[simp] theorem advance_faultPc (s : State nc nr xl) : (s.advance).faultPc = s.faultPc := rfl
@[simp] theorem advance_faultW (s : State nc nr xl) : (s.advance).faultW = s.faultW := rfl
@[simp] theorem advance_mem (s : State nc nr xl) : (s.advance).mem = s.mem := rfl
@[simp] theorem advance_ch (s : State nc nr xl) : (s.advance).ch = s.ch := rfl
@[simp] theorem advance_cmd (s : State nc nr xl) : (s.advance).cmd = s.cmd := rfl
@[simp] theorem advance_sched (s : State nc nr xl) : (s.advance).sched = s.sched := rfl
@[simp] theorem advance_noiseCount (s : State nc nr xl) : (s.advance).noiseCount = s.noiseCount := rfl
@[simp] theorem advance_out (s : State nc nr xl) : (s.advance).out = s.out := rfl

@[simp] theorem setMem_x (s : State nc nr xl) (m : Mem) : (s.setMem m).x = s.x := rfl
@[simp] theorem setMem_pc (s : State nc nr xl) (m : Mem) : (s.setMem m).pc = s.pc := rfl
@[simp] theorem setMem_seq (s : State nc nr xl) (m : Mem) : (s.setMem m).seq = s.seq := rfl
@[simp] theorem setMem_faultPc (s : State nc nr xl) (m : Mem) : (s.setMem m).faultPc = s.faultPc := rfl
@[simp] theorem setMem_faultW (s : State nc nr xl) (m : Mem) : (s.setMem m).faultW = s.faultW := rfl
@[simp] theorem setMem_mem (s : State nc nr xl) (m : Mem) : (s.setMem m).mem = m := rfl
@[simp] theorem setMem_ch (s : State nc nr xl) (m : Mem) : (s.setMem m).ch = s.ch := rfl
@[simp] theorem setMem_cmd (s : State nc nr xl) (m : Mem) : (s.setMem m).cmd = s.cmd := rfl
@[simp] theorem setMem_sched (s : State nc nr xl) (m : Mem) : (s.setMem m).sched = s.sched := rfl
@[simp] theorem setMem_noiseCount (s : State nc nr xl) (m : Mem) : (s.setMem m).noiseCount = s.noiseCount := rfl
@[simp] theorem setMem_out (s : State nc nr xl) (m : Mem) : (s.setMem m).out = s.out := rfl

@[simp] theorem setCh_x (s : State nc nr xl) (k : Fin nc) (c : Channel xl) : (s.setCh k c).x = s.x := rfl
@[simp] theorem setCh_pc (s : State nc nr xl) (k : Fin nc) (c : Channel xl) : (s.setCh k c).pc = s.pc := rfl
@[simp] theorem setCh_seq (s : State nc nr xl) (k : Fin nc) (c : Channel xl) : (s.setCh k c).seq = s.seq := rfl
@[simp] theorem setCh_faultPc (s : State nc nr xl) (k : Fin nc) (c : Channel xl) : (s.setCh k c).faultPc = s.faultPc := rfl
@[simp] theorem setCh_faultW (s : State nc nr xl) (k : Fin nc) (c : Channel xl) : (s.setCh k c).faultW = s.faultW := rfl
@[simp] theorem setCh_mem (s : State nc nr xl) (k : Fin nc) (c : Channel xl) : (s.setCh k c).mem = s.mem := rfl
@[simp] theorem setCh_ch (s : State nc nr xl) (k : Fin nc) (c : Channel xl) : (s.setCh k c).ch = s.ch.set k.val c k.isLt := rfl
@[simp] theorem setCh_cmd (s : State nc nr xl) (k : Fin nc) (c : Channel xl) : (s.setCh k c).cmd = s.cmd := rfl
@[simp] theorem setCh_sched (s : State nc nr xl) (k : Fin nc) (c : Channel xl) : (s.setCh k c).sched = s.sched := rfl
@[simp] theorem setCh_noiseCount (s : State nc nr xl) (k : Fin nc) (c : Channel xl) : (s.setCh k c).noiseCount = s.noiseCount := rfl
@[simp] theorem setCh_out (s : State nc nr xl) (k : Fin nc) (c : Channel xl) : (s.setCh k c).out = s.out := rfl

@[simp] theorem emit_x (s : State nc nr xl) (k : Fin nc) (y : Int) : (s.emit k y).x = s.x := rfl
@[simp] theorem emit_pc (s : State nc nr xl) (k : Fin nc) (y : Int) : (s.emit k y).pc = s.pc := rfl
@[simp] theorem emit_seq (s : State nc nr xl) (k : Fin nc) (y : Int) : (s.emit k y).seq = s.seq := rfl
@[simp] theorem emit_faultPc (s : State nc nr xl) (k : Fin nc) (y : Int) : (s.emit k y).faultPc = s.faultPc := rfl
@[simp] theorem emit_faultW (s : State nc nr xl) (k : Fin nc) (y : Int) : (s.emit k y).faultW = s.faultW := rfl
@[simp] theorem emit_mem (s : State nc nr xl) (k : Fin nc) (y : Int) : (s.emit k y).mem = s.mem := rfl
@[simp] theorem emit_ch (s : State nc nr xl) (k : Fin nc) (y : Int) : (s.emit k y).ch = s.ch := rfl
@[simp] theorem emit_cmd (s : State nc nr xl) (k : Fin nc) (y : Int) : (s.emit k y).cmd = s.cmd := rfl
@[simp] theorem emit_sched (s : State nc nr xl) (k : Fin nc) (y : Int) : (s.emit k y).sched = s.sched := rfl
@[simp] theorem emit_noiseCount (s : State nc nr xl) (k : Fin nc) (y : Int) : (s.emit k y).noiseCount = s.noiseCount := rfl
@[simp] theorem emit_out (s : State nc nr xl) (k : Fin nc) (y : Int) : (s.emit k y).out = { ch := k, sample := BitVec.ofInt 16 y } :: s.out := rfl

@[simp] theorem raiseIllegalCommand_x (s : State nc nr xl) (w : CmdWord) : (raiseIllegalCommand w s).x = s.x := rfl
@[simp] theorem raiseIllegalCommand_pc (s : State nc nr xl) (w : CmdWord) : (raiseIllegalCommand w s).pc = s.pc := rfl
@[simp] theorem raiseIllegalCommand_seq (s : State nc nr xl) (w : CmdWord) : (raiseIllegalCommand w s).seq = .fault := rfl
@[simp] theorem raiseIllegalCommand_faultPc (s : State nc nr xl) (w : CmdWord) : (raiseIllegalCommand w s).faultPc = s.pc := rfl
@[simp] theorem raiseIllegalCommand_faultW (s : State nc nr xl) (w : CmdWord) : (raiseIllegalCommand w s).faultW = w := rfl
@[simp] theorem raiseIllegalCommand_mem (s : State nc nr xl) (w : CmdWord) : (raiseIllegalCommand w s).mem = s.mem := rfl
@[simp] theorem raiseIllegalCommand_ch (s : State nc nr xl) (w : CmdWord) : (raiseIllegalCommand w s).ch = s.ch := rfl
@[simp] theorem raiseIllegalCommand_cmd (s : State nc nr xl) (w : CmdWord) : (raiseIllegalCommand w s).cmd = s.cmd := rfl
@[simp] theorem raiseIllegalCommand_sched (s : State nc nr xl) (w : CmdWord) : (raiseIllegalCommand w s).sched = s.sched := rfl
@[simp] theorem raiseIllegalCommand_noiseCount (s : State nc nr xl) (w : CmdWord) : (raiseIllegalCommand w s).noiseCount = s.noiseCount := rfl
@[simp] theorem raiseIllegalCommand_out (s : State nc nr xl) (w : CmdWord) : (raiseIllegalCommand w s).out = s.out := rfl

@[simp] theorem resetWith_x (s : State nc nr xl) (P : Params) (image : List Host.Cell) : (s.resetWith P image).x = Vector.replicate nr 0 := rfl
@[simp] theorem resetWith_pc (s : State nc nr xl) (P : Params) (image : List Host.Cell) : (s.resetWith P image).pc = 0 := rfl
@[simp] theorem resetWith_seq (s : State nc nr xl) (P : Params) (image : List Host.Cell) : (s.resetWith P image).seq = .run := rfl
@[simp] theorem resetWith_faultPc (s : State nc nr xl) (P : Params) (image : List Host.Cell) : (s.resetWith P image).faultPc = 0 := rfl
@[simp] theorem resetWith_faultW (s : State nc nr xl) (P : Params) (image : List Host.Cell) : (s.resetWith P image).faultW = 0 := rfl
@[simp] theorem resetWith_mem (s : State nc nr xl) (P : Params) (image : List Host.Cell) : (s.resetWith P image).mem = resetMem P image := rfl
@[simp] theorem resetWith_ch (s : State nc nr xl) (P : Params) (image : List Host.Cell) : (s.resetWith P image).ch = Vector.replicate nc Channel.stopped := rfl
@[simp] theorem resetWith_cmd (s : State nc nr xl) (P : Params) (image : List Host.Cell) : (s.resetWith P image).cmd = none := rfl
@[simp] theorem resetWith_sched (s : State nc nr xl) (P : Params) (image : List Host.Cell) : (s.resetWith P image).sched = s.sched := rfl
@[simp] theorem resetWith_noiseCount (s : State nc nr xl) (P : Params) (image : List Host.Cell) : (s.resetWith P image).noiseCount = s.noiseCount := rfl
@[simp] theorem resetWith_out (s : State nc nr xl) (P : Params) (image : List Host.Cell) : (s.resetWith P image).out = s.out := rfl

/-- A register of the file (R8, R21). -/
theorem regAt_eq_getElem (s : State nc nr xl) (h : 0 < nr) (k : Nat) : s.regAt k = s.x[k % nr]'(Nat.mod_lt k h) := by
  simp [State.regAt, h]

/-- A register after one is written: its own place has the value, every other place is left alone (R8, R21, R98). -/
theorem regAt_setReg (s : State nc nr xl) (h : 0 < nr) (r : Reg) (v : BitVec xl) (k : Nat) :
    (s.setReg r v).regAt k = if k % nr = r.val % nr then v else s.regAt k := by
  rw [regAt_eq_getElem _ h, regAt_eq_getElem _ h]
  by_cases e : k % nr = r.val % nr
  · simp [State.setReg, e]
  · simp [State.setReg, e, Ne.symm e]

/-- In a file of 16 registers each number has its own place (R21). -/
theorem reg_eq_get (s : State nc 16 xl) (r : Reg) : s.reg r = s.x.get r := by
  rw [State.reg, regAt_eq_getElem _ (by decide), Vector.get_eq_getElem]
  simp only [Nat.mod_eq_of_lt r.isLt]

/-- A register reads back what was written to it (R21: no register is hard-wired). -/
@[simp] theorem reg_setReg_self (s : State nc 16 xl) (r : Reg) (v : BitVec xl) : (s.setReg r v).reg r = v := by
  rw [State.reg, regAt_setReg _ (by decide), if_pos rfl]

/-- Writing one register leaves the others alone. -/
theorem reg_setReg_of_ne (s : State nc 16 xl) {r r' : Reg} (v : BitVec xl) (h : r' ≠ r) :
    (s.setReg r v).reg r' = s.reg r' := by
  rw [State.reg, regAt_setReg _ (by decide), if_neg, State.reg]
  rw [Nat.mod_eq_of_lt r.isLt, Nat.mod_eq_of_lt r'.isLt]
  exact fun e => h (Fin.ext e)

/-- Registers are read from `x` alone. -/
theorem regAt_congr {s t : State nc nr xl} (h : t.x = s.x) (k : Nat) : t.regAt k = s.regAt k := by simp [State.regAt, h]

theorem reg_congr {s t : State nc nr xl} (h : t.x = s.x) (r : Reg) : t.reg r = s.reg r := regAt_congr h r.val

@[simp] theorem reg_advance (s : State nc nr xl) (r : Reg) : s.advance.reg r = s.reg r := rfl
@[simp] theorem reg_setMem (s : State nc nr xl) (m : Mem) (r : Reg) : (s.setMem m).reg r = s.reg r := rfl
@[simp] theorem reg_setCh (s : State nc nr xl) (k : Fin nc) (c : Channel xl) (r : Reg) : (s.setCh k c).reg r = s.reg r := rfl
@[simp] theorem reg_emit (s : State nc nr xl) (k : Fin nc) (y : Int) (r : Reg) : (s.emit k y).reg r = s.reg r := rfl

/-- A channel reads back what was written to it. -/
@[simp] theorem ch_setCh_self (s : State nc nr xl) (k : Fin nc) (c : Channel xl) : (s.setCh k c).ch.get k = c := by
  simp [State.setCh, Vector.get_eq_getElem]

/-- Writing one channel leaves the others alone (R200). -/
theorem ch_setCh_of_ne (s : State nc nr xl) {k k' : Fin nc} (c : Channel xl) (h : k' ≠ k) :
    (s.setCh k c).ch.get k' = s.ch.get k' := by
  have : k.val ≠ k'.val := fun e => h (Fin.ext e.symm)
  simp [State.setCh, Vector.get_eq_getElem, this]

/-- SEQ as the host reads it (R24). -/
@[simp] theorem code_run : SeqStatus.run.code = 0 := rfl
@[simp] theorem code_done : SeqStatus.done.code = 1 := rfl
@[simp] theorem code_fault : SeqStatus.fault.code = 2 := rfl

/-- The codes tell the three values apart (R24). -/
theorem code_inj {q q' : SeqStatus} : q.code = q'.code ↔ q = q' := by cases q <;> cases q' <;> decide

@[simp] theorem hostView_x (s : State nc nr xl) : s.hostView.x = s.x := rfl
@[simp] theorem hostView_pc (s : State nc nr xl) : s.hostView.pc = s.pc := rfl
@[simp] theorem hostView_seq (s : State nc nr xl) : s.hostView.seq = s.seq.code := rfl
@[simp] theorem hostView_faultPc (s : State nc nr xl) : s.hostView.faultPc = s.faultPc := rfl
@[simp] theorem hostView_faultW (s : State nc nr xl) : s.hostView.faultW = s.faultW := rfl
@[simp] theorem hostView_ch (s : State nc nr xl) (k : Fin nc) : s.hostView.ch.get k = (s.ch.get k).view := by
  simp [State.hostView, Vector.get_eq_getElem]

/-- A channel changed is a channel written, when the number names one (R203). -/
theorem modifyCh_of_eq (s : State nc nr xl) {k : Fin nc} {i : Int} (h : (k.val : Int) = i) (f : Channel xl → Channel xl) :
    s.modifyCh i f = s.setCh k (f (s.ch.get k)) := by
  subst h; simp [State.modifyCh]

theorem modifyCh_of_not (s : State nc nr xl) {i : Int} (h : ∀ k : Fin nc, (k.val : Int) ≠ i) (f : Channel xl → Channel xl) :
    s.modifyCh i f = s := by
  unfold State.modifyCh
  split
  · next hi => exact absurd (Int.toNat_of_nonneg hi.1) (h ⟨i.toNat, hi.2⟩)
  · rfl

/-- Every channel after one is changed (R203). -/
theorem ch_modifyCh (s : State nc nr xl) (i : Int) (f : Channel xl → Channel xl) (k : Fin nc) :
    (s.modifyCh i f).ch.get k = if (k.val : Int) = i then f (s.ch.get k) else s.ch.get k := by
  by_cases h : ∃ j : Fin nc, (j.val : Int) = i
  · obtain ⟨j, rfl⟩ := h
    rw [modifyCh_of_eq s rfl]
    by_cases hk : k = j
    · subst hk; rw [ch_setCh_self, if_pos rfl]
    · rw [ch_setCh_of_ne s _ hk, if_neg]
      exact fun e => hk (Fin.ext (by omega))
  · rw [modifyCh_of_not s (fun j e => h ⟨j, e⟩), if_neg fun e => h ⟨k, e⟩]

/-- A channel command touches the channel file alone (R203). -/
theorem modifyCh_eq (s : State nc nr xl) (i : Int) (f : Channel xl → Channel xl) :
    s.modifyCh i f = { s with ch := (s.modifyCh i f).ch } := by
  unfold State.modifyCh; split <;> rfl

@[simp] theorem modifyCh_x (s : State nc nr xl) (i : Int) (f : Channel xl → Channel xl) : (s.modifyCh i f).x = s.x := by rw [modifyCh_eq]
@[simp] theorem modifyCh_pc (s : State nc nr xl) (i : Int) (f : Channel xl → Channel xl) : (s.modifyCh i f).pc = s.pc := by rw [modifyCh_eq]
@[simp] theorem modifyCh_seq (s : State nc nr xl) (i : Int) (f : Channel xl → Channel xl) : (s.modifyCh i f).seq = s.seq := by rw [modifyCh_eq]
@[simp] theorem modifyCh_faultPc (s : State nc nr xl) (i : Int) (f : Channel xl → Channel xl) : (s.modifyCh i f).faultPc = s.faultPc := by rw [modifyCh_eq]
@[simp] theorem modifyCh_faultW (s : State nc nr xl) (i : Int) (f : Channel xl → Channel xl) : (s.modifyCh i f).faultW = s.faultW := by rw [modifyCh_eq]
@[simp] theorem modifyCh_mem (s : State nc nr xl) (i : Int) (f : Channel xl → Channel xl) : (s.modifyCh i f).mem = s.mem := by rw [modifyCh_eq]
@[simp] theorem modifyCh_cmd (s : State nc nr xl) (i : Int) (f : Channel xl → Channel xl) : (s.modifyCh i f).cmd = s.cmd := by rw [modifyCh_eq]
@[simp] theorem modifyCh_sched (s : State nc nr xl) (i : Int) (f : Channel xl → Channel xl) : (s.modifyCh i f).sched = s.sched := by rw [modifyCh_eq]
@[simp] theorem modifyCh_noiseCount (s : State nc nr xl) (i : Int) (f : Channel xl → Channel xl) : (s.modifyCh i f).noiseCount = s.noiseCount := by rw [modifyCh_eq]
@[simp] theorem modifyCh_out (s : State nc nr xl) (i : Int) (f : Channel xl → Channel xl) : (s.modifyCh i f).out = s.out := by rw [modifyCh_eq]

/-- The machine after reset is a reset with the all-zero image and nothing around it, and the block of Z8B-1.0 after
its reset. -/
theorem reset_eq_resetWith : State.reset = State.reset.resetWith z8b [] := by
  rw [State.resetWith, resetMem_z8b]; rfl

theorem reset_eq_resetIn : State.reset = State.resetIn z8b := by
  show State.reset = { State.reset with mem := resetMem z8b [] }
  rw [resetMem_z8b]; rfl

end Sys2Proof.Machine
end

