-- ==== Sys2Proof/Laws/Ops.lean ====
section
/-! SUPPORT. What each shared operation can do, said once: the provers cite these instead of unfolding
the operations. -/

namespace Sys2Proof.Machine

variable {nc nr xl : Nat}

/-- `retire` completes and moves `pc` on by one. -/
theorem retire_eq (s : State nc nr xl) : retire s = .next s.advance := rfl

/-- `retire` answers one state only. -/
theorem retire_next {s t : State nc nr xl} : retire s = .next t ↔ t = s.advance := by
  simp [retire_eq, eq_comm]

/-- `writeBack` completes with the register written. -/
theorem writeBack_eq (rd : Reg) (v : BitVec xl) (s : State nc nr xl) : writeBack rd v s = .next (s.setReg rd v).advance := rfl

/-- Every byte after a store under the policy `ignore` (R61). -/
theorem byte_store {P : Params} (hP : P.oobPolicy = .ignore) {s : State nc nr xl} (h : s.mem.wf P.memSize = true)
    (a n v a' : Nat) :
    (s.store P a n v).mem.byte a' =
      if a ≤ a' ∧ a' < a + n ∧ a' < P.memSize then BitVec.ofNat 8 (v / 256 ^ (a' - a)) else s.mem.byte a' :=
  byte_memWrite hP h a n v a'

/-- A store keeps the canonical form. -/
theorem store_wf {P : Params} (h0 : 0 < P.memSize) {s : State nc nr xl} (h : s.mem.wf P.memSize = true) (a n v : Nat) :
    (s.store P a n v).mem.wf P.memSize = true :=
  memWrite_wf h0 h a n v

/-! The values of Z8B-1.0, row by row of R5. The brackets keep them from being rewritten by definition, which would leave
the test of an `if` and its decision apart. -/

@[simp] theorem z8b_xlen : z8b.xlen = 32 := (rfl)
@[simp] theorem z8b_nReg : z8b.nReg = 16 := (rfl)
@[simp] theorem z8b_memSize : z8b.memSize = 0x8000 := (rfl)
@[simp] theorem z8b_oobPolicy : z8b.oobPolicy = .ignore := (rfl)
@[simp] theorem z8b_gfxBase : z8b.gfxBase = 0 := (rfl)
@[simp] theorem z8b_map2Base : z8b.map2Base = 0x1000 := (rfl)
@[simp] theorem z8b_mapBase : z8b.mapBase = 0x2000 := (rfl)
@[simp] theorem z8b_flagsBase : z8b.flagsBase = 0x3000 := (rfl)
@[simp] theorem z8b_sfxBase : z8b.sfxBase = 0x3200 := (rfl)
@[simp] theorem z8b_drawBase : z8b.drawBase = 0x5f00 := (rfl)
@[simp] theorem z8b_screenBase : z8b.screenBase = 0x6000 := (rfl)
@[simp] theorem z8b_screenW : z8b.screenW = 128 := (rfl)
@[simp] theorem z8b_screenH : z8b.screenH = 128 := (rfl)
@[simp] theorem z8b_sheetW : z8b.sheetW = 128 := (rfl)
@[simp] theorem z8b_sheetH : z8b.sheetH = 128 := (rfl)
@[simp] theorem z8b_spritePx : z8b.spritePx = 8 := (rfl)
@[simp] theorem z8b_mapW : z8b.mapW = 128 := (rfl)
@[simp] theorem z8b_mapH : z8b.mapH = 64 := (rfl)
@[simp] theorem z8b_transpOnPrimitives : z8b.transpOnPrimitives = false := (rfl)
@[simp] theorem z8b_nChan : z8b.nChan = 4 := (rfl)
@[simp] theorem z8b_nSfx : z8b.nSfx = 64 := (rfl)
@[simp] theorem z8b_nNote : z8b.nNote = 32 := (rfl)
@[simp] theorem z8b_sampleRate : z8b.sampleRate = 22050 := (rfl)
@[simp] theorem z8b_phaseStep : z8b.phaseStep = phaseStepZ8b := (rfl)
@[simp] theorem z8b_wave : z8b.wave = waveZ8b := (rfl)
@[simp] theorem z8b_voltab : z8b.voltab = voltabZ8b := (rfl)
@[simp] theorem z8b_slew : z8b.slew = 0x400 := (rfl)
@[simp] theorem z8b_ostep : z8b.ostep = ostepZ8b := (rfl)

/-- The rules are written for the parameters of Z8B-1.0 (R5). -/
theorem z8b_fits : Fits z8b where
  xlen := by decide
  nReg := by decide
  image := by decide
  drawState := by decide
  screen := by decide
  sheet := by decide
  mapUpper := by decide
  mapLower := by decide
  shared := rfl
  flags := by decide
  sfx := by decide
  evenRows := by decide
  screenApart := by simp; omega
  notes := by decide
  slew := by decide
  voltab := by decide

/-- The memory after reset is canonical. -/
theorem reset_mem_wf : State.reset.mem.wf z8b.memSize = true := rfl

/-- A store touches no field but MEM. -/
@[simp] theorem store_x (P : Params) (s : State nc nr xl) (a n v : Nat) : (s.store P a n v).x = s.x := rfl
@[simp] theorem store_pc (P : Params) (s : State nc nr xl) (a n v : Nat) : (s.store P a n v).pc = s.pc := rfl
@[simp] theorem store_seq (P : Params) (s : State nc nr xl) (a n v : Nat) : (s.store P a n v).seq = s.seq := rfl
@[simp] theorem store_ch (P : Params) (s : State nc nr xl) (a n v : Nat) : (s.store P a n v).ch = s.ch := rfl
@[simp] theorem store_cmd (P : Params) (s : State nc nr xl) (a n v : Nat) : (s.store P a n v).cmd = s.cmd := rfl
@[simp] theorem store_mem (P : Params) (s : State nc nr xl) (a n v : Nat) : (s.store P a n v).mem = memWrite P s.mem a n v := rfl

/-- One byte, loaded (R61). -/
theorem load_one {P : Params} (hP : P.oobPolicy = .ignore) (s : State nc nr xl) (a : Nat) :
    s.load P a 1 = (if a < P.memSize then s.mem.byte a else 0).toNat := by
  show (readByte P s.mem a).toNat + 256 * 0 = _
  rw [Nat.mul_zero, Nat.add_zero, readByte_ignore hP]

/-! The fixed-point format of Z8B-1.0 (R6), in brackets as above, and the conversions of R9 in it. -/

@[simp] theorem fracBits_word : fracBits 32 = 16 := (rfl)
@[simp] theorem fixOne_word : fixOne 32 = 65536 := (rfl)
@[simp] theorem maxWord_word : maxWord 32 = 0x7FFFFFFF := (rfl)

/-- The integer half has the bits that the fraction half leaves. -/
theorem two_pow_fracBits (xl : Nat) : 2 ^ xl = 2 ^ fracBits xl * 2 ^ (xl - fracBits xl) := by
  rw [← Nat.pow_add]; congr 1; unfold fracBits; omega

theorem fixOne_pos (xl : Nat) : 0 < fixOne xl := Nat.two_pow_pos _

/-- 1.0 is a positive word of three bits or more (R6, R216). -/
theorem two_mul_fixOne_lt (h : 3 ≤ xl) : 2 * fixOne xl < 2 ^ xl := by
  rw [two_pow_fracBits xl, Nat.mul_comm]
  have : 2 ^ 1 < 2 ^ (xl - fracBits xl) := Nat.pow_lt_pow_right (by decide) (by unfold fracBits; omega)
  exact (Nat.mul_lt_mul_left (Nat.two_pow_pos _)).2 this

/-- `upart` is the upper half (R9), in a word of any length. -/
theorem upart_eq_div_fixOne (v : BitVec xl) : upart v = v.toNat / fixOne xl := by
  rw [upart, BitVec.extractLsb'_toNat, Nat.shiftRight_eq_div_pow, Nat.mod_eq_of_lt]
  · rfl
  · rw [Nat.div_lt_iff_lt_mul (Nat.two_pow_pos _), Nat.mul_comm, ← two_pow_fracBits]; exact v.isLt

/-- `ipart` rounds toward minus infinity (R9), in a word of any length. -/
theorem ipart_eq_ediv_fixOne (v : BitVec xl) : ipart v = v.toInt / fixOne xl := by
  rcases Nat.eq_zero_or_pos xl with rfl | h0
  · simp [ipart, fracBits, BitVec.eq_nil v]
  obtain ⟨k, hk⟩ : ∃ k, 2 ^ (xl - fracBits xl) = 2 * k :=
    ⟨2 ^ (xl - fracBits xl - 1), by rw [← Nat.pow_succ']; congr 1; unfold fracBits; omega⟩
  have hu : (v.extractLsb' (fracBits xl) (xl - fracBits xl)).toNat = v.toNat / fixOne xl := upart_eq_div_fixOne v
  have hp : 0 < fixOne xl := Nat.two_pow_pos _
  have hx : 2 ^ xl = fixOne xl * (2 * k) := by rw [← hk]; exact two_pow_fracBits xl
  have hneg : 2 * (v.toNat / fixOne xl) < 2 * k ↔ 2 * v.toNat < fixOne xl * (2 * k) := by
    rw [Nat.mul_lt_mul_left (by decide), Nat.div_lt_iff_lt_mul hp,
      show fixOne xl * (2 * k) = 2 * (k * fixOne xl) by ring, Nat.mul_lt_mul_left (by decide)]
  rw [ipart, BitVec.toInt_eq_toNat_cond, BitVec.toInt_eq_toNat_cond, hu, hk, hx]
  simp only [hneg]
  split
  · simp
  · push_cast
    rw [Int.sub_mul_ediv_left _ _ (by exact_mod_cast hp.ne')]

/-- The two in the words of Z8B-1.0. -/
theorem ipart_eq_ediv (v : Word) : ipart v = v.toInt / 65536 := by simp [ipart_eq_ediv_fixOne]

theorem upart_eq_div (v : Word) : upart v = v.toNat / 65536 := by simp [upart_eq_div_fixOne]

/-- A byte value is bits [23:16] (R141). -/
theorem byteOf_word (v : Word) : byteOf v = v.extractLsb' 16 8 := rfl

/-- LIH's word: the immediate in the upper half (R121). -/
theorem lih_word (imm : BitVec 16) : BitVec.ofNat 32 (imm.toNat * fixOne 32) = imm ++ 0#16 := by
  apply BitVec.eq_of_toNat_eq
  rw [BitVec.toNat_append, ← Nat.shiftLeft_add_eq_or_of_lt (0#16).isLt, Nat.shiftLeft_eq]
  simp; omega

/-- PEEK's word: the byte in bits [23:16] (R140). -/
theorem toNat_peek_word (b : Byte) : (BitVec.ofNat 32 (b.toNat * fixOne 32)).toNat = b.toNat * 65536 := by
  have := b.isLt
  rw [fixOne_word, BitVec.toNat_ofNat]; omega

/-- `fx(n) = (n mod 65536) << 16` (R9). -/
theorem toNat_fx (n : Nat) : (fx n : Word).toNat = n % 65536 * 65536 := by
  rw [fx, fixOne_word, BitVec.toNat_ofInt]; omega

/-- LIL's word: the upper half and the immediate (R122). -/
theorem lil_word (v : Word) (imm : BitVec 16) :
    BitVec.ofNat 32 (upart v * fixOne 32 + imm.toNat % fixOne 32) = v.extractLsb' 16 16 ++ imm := by
  apply BitVec.eq_of_toNat_eq
  rw [BitVec.toNat_append, ← Nat.shiftLeft_add_eq_or_of_lt imm.isLt, Nat.shiftLeft_eq, BitVec.extractLsb'_toNat,
    Nat.shiftRight_eq_div_pow, upart_eq_div]
  simp; omega

/-- MUL in the words of Z8B-1.0 (R126). -/
theorem fxmul_word (a b : Word) : fxmul a b = BitVec.ofInt 32 (a.toInt * b.toInt / 65536) := by
  simp [fxmul, wrap, fdiv, s32]

/-- The values DIV saturates to (R127). -/
theorem divSaturated_word (a b : Word) : divSaturated a b = if a.msb = b.msb then 0x7FFFFFFF else 0x80000001 := rfl

/-- DIV in the words of Z8B-1.0 (R127). -/
theorem fxdiv_word (a b : Word) :
    fxdiv a b =
      if b = 0x00010000 then a
      else if b = 0 then divSaturated a b
      else if -0x7FFFFFFF ≤ Int.tdiv (a.toInt * 65536) b.toInt ∧ Int.tdiv (a.toInt * 65536) b.toInt ≤ 0x7FFFFFFF then
        BitVec.ofInt 32 (Int.tdiv (a.toInt * 65536) b.toInt)
      else divSaturated a b := by
  simp [fxdiv, quotientFits, tdiv, s32, wrap]

/-- Operand i is x[(ra + i) mod 16] (R98). -/
theorem vop_eq (s : State nc 16 xl) (ra : Reg) (i : Nat) :
    s.vop ra i = s.x.get ⟨(ra.val + i) % 16, Nat.mod_lt _ (by decide)⟩ := by
  rw [State.vop, regAt_eq_getElem _ (by decide), Vector.get_eq_getElem]

/-- Operand i as an integer (R98, R103). -/
theorem vint_eq (s : State nc) (ra : Reg) (i : Nat) :
    s.vint ra i = (s.x.get ⟨(ra.val + i) % 16, Nat.mod_lt _ (by decide)⟩).toInt / 65536 := by
  rw [State.vint, ipart_eq_ediv, vop_eq]

/-- Operand i as an integer in a block with any number of registers and any length of word (R5, R98, R103). -/
theorem vint_eq_ediv (s : State nc nr xl) (h : 0 < nr) (ra : Reg) (i : Nat) :
    s.vint ra i = (s.x[(ra.val + i) % nr]'(Nat.mod_lt _ h)).toInt / 2 ^ (xl / 2) := by
  rw [State.vint, State.vop, regAt_eq_getElem s h]
  simp [ipart_eq_ediv_fixOne, fixOne, fracBits]

/-- A 16-bit quantity of MEM, read signed (R33, R62). -/
theorem toInt_half (m : Mem) (a : Nat) :
    (m.half a).toInt =
      if (m.byte (a + 1)).toNat < 128 then 256 * ((m.byte (a + 1)).toNat : Int) + (m.byte a).toNat
      else 256 * ((m.byte (a + 1)).toNat : Int) + (m.byte a).toNat - 65536 := by
  have h1 := (m.byte (a + 1)).isLt
  have h0 := (m.byte a).isLt
  have h : (m.half a).toNat = (m.byte (a + 1)).toNat * 256 + (m.byte a).toNat := by
    rw [Mem.half, BitVec.toNat_append, ← Nat.shiftLeft_add_eq_or_of_lt h0, Nat.shiftLeft_eq]
  rw [BitVec.toInt_eq_toNat_cond, h]
  split <;> split <;> omega

/-- HOST's write, in range (R76). -/
theorem hostWrite_next {a : Nat} {b : Byte} {s t : State nc nr xl} {P : Params} (h : hostWrite P a b s = .next t) :
    s.hostMayWrite = true ∧ t = if a < P.memSize then s.setMem (s.mem.put a b) else s := by
  unfold hostWrite at h
  split at h
  · next hm => exact ⟨hm, by simpa using h.symm⟩
  · cases h

/-- HOST's launch (R263). -/
theorem hostLaunch_next {l : List CmdWord} {s t : State nc nr xl} (h : hostLaunch l s = .next t) :
    s.cmd = none ∧ t = { s with cmd := some l } := by
  unfold hostLaunch at h
  split at h
  · next hc => exact ⟨hc, by simpa using h.symm⟩
  · cases h

/-- The floor of an integer in a range is where the loop `for x = lo .. hi` says. -/
@[simp] theorem mem_intRange {lo hi x : Int} : x ∈ intRange lo hi ↔ lo ≤ x ∧ x ≤ hi := by
  simp only [intRange, List.mem_map, List.mem_range]
  constructor
  · rintro ⟨k, hk, rfl⟩; omega
  · rintro ⟨h1, h2⟩; exact ⟨(x - lo).toNat, by omega, by omega⟩

/-- SEQ's turn, said in the two ways it can come about (assumption 1). -/
theorem takeTurn_nil {s : State nc nr xl} (h : s.sched = []) : takeTurn s = (.seq, s) := by simp [takeTurn, h]

theorem takeTurn_cons {s : State nc nr xl} {mv : Move nc} {rest : List (Move nc)} (h : s.sched = mv :: rest) :
    takeTurn s = (mv, { s with sched := rest }) := by simp [takeTurn, h]

/-- Whoever's turn it is, only the schedule is touched by taking it. -/
theorem takeTurn_state (s : State nc nr xl) : ∃ rest, (takeTurn s).2 = { s with sched := rest } := by
  unfold takeTurn
  split
  · next h => exact ⟨[], by rw [← h]⟩
  · next rest _ => exact ⟨rest, rfl⟩

/-- WHAT A SEQ STEP CAN BE (R232): it executes a decoded command, takes the exception, or does not
exist. -/
theorem seqStep_cases (run : Instr → State nc nr xl → Result nc nr xl) (s : State nc nr xl) :
    (∃ r, fetch s = .error r ∧ seqStep run s = .fault r) ∨
    (∃ w i, fetch s = .ok w ∧ decode w = .ok i ∧ seqStep run s = run i s) ∨
    (∃ w e, fetch s = .ok w ∧ decode w = .error e ∧ seqStep run s = .next (raiseIllegalCommand w s)) := by
  rcases hf : fetch s with r | w
  · exact .inl ⟨r, rfl, by simp [seqStep, hf]⟩
  · rcases hd : decode w with e | i
    · exact .inr (.inr ⟨w, e, rfl, hd, by simp [seqStep, hf, runWord, hd]⟩)
    · exact .inr (.inl ⟨w, i, rfl, hd, by simp [seqStep, hf, runWord, hd]⟩)

/-- The block of Z8B-1.0 among the blocks with parameters (R5): the same commands, ticks and steps. -/
theorem execIn_z8b : execIn z8b = exec := by
  funext i s; cases i <;> rfl

theorem stepIn_z8b : stepIn z8b = step := by
  funext s
  show perform z8b (execIn z8b) (takeTurn (nc := 4) (nr := 16) (xl := 32) s).1 (takeTurn (nc := 4) (nr := 16) (xl := 32) s).2 = _
  rw [execIn_z8b]; rfl

/-- SEQ fetches exactly when a list is launched, SEQ = RUN and pc < NCMD (R232). -/
theorem fetch_ok {s : State nc nr xl} {w : CmdWord} :
    fetch s = .ok w ↔ ∃ list, s.cmd = some list ∧ s.seq = .run ∧ list[s.pc]? = some w := by
  unfold fetch
  cases hc : s.cmd with
  | none => simp
  | some list =>
    cases hs : s.seq with
    | done => simp
    | fault => simp
    | run => cases hw : list[s.pc]? <;> simp_all

end Sys2Proof.Machine
end

