-- ==== Sys2Proof/Laws/Audio.lean ====
section
/-! SUPPORT. The laws of the audio tick: what it touches, and the bounds of the envelope. -/

namespace Sys2Proof.Machine

variable {nc nr xl : Nat}

/-- The bytes of a sound effect lie in the image (R67, R201). -/
theorem sfxByte_lt {P : Params} (hP : Fits P) {n k : Nat} (hn : n < P.nSfx) (hk : k < sfxBytes P) :
    sfxAddr P n + k < P.memSize := by
  have h := hP.sfx
  have : sfxBytes P * (n + 1) ≤ sfxBytes P * P.nSfx := Nat.mul_le_mul_left _ hn
  rw [Nat.mul_add] at this
  unfold sfxAddr
  unfold sfxBytes at *
  omega

/-! WAVE, id by id (R206): to rewrite with, since `waveZ8b` is slow to unfold inside an inequality. -/

theorem waveZ8b_triangle (p : BitVec 32) (draw : Int) : waveZ8b 0 p draw = waveTriangle (p.extractLsb' 0 16).toNat := by simp [waveZ8b]
theorem waveZ8b_tiltedSaw (p : BitVec 32) (draw : Int) : waveZ8b 1 p draw = waveTiltedSaw (p.extractLsb' 0 16).toNat := by simp [waveZ8b]
theorem waveZ8b_saw (p : BitVec 32) (draw : Int) : waveZ8b 2 p draw = waveSaw (p.extractLsb' 0 16).toNat := by simp [waveZ8b]
theorem waveZ8b_square (p : BitVec 32) (draw : Int) : waveZ8b 3 p draw = waveSquare (p.extractLsb' 0 16).toNat := by simp [waveZ8b]
theorem waveZ8b_pulse (p : BitVec 32) (draw : Int) : waveZ8b 4 p draw = wavePulse (p.extractLsb' 0 16).toNat := by simp [waveZ8b]
theorem waveZ8b_organ (p : BitVec 32) (draw : Int) : waveZ8b 5 p draw = waveOrgan (p.extractLsb' 0 16).toNat := by simp [waveZ8b]
theorem waveZ8b_noise (p : BitVec 32) (draw : Int) : waveZ8b 6 p draw = draw := by simp [waveZ8b]
theorem waveZ8b_phaser (p : BitVec 32) (draw : Int) : waveZ8b 7 p draw = wavePhaser (p.extractLsb' 0 16).toNat (p.extractLsb' 7 16).toNat := by simp [waveZ8b]

/-- The eight waveform ids. -/
theorem waveId_cases (id : BitVec 3) :
    id = 0 ∨ id = 1 ∨ id = 2 ∨ id = 3 ∨ id = 4 ∨ id = 5 ∨ id = 6 ∨ id = 7 := by
  revert id; decide

/-- The note index is the offset truncated (R204, R205), in a block with words of any length and in Z8B-1.0. -/
theorem noteIndex_eq_div_fixOne (c : Channel xl) : c.noteIndex = c.offset.toNat / fixOne xl := upart_eq_div_fixOne _

theorem noteIndex_eq_div (c : Channel) : c.noteIndex = c.offset.toNat / 65536 := upart_eq_div _

/-- A silent channel's tick (R204). -/
theorem tickIn_silent (P : Params) {s : State nc nr xl} {ch : Fin nc} (h : (s.ch.get ch).sfx = none) :
    tickIn P ch s = s.emit ch 0 := by
  simp [tickIn, h]

/-- A playing channel's tick (R204). -/
theorem tickIn_playing (P : Params) {s : State nc nr xl} {ch : Fin nc} {n : Nat} (h : (s.ch.get ch).sfx = some n) :
    tickIn P ch s = tickPlaying P ch n s := by
  simp [tickIn, h]

/-- The tick of Z8B-1.0 among the ticks of blocks with parameters (R5). -/
@[simp] theorem tickIn_z8b (ch : Fin nc) (s : State nc nr xl) : tickIn z8b ch s = tick ch s := rfl

theorem tick_silent {s : State nc nr xl} {ch : Fin nc} (h : (s.ch.get ch).sfx = none) : tick ch s = s.emit ch 0 :=
  tickIn_silent z8b h

theorem tick_playing {s : State nc nr xl} {ch : Fin nc} {n : Nat} (h : (s.ch.get ch).sfx = some n) :
    tick ch s = tickPlaying z8b ch n s :=
  tickIn_playing z8b h

@[simp] theorem tickIn_x (P : Params) (ch : Fin nc) (s : State nc nr xl) : (tickIn P ch s).x = s.x := by unfold tickIn; split <;> rfl
@[simp] theorem tickIn_pc (P : Params) (ch : Fin nc) (s : State nc nr xl) : (tickIn P ch s).pc = s.pc := by unfold tickIn; split <;> rfl
@[simp] theorem tickIn_seq (P : Params) (ch : Fin nc) (s : State nc nr xl) : (tickIn P ch s).seq = s.seq := by unfold tickIn; split <;> rfl
@[simp] theorem tickIn_faultPc (P : Params) (ch : Fin nc) (s : State nc nr xl) : (tickIn P ch s).faultPc = s.faultPc := by unfold tickIn; split <;> rfl
@[simp] theorem tickIn_faultW (P : Params) (ch : Fin nc) (s : State nc nr xl) : (tickIn P ch s).faultW = s.faultW := by unfold tickIn; split <;> rfl
@[simp] theorem tickIn_mem (P : Params) (ch : Fin nc) (s : State nc nr xl) : (tickIn P ch s).mem = s.mem := by unfold tickIn; split <;> rfl
@[simp] theorem tickIn_cmd (P : Params) (ch : Fin nc) (s : State nc nr xl) : (tickIn P ch s).cmd = s.cmd := by unfold tickIn; split <;> rfl
@[simp] theorem tickIn_sched (P : Params) (ch : Fin nc) (s : State nc nr xl) : (tickIn P ch s).sched = s.sched := by unfold tickIn; split <;> rfl

@[simp] theorem tick_x (ch : Fin nc) (s : State nc nr xl) : (tick ch s).x = s.x := tickIn_x z8b ch s
@[simp] theorem tick_pc (ch : Fin nc) (s : State nc nr xl) : (tick ch s).pc = s.pc := tickIn_pc z8b ch s
@[simp] theorem tick_seq (ch : Fin nc) (s : State nc nr xl) : (tick ch s).seq = s.seq := tickIn_seq z8b ch s
@[simp] theorem tick_faultPc (ch : Fin nc) (s : State nc nr xl) : (tick ch s).faultPc = s.faultPc := tickIn_faultPc z8b ch s
@[simp] theorem tick_faultW (ch : Fin nc) (s : State nc nr xl) : (tick ch s).faultW = s.faultW := tickIn_faultW z8b ch s
@[simp] theorem tick_mem (ch : Fin nc) (s : State nc nr xl) : (tick ch s).mem = s.mem := tickIn_mem z8b ch s
@[simp] theorem tick_cmd (ch : Fin nc) (s : State nc nr xl) : (tick ch s).cmd = s.cmd := tickIn_cmd z8b ch s
@[simp] theorem tick_sched (ch : Fin nc) (s : State nc nr xl) : (tick ch s).sched = s.sched := tickIn_sched z8b ch s

/-- A tick leaves the other channels alone (R200). -/
theorem tickIn_ch_of_ne (P : Params) {ch k : Fin nc} (h : k ≠ ch) (s : State nc nr xl) :
    (tickIn P ch s).ch.get k = s.ch.get k := by
  unfold tickIn
  split
  · rfl
  · exact ch_setCh_of_ne s _ h

theorem tick_ch_of_ne {ch k : Fin nc} (h : k ≠ ch) (s : State nc nr xl) : (tick ch s).ch.get k = s.ch.get k :=
  tickIn_ch_of_ne z8b h s

/-- `clamp` lands in its range. -/
theorem clamp_range {n lo hi : Int} (h : lo ≤ hi) : lo ≤ clamp n lo hi ∧ clamp n lo hi ≤ hi := by
  unfold clamp; omega

/-- Every entry of the pitch table is the nearest integer that R215 gives as its origin. -/
theorem phaseStepZ8b_nearest (key : BitVec 6) : nearestPhaseStep z8b.sampleRate key.toNat (phaseStepZ8b key) = true := by
  revert key; decide

/-- The volume table lies in 0 .. 1.0 (R216). -/
theorem voltabZ8b_range (vol : BitVec 3) : 0 ≤ voltabZ8b vol ∧ voltabZ8b vol ≤ 65536 := by
  have := vol.isLt
  simp only [voltabZ8b, fdiv]; omega

/-- The slewed volume stays between the two it moves between (R216). -/
theorem slewedVolume_range {P : Params} (hP : 0 ≤ P.slew) {one prev target : Int} (h0 : 0 ≤ prev) (h1 : prev ≤ one)
    (ht0 : 0 ≤ target) (ht1 : target ≤ one) :
    0 ≤ slewedVolume P prev target ∧ slewedVolume P prev target ≤ one := by
  unfold slewedVolume clamp; omega

/-- The offset step is at least 1 (R218). -/
theorem ostepZ8b_pos (key : BitVec 6) {spd : Nat} (h1 : 1 ≤ spd) (h2 : spd ≤ 255) : 1 ≤ ostepZ8b key spd := by
  unfold ostepZ8b
  rw [Nat.le_div_iff_mul_le (by omega)]
  omega

theorem sfxSpeed_range (P : Params) (m : Mem) (n : Nat) : 1 ≤ sfxSpeed P m n ∧ sfxSpeed P m n ≤ 255 := by
  have := (m.byte (sfxAddr P n + (2 * P.nNote + 1))).isLt
  simp only [sfxSpeed]; omega

end Sys2Proof.Machine
end

