-- ==== Sys2Proof/Laws/Encoding.lean ====
section
/-! SUPPORT. The fields of an encoded word, format by format (R91 to R97). -/

namespace Sys2Proof

/-- A word put together from its opcode byte and the fields of the 24 bits below it. -/
def wordOf (op : Byte) (rd ra rb : BitVec 4) (rest : BitVec 12) : CmdWord := op ++ rd ++ ra ++ rb ++ rest

theorem getLsbD_wordOf (op : Byte) (rd ra rb : BitVec 4) (rest : BitVec 12) (i : Nat) :
    (wordOf op rd ra rb rest).getLsbD i =
      if i < 12 then rest.getLsbD i else if i < 16 then rb.getLsbD (i - 12) else if i < 20 then ra.getLsbD (i - 16)
      else if i < 24 then rd.getLsbD (i - 20) else op.getLsbD (i - 24) := by
  have h : (wordOf op rd ra rb rest).getLsbD i = (((op ++ rd ++ ra) ++ rb) ++ rest).getLsbD i := rfl
  rw [h, BitVec.getLsbD_append, BitVec.getLsbD_append, BitVec.getLsbD_append, BitVec.getLsbD_append]
  simp only [Nat.sub_sub]
  split_ifs <;> first | rfl | omega

theorem fieldOp_wordOf (op : Byte) (rd ra rb : BitVec 4) (rest : BitVec 12) :
    fieldOp (wordOf op rd ra rb rest) = op := by
  apply BitVec.eq_of_getLsbD_eq
  intro i hi
  rw [fieldOp, BitVec.getLsbD_extractLsb', getLsbD_wordOf]
  simp [hi, show ¬ 24 + i < 12 by omega, show ¬ 24 + i < 16 by omega, show ¬ 24 + i < 20 by omega]

theorem fieldRd_wordOf (op : Byte) (rd ra rb : BitVec 4) (rest : BitVec 12) :
    fieldRd (wordOf op rd ra rb rest) = rd.toFin := by
  unfold fieldRd
  congr 1
  apply BitVec.eq_of_getLsbD_eq
  intro i hi
  rw [BitVec.getLsbD_extractLsb', getLsbD_wordOf]
  simp [hi, show ¬ 20 + i < 12 by omega, show ¬ 20 + i < 16 by omega, show 20 + i < 24 by omega]

theorem fieldRa_wordOf (op : Byte) (rd ra rb : BitVec 4) (rest : BitVec 12) :
    fieldRa (wordOf op rd ra rb rest) = ra.toFin := by
  unfold fieldRa
  congr 1
  apply BitVec.eq_of_getLsbD_eq
  intro i hi
  rw [BitVec.getLsbD_extractLsb', getLsbD_wordOf]
  simp [hi, show ¬ 16 + i < 12 by omega, show 16 + i < 20 by omega]

theorem fieldRb_wordOf (op : Byte) (rd ra rb : BitVec 4) (rest : BitVec 12) :
    fieldRb (wordOf op rd ra rb rest) = rb.toFin := by
  unfold fieldRb
  congr 1
  apply BitVec.eq_of_getLsbD_eq
  intro i hi
  rw [BitVec.getLsbD_extractLsb', getLsbD_wordOf]
  simp [hi, show ¬ 12 + i < 12 by omega, show 12 + i < 16 by omega]

theorem fieldFlags_wordOf (op : Byte) (rd ra rb : BitVec 4) (rest : BitVec 12) :
    fieldFlags (wordOf op rd ra rb rest) = ⟨rest.getLsbD 2, rest.getLsbD 1, rest.getLsbD 0⟩ := by
  simp only [fieldFlags, getLsbD_wordOf]; rfl

theorem fieldImm_wordOf (op : Byte) (rd ra rb : BitVec 4) (rest : BitVec 12) :
    fieldImm (wordOf op rd ra rb rest) = rb ++ rest := by
  apply BitVec.eq_of_getLsbD_eq
  intro i hi
  have h : ((rb ++ rest : BitVec 16)).getLsbD i = if i < 12 then rest.getLsbD i else rb.getLsbD (i - 12) :=
    BitVec.getLsbD_append
  rw [fieldImm, BitVec.getLsbD_extractLsb', getLsbD_wordOf, h]
  simp [hi]

/-- Format N as fields (R92). -/
theorem encodeN_eq (o : Op) : encodeN o = wordOf o.code 0 0 0 0 := by cases o <;> decide

/-- Format I as fields (R93). -/
theorem encodeI_eq (o : Op) (rd : Reg) (imm : BitVec 16) :
    encodeI o rd imm = wordOf o.code (BitVec.ofFin rd) 0 (imm.extractLsb' 12 4) (imm.extractLsb' 0 12) := by
  have h : (imm.extractLsb' 12 4 ++ imm.extractLsb' 0 12 : BitVec 16) = imm := by
    apply BitVec.eq_of_getLsbD_eq
    intro i hi
    have h : ((imm.extractLsb' 12 4 ++ imm.extractLsb' 0 12 : BitVec 16)).getLsbD i =
        if i < 12 then (imm.extractLsb' 0 12).getLsbD i else (imm.extractLsb' 12 4).getLsbD (i - 12) :=
      BitVec.getLsbD_append
    rw [h]
    split
    · simp [*]
    · simp [show i - 12 < 4 by omega, show 12 + (i - 12) = i by omega]
  conv_lhs => rw [encodeI, ← h]
  apply BitVec.eq_of_getLsbD_eq
  intro i hi
  rw [getLsbD_wordOf]
  show (((o.code ++ (BitVec.ofFin rd : BitVec 4) ++ 0#4) ++ (imm.extractLsb' 12 4 ++ imm.extractLsb' 0 12))).getLsbD i = _
  rw [BitVec.getLsbD_append, BitVec.getLsbD_append, BitVec.getLsbD_append, BitVec.getLsbD_append]
  simp only [Nat.sub_sub]
  split_ifs <;> first | rfl | omega

/-- Format R3 as fields (R94). -/
theorem encodeR3_eq (o : Op) (rd ra rb : Reg) :
    encodeR3 o rd ra rb = wordOf o.code (BitVec.ofFin rd) (BitVec.ofFin ra) (BitVec.ofFin rb) 0 := rfl

/-- Format R2 as fields (R95). -/
theorem encodeR2_eq (o : Op) (rd ra : Reg) :
    encodeR2 o rd ra = wordOf o.code (BitVec.ofFin rd) (BitVec.ofFin ra) 0 0 := by
  apply BitVec.eq_of_getLsbD_eq
  intro i hi
  rw [getLsbD_wordOf]
  show ((o.code ++ (BitVec.ofFin rd : BitVec 4) ++ (BitVec.ofFin ra : BitVec 4)) ++ 0#16).getLsbD i = _
  rw [BitVec.getLsbD_append, BitVec.getLsbD_append, BitVec.getLsbD_append]
  simp only [Nat.sub_sub]
  split_ifs <;> first | rfl | omega | simp

/-- Format S2 as fields (R96). -/
theorem encodeS2_eq (o : Op) (ra rb : Reg) :
    encodeS2 o ra rb = wordOf o.code 0 (BitVec.ofFin ra) (BitVec.ofFin rb) 0 := rfl

/-- The flag bits of format V (R97). -/
def flagBits (f : VFlags) : BitVec 12 := 0#9 ++ BitVec.ofBool f.fy ++ BitVec.ofBool f.fx ++ BitVec.ofBool f.c

/-- Format V as fields (R97). -/
theorem encodeV_eq (o : Op) (ra : Reg) (f : VFlags) :
    encodeV o ra f = wordOf o.code 0 (BitVec.ofFin ra) 0 (flagBits f) := by
  obtain ⟨fy, fx, c⟩ := f
  apply BitVec.eq_of_getLsbD_eq
  intro i hi
  rw [getLsbD_wordOf]
  show ((((((o.code ++ 0#4) ++ (BitVec.ofFin ra : BitVec 4)) ++ 0#13) ++ BitVec.ofBool fy) ++ BitVec.ofBool fx) ++
    BitVec.ofBool c).getLsbD i = _
  have hf : (flagBits ⟨fy, fx, c⟩).getLsbD i =
      (((0#9 ++ BitVec.ofBool fy) ++ BitVec.ofBool fx) ++ BitVec.ofBool c).getLsbD i := rfl
  rw [hf]
  simp only [BitVec.getLsbD_append, Nat.sub_sub]
  split_ifs <;> first | rfl | omega | simp

/-- Masking a word field by field. -/
theorem wordOf_and (op op' : Byte) (rd ra rb rd' ra' rb' : BitVec 4) (rest rest' : BitVec 12) :
    wordOf op rd ra rb rest &&& wordOf op' rd' ra' rb' rest' =
      wordOf (op &&& op') (rd &&& rd') (ra &&& ra') (rb &&& rb') (rest &&& rest') := by
  apply BitVec.eq_of_getLsbD_eq
  intro i hi
  simp only [BitVec.getLsbD_and, getLsbD_wordOf]
  split_ifs <;> rfl

/-- Words agree exactly when their fields do. -/
theorem wordOf_inj {op op' : Byte} {rd ra rb rd' ra' rb' : BitVec 4} {rest rest' : BitVec 12} :
    wordOf op rd ra rb rest = wordOf op' rd' ra' rb' rest' ↔
      op = op' ∧ rd = rd' ∧ ra = ra' ∧ rb = rb' ∧ rest = rest' := by
  constructor
  · intro h
    have h1 := congrArg fieldOp h
    have h2 := congrArg fieldRd h
    have h3 := congrArg fieldRa h
    have h5 := congrArg fieldRb h
    have h4 : (wordOf op rd ra rb rest).extractLsb' 0 12 = (wordOf op' rd' ra' rb' rest').extractLsb' 0 12 := by rw [h]
    rw [fieldOp_wordOf, fieldOp_wordOf] at h1
    rw [fieldRd_wordOf, fieldRd_wordOf] at h2
    rw [fieldRa_wordOf, fieldRa_wordOf] at h3
    rw [fieldRb_wordOf, fieldRb_wordOf] at h5
    refine ⟨h1, BitVec.eq_of_toFin_eq h2, BitVec.eq_of_toFin_eq h3, BitVec.eq_of_toFin_eq h5, ?_⟩
    apply BitVec.eq_of_getLsbD_eq
    intro i hi
    have := congrArg (fun v => BitVec.getLsbD v i) h4
    simpa [getLsbD_wordOf, hi] using this
  · rintro ⟨rfl, rfl, rfl, rfl, rfl⟩; rfl

/-- Every word is put together from its fields. -/
theorem wordOf_fields (w : CmdWord) :
    w = wordOf (fieldOp w) (BitVec.ofFin (fieldRd w)) (BitVec.ofFin (fieldRa w)) (BitVec.ofFin (fieldRb w))
      (w.extractLsb' 0 12) := by
  apply BitVec.eq_of_getLsbD_eq
  intro i hi
  rw [getLsbD_wordOf]
  simp only [fieldOp, fieldRd, fieldRa, fieldRb, BitVec.ofFin_toFin, BitVec.getLsbD_extractLsb']
  split_ifs with h1 h2 h3 h4
  · simp [h1]
  · simp [show i - 12 < 4 by omega, show 12 + (i - 12) = i by omega]
  · simp [show i - 16 < 4 by omega, show 16 + (i - 16) = i by omega]
  · simp [show i - 20 < 4 by omega, show 20 + (i - 20) = i by omega]
  · simp [show i - 24 < 8 by omega, show 24 + (i - 24) = i by omega]

/-- An opcode's row is found from its code (R101). -/
theorem ofCode_code (o : Op) : Op.ofCode o.code = some o := by cases o <;> decide

/-- A code that is found is the row's own (R101). -/
theorem code_of_ofCode {b : Byte} {o : Op} (h : Op.ofCode b = some o) : o.code = b := by
  have := List.find?_some h
  simpa using this

end Sys2Proof
end

