-- ==== Sys2Proof/Laws/PerInstr.lean ====
section
/-! SUPPORT. Facts about the commands as syntax, one lemma per constructor. -/

namespace Sys2Proof.Laws.FixedBits

/-- The word of a well-formed command has every bit that its row fixes at the row's value (R100). -/
def Statement (i : Instr) : Prop := i.wf = true → encode i &&& i.op.mask = i.op.pattern

theorem ofN (o : Op) (h : o.mask = wordOf 0xFF 0xF 0xF 0xF 0xFFF) (hp : o.pattern = wordOf o.code 0 0 0 0) :
    encodeN o &&& o.mask = o.pattern := by
  rw [encodeN_eq, h, hp, wordOf_and, wordOf_inj]
  exact ⟨BitVec.and_allOnes, by decide⟩

theorem ofI (o : Op) (h : o.mask = wordOf 0xFF 0 0xF 0 0) (hp : o.pattern = wordOf o.code 0 0 0 0) (rd : Reg)
    (imm : BitVec 16) : encodeI o rd imm &&& o.mask = o.pattern := by
  rw [encodeI_eq, h, hp, wordOf_and, wordOf_inj]
  exact ⟨BitVec.and_allOnes, by simp, by decide, by simp, by simp⟩

theorem ofR3 (o : Op) (h : o.mask = wordOf 0xFF 0 0 0 0xFFF) (hp : o.pattern = wordOf o.code 0 0 0 0) (rd ra rb : Reg) :
    encodeR3 o rd ra rb &&& o.mask = o.pattern := by
  rw [encodeR3_eq, h, hp, wordOf_and, wordOf_inj]
  exact ⟨BitVec.and_allOnes, by simp, by simp, by simp, by decide⟩

theorem ofR2 (o : Op) (h : o.mask = wordOf 0xFF 0 0 0xF 0xFFF) (hp : o.pattern = wordOf o.code 0 0 0 0) (rd ra : Reg) :
    encodeR2 o rd ra &&& o.mask = o.pattern := by
  rw [encodeR2_eq, h, hp, wordOf_and, wordOf_inj]
  exact ⟨BitVec.and_allOnes, by simp, by simp, by decide⟩

theorem ofS2 (o : Op) (h : o.mask = wordOf 0xFF 0xF 0 0 0xFFF) (hp : o.pattern = wordOf o.code 0 0 0 0) (ra rb : Reg) :
    encodeS2 o ra rb &&& o.mask = o.pattern := by
  rw [encodeS2_eq, h, hp, wordOf_and, wordOf_inj]
  exact ⟨BitVec.and_allOnes, by decide, by simp, by simp, by decide⟩

/-- Format V: the fixed flag bits are those the command does not allow. -/
theorem ofV (o : Op) (free : BitVec 12) (h : o.mask = wordOf 0xFF 0xF 0 0xF free)
    (hp : o.pattern = wordOf o.code 0 0 0 0) (ra : Reg) (f : VFlags) (hf : flagBits f &&& free = 0) :
    encodeV o ra f &&& o.mask = o.pattern := by
  rw [encodeV_eq, h, hp, wordOf_and, wordOf_inj]
  exact ⟨BitVec.and_allOnes, by decide, by simp, by decide, hf⟩

theorem colourOnly_bits (f : VFlags) (h : f.colourOnly = true) : flagBits f &&& 0xFFE = 0 := by
  obtain ⟨fy, fx, c⟩ := f
  revert h; revert fy fx c; decide

theorem flipsOnly_bits (f : VFlags) (h : f.flipsOnly = true) : flagBits f &&& 0xFF9 = 0 := by
  obtain ⟨fy, fx, c⟩ := f
  revert h; revert fy fx c; decide

theorem noFlag_bits (f : VFlags) (h : f.noFlag = true) : flagBits f &&& 0xFFF = 0 := by
  obtain ⟨fy, fx, c⟩ := f
  revert h; revert fy fx c; decide

theorem nop : Statement (.nop) := fun _ => ofN .nop (by decide) (by decide)
theorem endCmd : Statement (.endCmd) := fun _ => ofN .endCmd (by decide) (by decide)
theorem lih (rd : Reg) (imm : BitVec 16) : Statement (.lih rd imm) := fun _ => ofI .lih (by decide) (by decide) rd imm
theorem lil (rd : Reg) (imm : BitVec 16) : Statement (.lil rd imm) := fun _ => ofI .lil (by decide) (by decide) rd imm
theorem mov (rd : Reg) (ra : Reg) : Statement (.mov rd ra) := fun _ => ofR2 .mov (by decide) (by decide) rd ra
theorem add (rd : Reg) (ra : Reg) (rb : Reg) : Statement (.add rd ra rb) := fun _ => ofR3 .add (by decide) (by decide) rd ra rb
theorem sub (rd : Reg) (ra : Reg) (rb : Reg) : Statement (.sub rd ra rb) := fun _ => ofR3 .sub (by decide) (by decide) rd ra rb
theorem mul (rd : Reg) (ra : Reg) (rb : Reg) : Statement (.mul rd ra rb) := fun _ => ofR3 .mul (by decide) (by decide) rd ra rb
theorem div (rd : Reg) (ra : Reg) (rb : Reg) : Statement (.div rd ra rb) := fun _ => ofR3 .div (by decide) (by decide) rd ra rb
theorem peek (rd : Reg) (ra : Reg) : Statement (.peek rd ra) := fun _ => ofR2 .peek (by decide) (by decide) rd ra
theorem poke (ra : Reg) (rb : Reg) : Statement (.poke ra rb) := fun _ => ofS2 .poke (by decide) (by decide) ra rb
theorem peek4 (rd : Reg) (ra : Reg) : Statement (.peek4 rd ra) := fun _ => ofR2 .peek4 (by decide) (by decide) rd ra
theorem poke4 (ra : Reg) (rb : Reg) : Statement (.poke4 ra rb) := fun _ => ofS2 .poke4 (by decide) (by decide) ra rb
theorem pset (ra : Reg) (f : VFlags) : Statement (.pset ra f) := fun h => ofV .pset 0xFFE (by decide) (by decide) ra f (colourOnly_bits f h)
theorem pget (rd : Reg) (ra : Reg) : Statement (.pget rd ra) := fun _ => ofR2 .pget (by decide) (by decide) rd ra
theorem line (ra : Reg) (f : VFlags) : Statement (.line ra f) := fun h => ofV .line 0xFFE (by decide) (by decide) ra f (colourOnly_bits f h)
theorem rect (ra : Reg) (f : VFlags) : Statement (.rect ra f) := fun h => ofV .rect 0xFFE (by decide) (by decide) ra f (colourOnly_bits f h)
theorem rectfill (ra : Reg) (f : VFlags) : Statement (.rectfill ra f) := fun h => ofV .rectfill 0xFFE (by decide) (by decide) ra f (colourOnly_bits f h)
theorem circ (ra : Reg) (f : VFlags) : Statement (.circ ra f) := fun h => ofV .circ 0xFFE (by decide) (by decide) ra f (colourOnly_bits f h)
theorem circfill (ra : Reg) (f : VFlags) : Statement (.circfill ra f) := fun h => ofV .circfill 0xFFE (by decide) (by decide) ra f (colourOnly_bits f h)
theorem spr (ra : Reg) (f : VFlags) : Statement (.spr ra f) := fun h => ofV .spr 0xFF9 (by decide) (by decide) ra f (flipsOnly_bits f h)
theorem sspr (ra : Reg) (f : VFlags) : Statement (.sspr ra f) := fun h => ofV .sspr 0xFF9 (by decide) (by decide) ra f (flipsOnly_bits f h)
theorem map (ra : Reg) (f : VFlags) : Statement (.map ra f) := fun h => ofV .map 0xFFF (by decide) (by decide) ra f (noFlag_bits f h)
theorem sfx (ra : Reg) (f : VFlags) : Statement (.sfx ra f) := fun h => ofV .sfx 0xFFF (by decide) (by decide) ra f (noFlag_bits f h)

end Sys2Proof.Laws.FixedBits
end

