-- ==== Sys2Proof/Laws/Pixels.lean ====
section
/-! SUPPORT. The laws of the framebuffer: a pixel written is read back, every other pixel and every
byte outside the framebuffer stay, and what a list of pixels leaves behind. -/

namespace Sys2Proof.Machine

variable {nc nr xl : Nat} {P : Params}

/-- A pixel lies on the screen of a block (R152). -/
abbrev OnScreen (P : Params) (x y : Nat) : Prop := x < P.screenW ∧ y < P.screenH

/-- Where a screen pixel's byte stands in the framebuffer: 0x6000 .. 0x7fff in Z8B-1.0 (R67, R152). -/
theorem fbAddr_range (hP : Fits P) {x y : Nat} (h : OnScreen P x y) :
    P.screenBase ≤ fbAddr P x y ∧ fbAddr P x y < P.screenBase + P.screenW / 2 * P.screenH := by
  have hx : x / 2 < P.screenW / 2 := by have := hP.evenRows; omega
  have hy : P.screenW / 2 * (y + 1) ≤ P.screenW / 2 * P.screenH := Nat.mul_le_mul_left _ h.2
  rw [Nat.mul_add] at hy
  unfold fbAddr; omega

/-- A screen pixel's byte lies in the image (R67). -/
theorem fbAddr_lt (hP : Fits P) {x y : Nat} (h : OnScreen P x y) : fbAddr P x y < P.memSize :=
  lt_of_lt_of_le (fbAddr_range hP h).2 hP.screen

/-- Two pixels share a byte exactly when they share a row and a pair of columns (R152). -/
theorem fbAddr_inj (hP : Fits P) {x y x' y' : Nat} (hx : x < P.screenW) (hx' : x' < P.screenW) :
    fbAddr P x y = fbAddr P x' y' ↔ y = y' ∧ x / 2 = x' / 2 := by
  have h1 : x / 2 < P.screenW / 2 := by have := hP.evenRows; omega
  have h2 : x' / 2 < P.screenW / 2 := by have := hP.evenRows; omega
  unfold fbAddr
  constructor
  · intro e
    have e' : P.screenW / 2 * y + x / 2 = P.screenW / 2 * y' + x' / 2 := by omega
    have hd := congrArg (· / (P.screenW / 2)) e'
    have hm := congrArg (· % (P.screenW / 2)) e'
    simp only [Nat.mul_add_div (Nat.zero_lt_of_lt h1), Nat.div_eq_of_lt h1, Nat.div_eq_of_lt h2, Nat.add_zero,
      Nat.mul_add_mod, Nat.mod_eq_of_lt h1, Nat.mod_eq_of_lt h2] at hd hm
    exact ⟨hd, hm⟩
  · rintro ⟨rfl, h⟩; rw [h]

/-- A draw-state byte is no byte of the framebuffer (R27). -/
theorem fbAddr_ne_draw (hP : Fits P) {x y : Nat} (h : OnScreen P x y) {k : Nat} (hk : k < 0x40) :
    fbAddr P x y ≠ P.drawBase + k := by
  have := fbAddr_range hP h
  have := hP.screenApart P.drawBase 0x40 (by simp)
  omega

/-- A sheet pixel's byte lies in the image (R67, R180). -/
theorem sheetAddr_lt (hP : Fits P) {u v : Nat} (hu : u < P.sheetW) (hv : v < P.sheetH) :
    P.gfxBase + P.sheetW / 2 * v + u / 2 < P.memSize := by
  have h1 : u / 2 < P.sheetW / 2 := by have := hP.evenRows; omega
  have h2 : P.sheetW / 2 * (v + 1) ≤ P.sheetW / 2 * P.sheetH := Nat.mul_le_mul_left _ hv
  have := hP.sheet
  rw [Nat.mul_add] at h2
  omega

/-- A map cell lies in the image (R67, R185). -/
theorem mapAddr_lt (hP : Fits P) {mx my : Nat} (hx : mx < P.mapW) (hy : my < P.mapH) : mapAddr P mx my < P.memSize := by
  have h := hP.mapUpper
  have h' := hP.mapLower
  unfold mapAddr mapLowRows
  split
  · next hl =>
    have : P.mapW * (my + 1) ≤ P.mapW * (P.mapH / 2) := Nat.mul_le_mul_left _ hl
    rw [Nat.mul_add] at this
    omega
  · next hl =>
    have : P.mapW * (my - P.mapH / 2 + 1) ≤ P.mapW * (P.mapH - P.mapH / 2) := Nat.mul_le_mul_left _ (by omega)
    rw [Nat.mul_add] at this
    omega

/-- The bits of a byte put together from two nibbles. -/
theorem getLsbD_nibbles (hi lo : Nibble) (i : Nat) :
    (hi ++ lo : Byte).getLsbD i = if i < 4 then lo.getLsbD i else hi.getLsbD (i - 4) :=
  BitVec.getLsbD_append

@[simp] theorem lowNibble_nibbles (hi lo : Nibble) : (hi ++ lo : Byte).extractLsb' 0 4 = lo := by
  apply BitVec.eq_of_getLsbD_eq
  intro i h
  rw [BitVec.getLsbD_extractLsb', getLsbD_nibbles]
  simp [h]

@[simp] theorem highNibble_nibbles (hi lo : Nibble) : (hi ++ lo : Byte).extractLsb' 4 4 = hi := by
  apply BitVec.eq_of_getLsbD_eq
  intro i h
  rw [BitVec.getLsbD_extractLsb', getLsbD_nibbles]
  simp [h]

@[simp] theorem nibbleOf_withNibble_self (x : Nat) (b : Byte) (c : Nibble) : nibbleOf x (withNibble x b c) = c := by
  unfold nibbleOf withNibble
  split <;> simp only [lowNibble_nibbles, highNibble_nibbles]

/-- R152: the other nibble of the byte is kept. -/
theorem nibbleOf_withNibble_of_ne {x x' : Nat} (h : x % 2 ≠ x' % 2) (b : Byte) (c : Nibble) :
    nibbleOf x' (withNibble x b c) = nibbleOf x' b := by
  unfold nibbleOf withNibble
  rcases Nat.mod_two_eq_zero_or_one x with hx | hx <;> rcases Nat.mod_two_eq_zero_or_one x' with hx' | hx'
  · omega
  · rw [if_neg (by omega), if_pos hx, if_neg (by omega)]; simp only [highNibble_nibbles]
  · rw [if_pos hx', if_neg (by omega), if_pos hx']; simp only [lowNibble_nibbles]
  · omega

/-- One pixel of the screen keeps the canonical form. -/
theorem setPix_wf (hP : Fits P) {m : Mem} (h : m.wf P.memSize = true) {p : Pixel} (hp : OnScreen P p.x p.y) :
    (setPix P m p).wf P.memSize = true :=
  Mem.put_wf h _ (fbAddr_lt hP hp)

/-- Every byte after one pixel. -/
theorem byte_setPix {size : Nat} {m : Mem} (h : m.wf size = true) (p : Pixel) (a : Nat) :
    (setPix P m p).byte a =
      if a = fbAddr P p.x p.y then withNibble p.x (m.byte (fbAddr P p.x p.y)) p.c else m.byte a :=
  Mem.byte_put h _ _ _

/-- Every pixel after one pixel: `SetPix` changes exactly its own (R152). -/
theorem getPix_setPix (hP : Fits P) {size : Nat} {m : Mem} (h : m.wf size = true) {p : Pixel} (hp : p.x < P.screenW)
    {x y : Nat} (hx : x < P.screenW) :
    getPix P (setPix P m p) x y = if x = p.x ∧ y = p.y then p.c else getPix P m x y := by
  unfold getPix
  rw [byte_setPix h]
  by_cases e : fbAddr P x y = fbAddr P p.x p.y
  · obtain ⟨rfl, hxx⟩ := (fbAddr_inj hP hx hp).1 e
    rw [if_pos e]
    by_cases h1 : x = p.x
    · subst h1; simp
    · rw [nibbleOf_withNibble_of_ne (by omega), e]
      simp [h1]
  · rw [if_neg e]
    by_cases hxy : x = p.x ∧ y = p.y
    · exact absurd (by rw [hxy.1, hxy.2]) e
    · simp [hxy]

/-- What a list of screen pixels leaves: a canonical image. -/
theorem drawPixels_wf (hP : Fits P) {m : Mem} (h : m.wf P.memSize = true) {ps : List Pixel}
    (hps : ∀ p ∈ ps, OnScreen P p.x p.y) : (drawPixels P m ps).wf P.memSize = true := by
  induction ps generalizing m with
  | nil => exact h
  | cons p t ih =>
    exact ih (setPix_wf hP h (hps p (List.mem_cons_self ..))) fun q hq => hps q (List.mem_cons_of_mem _ hq)

/-- FRAME of every drawing: bytes outside the framebuffer stay (R164). -/
theorem byte_drawPixels_outside (hP : Fits P) {m : Mem} (h : m.wf P.memSize = true) {ps : List Pixel}
    (hps : ∀ p ∈ ps, OnScreen P p.x p.y) {a : Nat}
    (ha : a < P.screenBase ∨ P.screenBase + P.screenW / 2 * P.screenH ≤ a) : (drawPixels P m ps).byte a = m.byte a := by
  induction ps generalizing m with
  | nil => rfl
  | cons p t ih =>
    have hp := hps p (List.mem_cons_self ..)
    rw [show drawPixels P m (p :: t) = drawPixels P (setPix P m p) t from rfl,
      ih (setPix_wf hP h hp) fun q hq => hps q (List.mem_cons_of_mem _ hq), byte_setPix h, if_neg]
    have := fbAddr_range hP hp
    omega

/-- A pixel that no entry of the list names stays. -/
theorem getPix_drawPixels_of_not (hP : Fits P) {m : Mem} (h : m.wf P.memSize = true) {ps : List Pixel}
    (hps : ∀ p ∈ ps, OnScreen P p.x p.y) {x y : Nat} (hx : x < P.screenW)
    (hp : ∀ p ∈ ps, ¬ (x = p.x ∧ y = p.y)) : getPix P (drawPixels P m ps) x y = getPix P m x y := by
  induction ps generalizing m with
  | nil => rfl
  | cons p t ih =>
    have h1 := hps p (List.mem_cons_self ..)
    rw [show drawPixels P m (p :: t) = drawPixels P (setPix P m p) t from rfl,
      ih (setPix_wf hP h h1) (fun q hq => hps q (List.mem_cons_of_mem _ hq)) fun q hq => hp q (List.mem_cons_of_mem _ hq),
      getPix_setPix hP h h1.1 hx, if_neg (hp p (List.mem_cons_self ..))]

/-- A pixel that the list names, always with one colour, takes that colour: the order of drawing is not
observable (R154, R182). -/
theorem getPix_drawPixels_of_mem (hP : Fits P) {m : Mem} (h : m.wf P.memSize = true) {ps : List Pixel}
    (hps : ∀ p ∈ ps, OnScreen P p.x p.y) {x y : Nat} {c : Nibble}
    (hex : ∃ p ∈ ps, x = p.x ∧ y = p.y) (hc : ∀ p ∈ ps, x = p.x ∧ y = p.y → p.c = c) :
    getPix P (drawPixels P m ps) x y = c := by
  have hx : x < P.screenW := by
    obtain ⟨p, hp, rfl, -⟩ := hex
    exact (hps p hp).1
  induction ps generalizing m with
  | nil => simp at hex
  | cons p t ih =>
    have h1 := hps p (List.mem_cons_self ..)
    have ht := fun q hq => hps q (List.mem_cons_of_mem p hq)
    rw [show drawPixels P m (p :: t) = drawPixels P (setPix P m p) t from rfl]
    by_cases hex' : ∃ q ∈ t, x = q.x ∧ y = q.y
    · exact ih (setPix_wf hP h h1) ht hex' fun q hq => hc q (List.mem_cons_of_mem _ hq)
    · rw [getPix_drawPixels_of_not hP (setPix_wf hP h h1) ht hx (fun q hq hxy => hex' ⟨q, hq, hxy⟩),
        getPix_setPix hP h h1.1 hx]
      obtain ⟨q, hq, hxy⟩ := hex
      rcases List.mem_cons.1 hq with rfl | hq
      · rw [if_pos hxy]; exact hc q (List.mem_cons_self ..) hxy
      · exact absurd ⟨q, hq, hxy⟩ hex'

/-- The effective clip rectangle lies on the screen (R151). -/
theorem clip_range (P : Params) (m : Mem) :
    0 ≤ clipX0 P m ∧ clipX1 P m ≤ P.screenW ∧ 0 ≤ clipY0 P m ∧ clipY1 P m ≤ P.screenH := by
  simp only [clipX0, clipX1, clipY0, clipY1]; omega

/-- R151: a pixel that passes the clip test is on the screen. -/
theorem inClip_onScreen {m : Mem} {xs ys : Int} (h : inClip P m xs ys = true) :
    0 ≤ xs ∧ xs < P.screenW ∧ 0 ≤ ys ∧ ys < P.screenH := by
  have := clip_range P m
  simp only [inClip, Bool.and_eq_true, decide_eq_true_eq] at h
  omega

/-- Only PEN is written by the colour operand (R153). -/
theorem resolveColour_wf (hP : Fits P) {m : Mem} (h : m.wf P.memSize = true) (b : Bool) (c : BitVec xl) :
    (resolveColour P b c m).wf P.memSize = true := by
  cases b
  · exact h
  · exact Mem.put_wf h _ (by have := hP.drawState; unfold penAddr; omega)

theorem byte_resolveColour {size : Nat} {m : Mem} (h : m.wf size = true) (b : Bool) (c : BitVec xl) (a : Nat) :
    (resolveColour P b c m).byte a = if a = penAddr P ∧ b = true then byteOf c else m.byte a := by
  cases b
  · simp [resolveColour]
  · simp [resolveColour, Mem.byte_put h]

theorem getPix_resolveColour (hP : Fits P) {size : Nat} {m : Mem} (h : m.wf size = true) (b : Bool) (c : BitVec xl)
    {x y : Nat} (hxy : OnScreen P x y) : getPix P (resolveColour P b c m) x y = getPix P m x y := by
  rw [getPix, byte_resolveColour h, if_neg, getPix]
  exact fun e => fbAddr_ne_draw hP hxy (k := 0x25) (by decide) e.1

/-- The list of pixels a list of positions plots, position by position. -/
theorem mem_filterMap_plot {m : Mem} {pts : List (Int × Int)} {p : Pixel} :
    p ∈ pts.filterMap (fun q => plot P m q.1 q.2) ↔ ∃ xs ys, (xs, ys) ∈ pts ∧ plot P m xs ys = some p := by
  simp

/-- A pixel of the primitive pipeline is inside the clip rectangle and at its own position (R154). -/
theorem plot_some {m : Mem} {xs ys : Int} {p : Pixel} (h : plot P m xs ys = some p) :
    inClip P m xs ys = true ∧ (p.x : Int) = xs ∧ (p.y : Int) = ys := by
  unfold plot at h
  split at h
  · next hin =>
    have hs := inClip_onScreen hin
    suffices H : ∀ col, plotColour P m xs ys col = some p → (p.x : Int) = xs ∧ (p.y : Int) = ys by
      split at h
      · split at h
        · cases h
        · exact ⟨hin, H _ h⟩
      · exact ⟨hin, H _ h⟩
    intro col hcol
    unfold plotColour at hcol
    split at hcol
    · cases hcol
    · cases hcol
      simp only [Pixel.at]
      omega
  · cases h

/-- A pixel of the blit pipeline is inside the clip rectangle and at its own position (R181). -/
theorem plotSprite_some {m : Mem} {xs ys : Int} {col : Nibble} {p : Pixel} (h : plotSprite P m xs ys col = some p) :
    inClip P m xs ys = true ∧ (p.x : Int) = xs ∧ (p.y : Int) = ys ∧ p.c = remap P m col := by
  unfold plotSprite at h
  split at h
  · next hin =>
    have hs := inClip_onScreen hin
    split at h
    · cases h
    · cases h
      simp only [Pixel.at]
      refine ⟨hin, ?_, ?_, by simp⟩ <;> omega
  · cases h

/-- A position inside the clip rectangle is a pixel of the screen (R151). -/
theorem onScreen_of_inClip {m : Mem} {xs ys : Int} {p : Pixel} (h : inClip P m xs ys = true) (hx : (p.x : Int) = xs)
    (hy : (p.y : Int) = ys) : OnScreen P p.x p.y := by
  have := inClip_onScreen h
  omega

/-- What a primitive plots lies on the screen (R67, R154). -/
theorem onScreen_plots {m : Mem} {pts : List (Int × Int)} :
    ∀ p ∈ pts.filterMap (fun q => plot P m q.1 q.2), OnScreen P p.x p.y := by
  intro p hp
  obtain ⟨xs, ys, -, h⟩ := mem_filterMap_plot.1 hp
  exact onScreen_of_inClip (plot_some h).1 (plot_some h).2.1 (plot_some h).2.2

/-- What a blit writes lies on the screen (R67, R181). -/
theorem onScreen_blit {m : Mem} {b : BlitArgs} : ∀ p ∈ blit P m b, OnScreen P p.x p.y := by
  intro p hp
  unfold blit at hp
  split at hp
  · cases hp
  · simp only [List.mem_flatMap, List.mem_filterMap, blitPixel] at hp
    obtain ⟨ys, -, xs, -, h⟩ := hp
    exact onScreen_of_inClip (plotSprite_some h).1 (plotSprite_some h).2.1 (plotSprite_some h).2.2.1

theorem onScreen_mapPixels {m : Mem} {celx cely sx sy celw celh : Int} {layer : Byte} :
    ∀ p ∈ mapPixels P m celx cely sx sy celw celh layer, OnScreen P p.x p.y := by
  intro p hp
  simp only [mapPixels, List.mem_flatMap, mapCell] at hp
  obtain ⟨cy, -, cx, -, h⟩ := hp
  split at h
  · exact onScreen_blit p h
  · cases h

/-- Membership in a span, whatever the clip rectangle leaves of it (R165). -/
theorem mem_hspan {m : Mem} {xa xb ys x y : Int} :
    (x, y) ∈ hspan P m xa xb ys ↔ y = ys ∧ xa ≤ x ∧ x ≤ xb ∧ inClip P m x y = true := by
  unfold hspan inClip
  split
  · simp only [List.mem_map, mem_intRange, Prod.mk.injEq, Bool.and_eq_true, decide_eq_true_eq]
    constructor
    · rintro ⟨a, ha, rfl, rfl⟩; omega
    · rintro ⟨rfl, h⟩; exact ⟨x, by omega, ⟨rfl, rfl⟩⟩
  · simp only [List.not_mem_nil, Bool.and_eq_true, decide_eq_true_eq, false_iff]
    rintro ⟨rfl, h⟩; omega

theorem mem_vspan {m : Mem} {xs ya yb x y : Int} :
    (x, y) ∈ vspan P m xs ya yb ↔ x = xs ∧ ya ≤ y ∧ y ≤ yb ∧ inClip P m x y = true := by
  unfold vspan inClip
  split
  · simp only [List.mem_map, mem_intRange, Prod.mk.injEq, Bool.and_eq_true, decide_eq_true_eq]
    constructor
    · rintro ⟨a, ha, rfl, rfl⟩; omega
    · rintro ⟨rfl, h⟩; exact ⟨y, by omega, by simp⟩
  · simp only [List.not_mem_nil, Bool.and_eq_true, decide_eq_true_eq, false_iff]
    rintro ⟨rfl, h⟩; omega

/-- Every primitive completes (R164). -/
theorem plotAll_eq (P : Params) (m : Mem) (pts : List (Int × Int)) (s : State nc nr xl) :
    plotAll P m pts s =
      .next (s.setMem (drawPixels P m (pts.filterMap fun p => plot P m p.1 p.2))).advance := rfl

/-- Every blit completes (R164). -/
theorem blitAll_eq (P : Params) (ps : List Pixel) (s : State nc nr xl) :
    blitAll P ps s = .next (s.setMem (drawPixels P s.mem ps)).advance := rfl

end Sys2Proof.Machine
end

