-- ==== Sys2Proof/Tests/Slice0.lean ====
section
/-! SUPPORT. Tests: what the well-formedness check refuses, the decoding of words written out from the
encodings of R92 to R97, one-step results taken from spec/95_test_vectors.md and the rules' own examples,
and for every obligation with hypotheses a state that meets them. -/

namespace Sys2Proof.Tests

open Sys2Proof.Machine Sys2Proof.Claims

/-! ### Helpers -/

/-- The machine after reset with some registers and bytes set. -/
def start (regs : List (Reg × Word)) (bytes : List Host.Cell := []) : State :=
  regs.foldl (fun s r => s.setReg r.1 r.2)
    (State.reset.setMem (bytes.foldl (fun m c => m.put c.1 c.2) []))

/-- The next state a step answers, if it does. -/
def answered {nc nr xl : Nat} : Result nc nr xl → Option (State nc nr xl)
  | .next t => some t
  | .fault _ => none
  | .refused _ => none

/-- What a command makes of a register. -/
def regAfter (i : Instr) (s : State) (r : Reg) : Option Word := (answered (exec i s)).map fun t => t.reg r

/-- What a command makes of some bytes. -/
def bytesAfter (i : Instr) (s : State) (addrs : List Nat) : List Byte :=
  ((answered (exec i s)).map fun t => addrs.map t.mem.byte).getD []

/-- What a command makes of a channel. -/
def channelAfter (i : Instr) (s : State) (k : Chan) : Option Channel := (answered (exec i s)).map fun t => t.ch.get k

/-- No flag, C, FX, FY, and both flips. -/
def flag0 : VFlags := ⟨false, false, false⟩
def flagC : VFlags := ⟨false, false, true⟩
def flagX : VFlags := ⟨false, true, false⟩
def flagY : VFlags := ⟨true, false, false⟩
def flagXY : VFlags := ⟨true, true, false⟩

/-- The sheet of section 2.5 of the vectors (sprite 1). -/
def sheet : List Host.Cell := [(0x0004, 0x21), (0x0005, 0x03), (0x0044, 0x04), (0x0045, 0x65)]

/-- Sound effect 0 of section 2.6 of the vectors. -/
def tune : List Host.Cell := [(0x3200, 0xE1), (0x3201, 0x0A), (0x3202, 0x2D), (0x3203, 0x0E), (0x3241, 1)]

/-- Channel 2 playing the tune from its start (vector A1). -/
def playing : State := (start [] tune).setCh 2 (Channel.started 0 0)

/-- A launched machine. -/
def launched (list : List CmdWord) : State := { State.reset with cmd := some list }

/-! ### WellFormed refuses an ill-formed term of every check (R97) -/

theorem test_wf_colour_command_refuses_fx : (Instr.pset 0 flagX).wf = false := by decide
theorem test_wf_colour_command_refuses_fy : (Instr.circfill 3 flagY).wf = false := by decide
theorem test_wf_blit_refuses_c : (Instr.spr 0 flagC).wf = false ∧ (Instr.sspr 0 flagC).wf = false := by decide
theorem test_wf_map_refuses_every_flag :
    (Instr.map 0 flagC).wf = false ∧ (Instr.map 0 flagX).wf = false ∧ (Instr.map 0 flagY).wf = false := by decide
theorem test_wf_sfx_refuses_every_flag :
    (Instr.sfx 0 flagC).wf = false ∧ (Instr.sfx 0 flagX).wf = false ∧ (Instr.sfx 0 flagY).wf = false := by decide
theorem test_wf_accepts : (Instr.line 4 flagC).wf = true ∧ (Instr.spr 8 flagXY).wf = true ∧ (Instr.sfx 4 flag0).wf = true := by
  decide

/-! ### Decoding: every constructor by a word written out field by field from R92 to R97 and R100 -/

-- op = 0x00 | 0[23:0]
theorem test_decode_nop : decode 0b00000000000000000000000000000000 = .ok .nop := by decide
-- op = 0x01 | 0[23:0]
theorem test_decode_end : decode 0b00000001000000000000000000000000 = .ok .endCmd := by decide
-- op = 0x08 | rd = 3 | 0 | imm16 = 7
theorem test_decode_lih : decode 0b00001000001100000000000000000111 = .ok (.lih 3 7) := by decide
-- op = 0x09 | rd = 3 | 0 | imm16 = 0x8000
theorem test_decode_lil : decode 0b00001001001100001000000000000000 = .ok (.lil 3 0x8000) := by decide
-- op = 0x0A | rd = 2 | ra = 1 | 0
theorem test_decode_mov : decode 0b00001010001000010000000000000000 = .ok (.mov 2 1) := by decide
-- op = 0x10 .. 0x13 | rd = 3 | ra = 1 | rb = 2 | 0
theorem test_decode_add : decode 0b00010000001100010010000000000000 = .ok (.add 3 1 2) := by decide
theorem test_decode_sub : decode 0b00010001001100010010000000000000 = .ok (.sub 3 1 2) := by decide
theorem test_decode_mul : decode 0b00010010001100010010000000000000 = .ok (.mul 3 1 2) := by decide
theorem test_decode_div : decode 0b00010011001100010010000000000000 = .ok (.div 3 1 2) := by decide
-- op = 0x20 | rd = 2 | ra = 1 | 0
theorem test_decode_peek : decode 0b00100000001000010000000000000000 = .ok (.peek 2 1) := by decide
-- op = 0x21 | 0 | ra = 1 | rb = 2 | 0
theorem test_decode_poke : decode 0b00100001000000010010000000000000 = .ok (.poke 1 2) := by decide
theorem test_decode_peek4 : decode 0b00100010001000010000000000000000 = .ok (.peek4 2 1) := by decide
theorem test_decode_poke4 : decode 0b00100011000000010010000000000000 = .ok (.poke4 1 2) := by decide
-- op = 0x30 | 0 | ra = 0 | 0 | FY FX C = 001, and ra = 5 with no flag
theorem test_decode_pset : decode 0b00110000000000000000000000000001 = .ok (.pset 0 flagC) ∧
    decode 0b00110000000001010000000000000000 = .ok (.pset 5 flag0) := by decide
-- op = 0x31 | rd = 8 | ra = 0 | 0
theorem test_decode_pget : decode 0b00110001100000000000000000000000 = .ok (.pget 8 0) := by decide
theorem test_decode_line : decode 0b00110010000001000000000000000001 = .ok (.line 4 flagC) := by decide
theorem test_decode_rect : decode 0b00110011000000000000000000000001 = .ok (.rect 0 flagC) := by decide
theorem test_decode_rectfill : decode 0b00110100000000000000000000000001 = .ok (.rectfill 0 flagC) := by decide
theorem test_decode_circ : decode 0b00110101000001010000000000000000 = .ok (.circ 5 flag0) := by decide
theorem test_decode_circfill : decode 0b00110110000000000000000000000001 = .ok (.circfill 0 flagC) := by decide
-- op = 0x38 | 0 | ra | 0 | FY FX C = 010, 100 and 110
theorem test_decode_spr : decode 0b00111000000010000000000000000010 = .ok (.spr 8 flagX) ∧
    decode 0b00111000000000000000000000000100 = .ok (.spr 0 flagY) ∧
    decode 0b00111000000000000000000000000110 = .ok (.spr 0 flagXY) := by decide
theorem test_decode_sspr : decode 0b00111001000000000000000000000000 = .ok (.sspr 0 flag0) := by decide
theorem test_decode_map : decode 0b00111010000000000000000000000000 = .ok (.map 0 flag0) := by decide
theorem test_decode_sfx : decode 0b01000000000001000000000000000000 = .ok (.sfx 4 flag0) := by decide

/-- The illegal words of section 2.1 of the vectors with an assigned opcode (R101, R241). -/
theorem test_reserved_bits_are_illegal :
    ([0x00000001, 0x01000001, 0x08010000, 0x0A210001, 0x10312800, 0x21112000, 0x30000002, 0x30100001, 0x31800001] ++
      [0x38000001, 0x3A000001, 0x40000004] : List CmdWord).all (fun w => decode w == .error .reservedBits) = true := by
  decide

/-- The illegal words of section 2.1 of the vectors with an unassigned opcode (R101, R241). -/
theorem test_unassigned_opcodes_are_illegal :
    ([0x37000000, 0x02000000, 0x14000000, 0x24000000, 0x41000000, 0xFFFFFFFF] : List CmdWord).all
      (fun w => decode w == .error .unassignedOpcode) = true := by decide

/-! ### The fixed-point unit (vectors of section 2.2) -/

theorem test_lih_clears_low_half : regAfter (.lih 3 0xFFFF) (start [(3, 0x00078000)]) 3 = some 0xFFFF0000 := by decide
theorem test_lil_keeps_high_half : regAfter (.lil 3 0x8000) (start [(3, 0x00070000)]) 3 = some 0x00078000 := by decide
theorem test_mov : regAfter (.mov 2 3) (start [(3, 0x00078000)]) 2 = some 0x00078000 := by decide

theorem test_add_wraps :
    regAfter (.add 3 1 2) (start [(1, 0x7FFFFFFF), (2, 1)]) 3 = some 0x80000000 ∧
    regAfter (.add 3 1 2) (start [(1, 0x80000000), (2, 0xFFFFFFFF)]) 3 = some 0x7FFFFFFF := by decide

theorem test_sub :
    regAfter (.sub 3 1 2) (start [(1, 0x00010000), (2, 0x00020000)]) 3 = some 0xFFFF0000 ∧
    regAfter (.sub 3 1 2) (start [(1, 0), (2, 0x80000000)]) 3 = some 0x80000000 := by decide

/-- Floor, wrap and sign of the product. -/
theorem test_mul :
    regAfter (.mul 3 1 2) (start [(1, 0xFFFFFFFF), (2, 1)]) 3 = some 0xFFFFFFFF ∧
    regAfter (.mul 3 1 2) (start [(1, 0x7FFFFFFF), (2, 0x7FFFFFFF)]) 3 = some 0xFFFF0000 ∧
    regAfter (.mul 3 1 2) (start [(1, 0xFFFF0000), (2, 0x00018000)]) 3 = some 0xFFFE8000 := by decide

theorem test_mul_in_place : regAfter (.mul 1 1 1) (start [(1, 0x00030000)]) 1 = some 0x00090000 := by decide

/-- Truncation toward zero on both signs. -/
theorem test_div_truncates :
    regAfter (.div 3 1 2) (start [(1, 0xFFFF0000), (2, 0x00030000)]) 3 = some 0xFFFFAAAB ∧
    regAfter (.div 3 1 2) (start [(1, 0xFFF90000), (2, 0x00020000)]) 3 = some 0xFFFC8000 ∧
    regAfter (.div 3 1 2) (start [(1, 0x3FFFFFFF), (2, 0x00008000)]) 3 = some 0x7FFFFFFE := by decide

/-- Saturation, division by zero, and the divisor 1.0. -/
theorem test_div_saturates :
    regAfter (.div 3 1 2) (start [(1, 0xFFFF8000), (2, 1)]) 3 = some 0x80000001 ∧
    regAfter (.div 3 1 2) (start [(1, 0x40000000), (2, 0x00008000)]) 3 = some 0x7FFFFFFF ∧
    regAfter (.div 3 1 2) (start [(1, 0xFFFF0000)]) 3 = some 0x80000001 ∧
    regAfter (.div 3 1 2) (start [(1, 0x80000000), (2, 0x00010000)]) 3 = some 0x80000000 := by decide

/-! ### The memory port (vectors M1 to M13) -/

theorem test_peek :
    regAfter (.peek 2 1) (start [(1, 0x5F250000)]) 2 = some 0x00060000 ∧
    regAfter (.peek 9 8) (start [(8, 0x7FFF8000)] [(0x7fff, 0xBE)]) 9 = some 0x00BE0000 ∧
    regAfter (.peek 4 3) (start [(3, 0x80000000)]) 4 = some 0 := by decide

theorem test_poke :
    bytesAfter (.poke 11 10) (start [(11, 0x43000000), (10, 0x01FF0000)]) [0x42ff, 0x4300, 0x4301] = [0, 0xFF, 0] ∧
    bytesAfter (.poke 11 10) (start [(11, 0x43000000), (10, 0x0000FFFF)] [(0x4300, 7)]) [0x4300] = [0] := by decide

theorem test_peek4 :
    regAfter (.peek4 3 1) (start [(1, 0x43000000)] [(0x4301, 0x80), (0x4302, 0x03)]) 3 = some 0x00038000 ∧
    regAfter (.peek4 2 1) (start [(1, 0x7FFE0000)] [(0x7ffe, 0xAA), (0x7fff, 0xBB)]) 2 = some 0x0000BBAA := by decide

theorem test_poke4 :
    bytesAfter (.poke4 1 2) (start [(1, 0x43000000), (2, 0x00038000)]) [0x4300, 0x4301, 0x4302, 0x4303] =
      [0x00, 0x80, 0x03, 0x00] ∧
    bytesAfter (.poke4 1 5) (start [(1, 0x7FFE0000), (5, 0xDEADBEEF)]) [0x7ffd, 0x7ffe, 0x7fff, 0, 1] =
      [0, 0xEF, 0xBE, 0, 0] := by decide

/-- R77: under the policy `clamp` an out-of-range access goes to the last byte. -/
theorem test_clamp_policy :
    readByte { z8b with oobPolicy := .clamp } [(0x7fff, 0xBE)] 0x9000 = 0xBE ∧
    (writeByte { z8b with oobPolicy := .clamp } [] 0xFFFF 5).byte 0x7fff = 5 := by decide

/-- R77 through the step: PEEK of 0x9000 in a block with `clamp`. -/
theorem test_clamp_step :
    (answered (stepIn { z8b with oobPolicy := .clamp }
      { start [(1, 0x90000000)] [(0x7fff, 0xBE)] with cmd := some [0x20210000] })).map (fun t : State => t.reg 2) =
      some 0x00BE0000 := by decide

/-- Writing what an unlisted address reads as removes the cell. -/
theorem test_canonical_form : Mem.put (Mem.put [] 0x4300 5) 0x4300 0 = [] ∧ Mem.put [] 0x5f25 6 = [] := by decide

/-! ### Drawing (vectors G1 to G27) -/

theorem test_pset_c :
    bytesAfter (.pset 0 flagC) (start [(0, 0x00030000), (1, 0x00020000), (2, 0x00080000)]) [0x6081, 0x5f25] =
      [0x80, 0x08] := by decide

/-- y = -0.5 is row -1; PEN is set even so (G3); a remapped colour (G5). -/
theorem test_pset_clipped_and_remapped :
    bytesAfter (.pset 0 flagC) (start [(0, 0x0003FFFF), (1, 0xFFFF8000), (2, 0x00080000)]) [0x6001, 0x5f25] = [0, 0x08] ∧
    bytesAfter (.pset 0 flagC) (start [(0, 0x00030000), (1, 0x00020000), (2, 0x00080000)] [(0x5f08, 0x03)]) [0x6081] =
      [0x30] := by decide

theorem test_pget :
    regAfter (.pget 8 0) (start [(0, 0x00010000)] [(0x6000, 0x21)]) 8 = some 0x00020000 ∧
    regAfter (.pget 8 0) (start [] [(0x6000, 0x21)]) 8 = some 0x00010000 ∧
    regAfter (.pget 8 0) (start [] [(0x6000, 0x21), (0x5f20, 1)]) 8 = some 0 := by decide

/-- R98: operand 1 of a command with base register 15 is x[0]. -/
theorem test_vector_operand_wraps :
    regAfter (.pget 8 15) (start [(15, 0x00010000), (0, 0x00020000)] [(0x6080, 0x50)]) 8 = some 0x00050000 := by decide

/-- Camera (-2, 3): logical (1, 5) is screen (3, 2) (G9). -/
theorem test_pget_camera :
    regAfter (.pget 8 0) (start [(0, 0x00010000), (1, 0x00050000)]
      [(0x5f28, 0xFE), (0x5f29, 0xFF), (0x5f2a, 3), (0x6081, 0xA0)]) 8 = some 0x000A0000 := by decide

/-- G11, and the same with the end points exchanged. -/
theorem test_line_shallow :
    bytesAfter (.line 4 flagC) (start [(6, 0x00030000), (7, 0x00010000), (8, 0x00070000)])
      [0x6000, 0x6001, 0x6040, 0x6041, 0x6002, 0x6042] = [0x77, 0, 0, 0x77, 0, 0] ∧
    bytesAfter (.line 4 flagC) (start [(4, 0x00030000), (5, 0x00010000), (8, 0x00070000)])
      [0x6000, 0x6001, 0x6040, 0x6041] = [0x77, 0, 0, 0x77] := by decide

/-- G12: steep, (0,0) to (2,5). -/
theorem test_line_steep :
    linePoints z8b [] 0 0 2 5 = [(0, 0), (0, 1), (1, 2), (1, 3), (2, 4), (2, 5)] := by decide

/-- G17: the border and not the inside. -/
theorem test_rect :
    bytesAfter (.rect 0 flagC) (start [(0, 0x00050000), (1, 0x00050000), (2, 0x00020000), (3, 0x00030000), (4, 0x000C0000)])
      [0x60c1, 0x60c2, 0x6101, 0x6102, 0x6141, 0x6142, 0x60c3, 0x6181] =
      [0xCC, 0xCC, 0x0C, 0xC0, 0xCC, 0xCC, 0, 0] := by decide

/-- R155 through the command: colour 0 is transparent, so a block with TRANSP_ON_PRIMITIVES = 1 does not plot it. -/
theorem test_transp_on_primitives :
    ((answered (execIn { z8b with transpOnPrimitives := true } (.pset 0 flagC) (start [] [(0x6000, 0x99)]))).map
      fun t : State => t.mem.byte 0x6000) = some 0x99 ∧
    bytesAfter (.pset 0 flagC) (start [] [(0x6000, 0x99)]) [0x6000] = [0x90] := by decide

/-- G26: fill pattern 0xA55A with pen 0x2C. -/
theorem test_rectfill_pattern :
    bytesAfter (.rectfill 0 flag0)
      (start [(2, 0x00030000), (3, 0x00010000)] [(0x5f25, 0x2C), (0x5f31, 0x5A), (0x5f32, 0xA5)])
      [0x6000, 0x6001, 0x6040, 0x6041, 0x6002] = [0xC2, 0xC2, 0x2C, 0x2C, 0] := by decide

/-- G19: the clip rectangle 2 .. 3 by 2 .. 2; G27: a transparent secondary colour. -/
theorem test_rectfill_clipped :
    bytesAfter (.rectfill 0 flagC) (start [(2, 0x00070000), (3, 0x00070000), (4, 0x000B0000)]
      [(0x5f20, 2), (0x5f21, 2), (0x5f22, 4), (0x5f23, 3)]) [0x6080, 0x6081, 0x6082, 0x6041, 0x60c1] = [0, 0xBB, 0, 0, 0] ∧
    bytesAfter (.rectfill 0 flag0)
      (start [(2, 0x00030000)] [(0x5f25, 0x2C), (0x5f31, 0x5A), (0x5f32, 0xA5), (0x5f33, 1)]) [0x6000, 0x6001] =
      [0xC0, 0xC0] := by decide

/-- G21: the four pixels of radius 1. -/
theorem test_circ :
    bytesAfter (.circ 0 flagC) (start [(0, 0x000A0000), (1, 0x000A0000), (2, 0x00010000), (3, 0x00090000)])
      [0x6244, 0x6245, 0x6284, 0x6285, 0x62c5] = [0, 0x09, 0x90, 0x90, 0x09] := by decide

/-- G25: a negative radius draws nothing and sets PEN. -/
theorem test_circ_negative_radius :
    bytesAfter (.circ 0 flagC) (start [(0, 0x000A0000), (1, 0x000A0000), (2, 0xFFFF0000), (3, 0x00090000)])
      [0x6285, 0x5f25] = [0, 0x09] := by decide

/-- G21: the five pixels of radius 1. -/
theorem test_circfill :
    bytesAfter (.circfill 0 flagC) (start [(0, 0x000A0000), (1, 0x000A0000), (2, 0x00010000), (3, 0x00090000)])
      [0x6245, 0x6284, 0x6285, 0x62c5, 0x6286] = [0x09, 0x90, 0x99, 0x09, 0] := by decide

/-- The midpoint pairs of R163. -/
theorem test_midpoint_pairs :
    midpointPairs 0 = [(0, 0)] ∧ midpointPairs 3 = [(3, 0), (3, 1), (2, 2)] ∧
    midpointPairs 5 = [(5, 0), (5, 1), (5, 2), (4, 3)] := by decide

/-! ### Blits (vectors B1 to B14) -/

/-- B1 and B2, on a screen of zeros: colour 0 is transparent. -/
theorem test_spr :
    bytesAfter (.spr 0 flag0) (start [(0, 0x00010000), (3, 0x00008000), (4, 0x00004000)] sheet)
      [0x6000, 0x6001, 0x6040, 0x6041, 0x6002] = [0x21, 0x03, 0x04, 0x65, 0] ∧
    bytesAfter (.spr 0 flagX) (start [(0, 0x00010000), (3, 0x00008000), (4, 0x00004000)] sheet)
      [0x6000, 0x6001, 0x6040, 0x6041] = [0x30, 0x12, 0x56, 0x40] := by decide

/-- B8: colour 0 opaque, colour 2 transparent, over colour 9; B10: sprite 256. -/
theorem test_spr_transparency :
    bytesAfter (.spr 0 flag0) (start [(0, 0x00010000), (3, 0x00008000), (4, 0x00004000)]
      (sheet ++ [(0x5f00, 0x00), (0x5f02, 0x12), (0x6000, 0x99), (0x6001, 0x99)])) [0x6000, 0x6001] = [0x91, 0x03] ∧
    bytesAfter (.spr 0 flag0) (start [(0, 0x01000000), (3, 0x00008000), (4, 0x00004000)] sheet) [0x6000] = [0] := by
  decide

/-- B5: stretched 4 x 2 to 6 x 3. -/
theorem test_sspr :
    bytesAfter (.sspr 0 flag0) (start [(0, 0x00080000), (2, 0x00040000), (3, 0x00020000), (4, 0x00010000), (6, 0x00060000),
      (7, 0x00030000)] sheet) [0x6000, 0x6001, 0x6002, 0x6003, 0x6080, 0x6081, 0x6082, 0x6083] =
      [0x10, 0x21, 0x33, 0x00, 0x40, 0x04, 0x55, 0x06] := by decide

/-- B9: outside the sheet the colour is 0, opaque here, over colour 9. -/
theorem test_sspr_off_sheet :
    bytesAfter (.sspr 0 flag0) (start [(0, 0x007E0000), (2, 0x00040000), (3, 0x00010000), (6, 0x00040000), (7, 0x00010000)]
      [(0x003f, 0x87), (0x5f00, 0x00), (0x6000, 0x99), (0x6001, 0x99), (0x6002, 0x99)]) [0x6000, 0x6001, 0x6002] =
      [0x87, 0x00, 0x99] := by decide

/-- B14: a map row of the shared area; B13: a layer that sprite 1 passes. -/
theorem test_map :
    bytesAfter (.map 0 flag0) (start [(1, 0x00200000), (4, 0x00010000), (5, 0x00010000)] (sheet ++ [(0x1000, 1)]))
      [0x6000, 0x6001, 0x6040, 0x6041] = [0x21, 0x03, 0x04, 0x65] ∧
    bytesAfter (.map 0 flag0) (start [(4, 0x00010000), (5, 0x00010000), (6, 0x00060000)]
      (sheet ++ [(0x2000, 1), (0x3001, 2)])) [0x6000, 0x6001] = [0x21, 0x03] := by decide

/-- B12: a layer that sprite 1 does not pass. -/
theorem test_map_layer :
    bytesAfter (.map 0 flag0) (start [(4, 0x00010000), (5, 0x00010000), (6, 0x00010000)]
      (sheet ++ [(0x2000, 1), (0x3001, 2)])) [0x6000, 0x6001] = [0, 0] := by decide

/-- The map addresses printed with R185. -/
theorem test_map_addresses :
    mapAddr z8b 0 0 = 0x2000 ∧ mapAddr z8b 127 31 = 0x2fff ∧ mapAddr z8b 0 32 = 0x1000 ∧ mapAddr z8b 127 63 = 0x1fff := by decide

/-! ### Audio (vectors A1 to A11 and the loop of R219) -/

/-- A1, and a start at note 31. -/
theorem test_sfx_starts :
    channelAfter (.sfx 4 flag0) (start [(5, 0x00020000)]) 2 = some ⟨some 0, 0, 0, true, 24, 0⟩ ∧
    channelAfter (.sfx 4 flag0) (start [(4, 0x003F0000), (6, 0x001F0000)]) 0 = some ⟨some 63, 0x1F0000, 0, true, 24, 0⟩ := by
  decide

/-- A8 (n = 64), A10 and the release of a playing channel. -/
theorem test_sfx_ignores_stops_releases :
    channelAfter (.sfx 4 flag0) (playing.setReg 4 0x00400000 |>.setReg 5 0x00020000) 2 = some (Channel.started 0 0) ∧
    channelAfter (.sfx 4 flag0) (playing.setReg 4 0xFFFF0000 |>.setReg 5 0x00020000) 2 = some Channel.stopped ∧
    channelAfter (.sfx 4 flag0) (playing.setReg 4 0xFFFE0000 |>.setReg 5 0x00020000) 2 =
      some ⟨some 0, 0, 0, false, 24, 0⟩ := by decide

/-- A3: the first three ticks. -/
theorem test_tick :
    (tick 2 (tick 2 (tick 2 playing))).out = [⟨2, 384⟩, ⟨2, 256⟩, ⟨2, 128⟩] ∧
    (tick 2 (tick 2 (tick 2 playing))).ch.get 2 = ⟨some 0, 0x432, 0xF54, true, 24, 0xC00⟩ := by decide

/-- A5 and A6: the ticks 184 and 185, from the state after tick 183. -/
theorem test_tick_note_change :
    (tick 2 (playing.setCh 2 ⟨some 0, 65514, 239364, true, 24, 0xB6DB⟩)).ch.get 2 =
      ⟨some 0, 0x10150, 0x3AC20, true, 33, 0xB6DB⟩ ∧
    (tick 2 (playing.setCh 2 ⟨some 0, 0x10150, 0x3AC20, true, 33, 0xB6DB⟩)).out = [⟨2, BitVec.ofInt 16 (-3714)⟩] := by
  decide

/-- The loop vector: tick 184 wraps 0x30150 to 0x10150; released, it runs on (R219). -/
theorem test_loop : loopWrap 65536 true 1 3 0x30150 = 0x10150 ∧ loopWrap 65536 false 1 3 0x300F8 = 0x300F8 ∧
    loopWrap 65536 true 1 3 0x50166 = 0x10166 := by decide

/-- WAVE at the phases of section 2.6 where a shape is least regular. -/
theorem test_waves :
    waveZ8b 0 0x5556 0 = -10924 ∧ waveZ8b 1 0xE666 0 = 32772 ∧ waveZ8b 2 0x8000 0 = -21398 ∧
    waveZ8b 3 0x8000 0 = -16384 ∧ waveZ8b 4 0x5556 0 = -16384 ∧ waveZ8b 5 0xE665 0 = -10192 ∧
    waveZ8b 7 0x00404000 0 = -11008 ∧ waveZ8b 7 0xFFFF 0 = -43348 := by decide

/-- The constants of section 2.6, and the length of the pitch table (R215). -/
theorem test_tables :
    phaseStepTable.length = 64 ∧ phaseStepZ8b 24 = 778 ∧ phaseStepZ8b 33 = 1308 ∧ phaseStepZ8b 45 = 2615 ∧
    voltabZ8b 4 = 37449 ∧ voltabZ8b 7 = 65536 ∧ ostepZ8b 0 1 = 358 ∧ ostepZ8b 0 16 = 22 ∧ ostepZ8b 0 255 = 1 := by
  decide

/-! ### The sequencer, the fault, reset and the host (vectors S1 to S6) -/

/-- S1: LIH, then END. -/
theorem test_end : (answered (Sys2Proof.core.run 2 (launched [0x08000003, 0x01000000]))).map
    (fun t : State => (t.reg 0, t.pc, t.seq)) = some (0x00030000, 2, .done) := by decide

theorem test_nop : answered (exec .nop (start [(3, 5)])) = some { start [(3, 5)] with pc := 1 } := by decide

/-- S3: the fault registers of the word 0x10312001 at index 1. -/
theorem test_fault_entry :
    answered (step { launched [0x08000001, 0x10312001] with pc := 1 }) =
      some { launched [0x08000001, 0x10312001] with pc := 1, seq := .fault, faultPc := 1, faultW := 0x10312001 } := by
  decide

/-- R24: what the host reads of SEQ before, after END and after an illegal word; R37: of a silent and a playing channel. -/
theorem test_host_view :
    (launched [0x01000000]).hostView.seq = 0 ∧
    (answered (step (launched [0x01000000]))).map (fun t : State => t.hostView.seq) = some 1 ∧
    (answered (step (launched [0xFFFFFFFF]))).map (fun t : State => t.hostView.seq) = some 2 ∧
    (playing.hostView.ch.get 0).sfx = -1 ∧ (playing.hostView.ch.get 2).sfx = 0 ∧
    playing.hostRead z8b 0x3200 = some 0xE1 ∧ playing.hostRead z8b 0x8000 = none := by decide

/-- R266 with assumption 16: a host write to PEN between reset and launch stays, the image's byte does not. -/
theorem test_host_write_before_launch :
    ((answered (hostWrite z8b 0x5f25 9 (State.reset.resetWith z8b [(0x5f25, 3)]))).map fun t : State => t.mem.byte 0x5f25) = some 9 ∧
    (State.reset.resetWith z8b [(0x5f25, 3)]).mem.byte 0x5f25 = 6 := by decide +kernel

/-- The word that withFetchWord places is the one the next step runs. -/
theorem test_fetch_word :
    decodeTableWord 32 0x10312000 = some (.add 3 1 2) ∧
    (answered (step (State.reset.withFetchWord 32 0x08300007))).map (fun t => (t.reg 3, t.pc)) = some (0x00070000, 1) := by
  decide

/-- The reset check of section 2.7: the image's byte 0xFF is kept outside the draw state only. -/
theorem test_reset_image :
    [0x5eff, 0x5f00, 0x5f0f, 0x5f1f, 0x5f22, 0x5f23, 0x5f25, 0x5f3f, 0x5f40].map
      (resetMem z8b [(0x5eff, 0xFF), (0x5f00, 0xFF), (0x5f0f, 0xFF), (0x5f22, 0xFF), (0x5f25, 0xFF), (0x5f3f, 0xFF), (0x5f40, 0xFF)]).byte =
      [0xFF, 0x10, 0x0F, 0x0F, 0x80, 0x80, 0x06, 0x00, 0xFF] := by decide +kernel

/-! ### A block with other parameters (R5) -/

/-- A small block: 8 registers of 24 bits, 12 of them fraction, 0xb00 bytes of memory, a screen of 64 x 32, 2 channels,
4 sound effects of 8 notes. -/
def small : Params :=
  { z8b with
    xlen := 24, nReg := 8, memSize := 0xb00, oobPolicy := .clamp, gfxBase := 0, map2Base := 0x100, mapBase := 0x200
    flagsBase := 0x300, sfxBase := 0x400, drawBase := 0x500, screenBase := 0x600, screenW := 64, screenH := 32
    sheetW := 32, sheetH := 32, mapW := 16, mapH := 32, nChan := 2, nSfx := 4, nNote := 8
    voltab := fun vol => (vol.toNat : Int) * 4096 / 7, slew := 64, ostep := fun _ spd => 4096 / (183 * spd) }

theorem small_fits : Fits small where
  xlen := by decide
  nReg := by decide
  image := by decide
  drawState := by decide
  screen := by decide
  sheet := by decide
  mapUpper := by decide
  mapLower := by decide
  shared := rfl
  flags := by decide
  sfx := by decide
  evenRows := by decide
  screenApart := by simp [small]; omega
  notes := by decide
  slew := by decide
  voltab := by decide

/-- The small block after reset with some registers set and one word launched. -/
def startSmall (regs : List (Reg × BitVec 24)) (w : CmdWord) : State small.nChan small.nReg small.xlen :=
  { regs.foldl (fun s r => s.setReg r.1 r.2) (State.resetIn small) with cmd := some [w] }

/-- What a command word makes of a register of the small block. -/
def smallAfter (regs : List (Reg × BitVec 24)) (w : CmdWord) (r : Reg) : Option (BitVec 24) :=
  (answered (stepIn small (startSmall regs w))).map fun t => t.reg r

/-- R98 over 8 registers: MOV r12, r1 writes x[4], and no place of the file but that. -/
theorem test_small_register_numbers :
    (answered (stepIn small (startSmall [(1, 0x123456)] 0x0AC10000))).map (fun t => t.x.toList) =
      some [0, 0x123456, 0, 0, 0x123456, 0, 0, 0] := by decide +kernel

/-- R121, R122 with halves of 12 bits: LIH r3, 7; LIL r3, 0x345 over 7.25; the low bits of a longer immediate. -/
theorem test_small_immediates :
    smallAfter [] 0x08300007 3 = some 0x007000 ∧ smallAfter [(3, 0x007400)] 0x09300345 3 = some 0x007345 ∧
    smallAfter [] 0x0830F001 3 = some 0x001000 ∧ smallAfter [] 0x0930F001 3 = some 0x000001 := by decide +kernel

/-- R124 to R127 with words of 24 bits: a sum that wraps, 1.5 * 1.5, -1.0 / 3.0, and the two saturation values. -/
theorem test_small_arithmetic :
    smallAfter [(1, 0x7FFFFF), (2, 1)] 0x10312000 3 = some 0x800000 ∧
    smallAfter [(1, 0x001800), (2, 0x001800)] 0x12312000 3 = some 0x002400 ∧
    smallAfter [(1, 0xFFF000), (2, 0x003000)] 0x13312000 3 = some 0xFFFAAB ∧
    smallAfter [(1, 0x001000)] 0x13312000 3 = some 0x7FFFFF ∧ smallAfter [(1, 0xFFF000)] 0x13312000 3 = some 0x800001 := by
  decide +kernel

/-- R140, R142: PEEK and PEEK4 of DRAWPAL[1 .. 4]. -/
theorem test_small_peek :
    smallAfter [(1, 0x501000)] 0x20210000 2 = some 0x001000 ∧ smallAfter [(1, 0x501000)] 0x22210000 2 = some 0x030201 := by
  decide +kernel

/-- R42, R261: its draw state stands at 0x500, and 0x5f25 is no byte of it. -/
theorem test_small_reset :
    (State.resetIn small).mem.byte 0x525 = 6 ∧ (State.resetIn small).mem.byte 0x50f = 15 ∧
    (State.resetIn small).hostRead small 0x5f25 = none ∧ (State.resetIn small).mem.wf 0xb00 = true := by decide +kernel

/-- R77: its last byte is 0xaff (POKE r1, r2 to 0xc00). -/
theorem test_small_poke : (answered (stepIn small (startSmall [(1, 0xC00000), (2, 0x005000)] 0x21012000))).map
    (fun t => t.mem.byte 0xaff) = some 5 := by decide +kernel

/-- R152: its last pixel (63, 31) is the high nibble of the byte 0x600 + 32*31 + 31; R98: operand 1 of PSET.C r7 is
x[0], operand 2 x[1]. -/
theorem test_small_pset :
    (answered (stepIn small (startSmall [(7, 0x03F000), (0, 0x01F000), (1, 0x00B000)] 0x30070001))).map
      (fun t => (t.mem.byte 0x9ff, t.mem.byte 0x525)) = some (0xB0, 0x0B) := by decide +kernel

/-- R203: SFX reaches its channel 1 and no channel 2, its sound effect 3 and no sound effect 4. -/
theorem test_small_sfx :
    (answered (stepIn small (startSmall [(0, 0x003000), (1, 0x001000)] 0x40000000))).map (fun t => t.ch.get ⟨1, by decide⟩) =
      some (Channel.started 3 0) ∧
    (answered (stepIn small (startSmall [(0, 0x003000), (1, 0x002000)] 0x40000000))).map (fun t => t.ch) =
      some (State.resetIn small).ch ∧
    (answered (stepIn small (startSmall [(0, 0x004000)] 0x40000000))).map (fun t => t.ch) =
      some (State.resetIn small).ch := by decide +kernel

/-- R204 with 1.0 = 0x1000: the first tick of a note with key 33, wave 3 and volume 5. -/
theorem test_small_tick :
    let s := ((State.resetIn small).setMem ((((State.resetIn small).mem.put 0x400 0xE1).put 0x401 0x0A).put 0x411 1)).setCh
      ⟨1, by decide⟩ (Channel.started 0 0)
    (tickIn small ⟨1, by decide⟩ s).out = [⟨⟨1, by decide⟩, 128⟩] ∧
    (tickIn small ⟨1, by decide⟩ s).ch.get ⟨1, by decide⟩ = ⟨some 0, 22, 1308, true, 24, 64⟩ := by decide +kernel

/-! ### Witnesses: every obligation's hypotheses are met together -/

theorem test_witness_EncodeOfDecode : decode 0x10312000 = .ok (.add 3 1 2) := by decide

/-- Each clause of the opcode map: a word of a row with every free bit 1, and a word of none. -/
theorem test_witness_OpcodeMapSelectsTheCommand :
    (⟨"ADD", 0x10000000, 0xFF000FFF⟩ ∈ opcodeMap ∧ (0x10FFF000 : CmdWord) &&& 0xFF000FFF = 0x10000000) ∧
    (opcodeMap.all (fun row => decide ((0x37000000 : CmdWord) &&& row.mask ≠ row.fixedBits)) = true) ∧
    (opcodeMap.all (fun row => decide ((0x10FFF001 : CmdWord) &&& row.mask ≠ row.fixedBits)) = true) :=
  ⟨⟨by simp [opcodeMap], by decide⟩, by decide, by decide⟩

theorem fetches_first (w : CmdWord) : Fetches (launched [w]) w := ⟨[w], rfl, rfl, rfl⟩

theorem test_witness_StepRunsDecodedCommand :
    SeqTurn (launched [0x10312000]) (launched [0x10312000]) ∧ Fetches (launched [0x10312000]) 0x10312000 ∧
    decode 0x10312000 = .ok (.add 3 1 2) := ⟨.inl ⟨rfl, rfl⟩, fetches_first _, by decide⟩

/-- The same in a block with other parameters. -/
theorem test_witness_StepRunsDecodedCommand_small :
    SeqTurn (startSmall [] 0x10312000) (startSmall [] 0x10312000) ∧ Fetches (startSmall [] 0x10312000) 0x10312000 ∧
    decode 0x10312000 = .ok (.add 3 1 2) := ⟨.inl ⟨rfl, rfl⟩, ⟨[0x10312000], rfl, rfl, rfl⟩, by decide⟩

/-- The same with the turn named by the schedule. -/
theorem test_witness_StepRunsDecodedCommand_scheduled :
    SeqTurn { launched [0x00000000] with sched := [.seq, .aud 3] } { launched [0x00000000] with sched := [.aud 3] } ∧
    Fetches { launched [0x00000000] with sched := [.seq, .aud 3] } 0x00000000 ∧ decode 0x00000000 = .ok .nop :=
  ⟨.inr ⟨_, rfl, rfl⟩, ⟨_, rfl, rfl, rfl⟩, by decide⟩

theorem test_witness_IllegalWordTakesTheException :
    SeqTurn (launched [0xFFFFFFFF]) (launched [0xFFFFFFFF]) ∧ Fetches (launched [0xFFFFFFFF]) 0xFFFFFFFF ∧
    decode 0xFFFFFFFF = .error .unassignedOpcode := ⟨.inl ⟨rfl, rfl⟩, fetches_first _, by decide⟩

/-- Each rest condition, nothing launched, and the last word of a list. -/
theorem test_witness_SeqHasAStepExactlyWhenRunning :
    (SeqTurn (launched [0, 0]) (launched [0, 0]) ∧ (launched [0, 0]).cmd = some [0, 0]) ∧
    (SeqTurn State.reset State.reset ∧ State.reset.cmd = none) ∧
    (({ launched [0] with seq := .done } : State).seq = .done) ∧ (({ launched [0] with seq := .fault } : State).seq = .fault) ∧
    ((launched []).seq = .run ∧ ([] : List CmdWord).length ≤ (launched []).pc) ∧
    (∃ t, step { launched [0, 0] with pc := 1 } = .next t) :=
  ⟨⟨.inl ⟨rfl, rfl⟩, rfl⟩, ⟨.inl ⟨rfl, rfl⟩, rfl⟩, rfl, rfl, ⟨rfl, Nat.le_refl _⟩, ⟨_, rfl⟩⟩

theorem test_witness_CommandsWriteOnlyTheirOwnState :
    ∃ t, exec (.poke 1 2) (start [(1, 0x43000000), (2, 0x00050000)]) = .next t := ⟨_, rfl⟩

/-- From DONE by a tick, from FAULT by a host write. -/
theorem test_witness_OnlyResetLeavesDoneOrFault :
    (∃ t, step { launched [0] with seq := .done, sched := [.aud 0] } = .next t) ∧
    (∃ t, step { launched [0] with seq := .fault, sched := [.hostWrite 5 1] } = .next t) := ⟨⟨_, rfl⟩, ⟨_, rfl⟩⟩

theorem test_witness_EveryCommandListTerminates :
    (launched [0x00000000, 0x01000000]).sched = [] ∧
    (launched [0x00000000, 0x01000000]).cmd = some [0x00000000, 0x01000000] := ⟨rfl, rfl⟩

/-- The largest sum that does not wrap. -/
theorem test_witness_AddWraps :
    -2 ^ 31 ≤ (0x7FFFFFFE : Word).toInt + (1 : Word).toInt ∧ (0x7FFFFFFE : Word).toInt + (1 : Word).toInt < 2 ^ 31 := by decide

/-- Each clause of DIV at its edge: the largest quotient that fits, the first that does not, a zero divisor. -/
theorem test_witness_DivTruncatesAndSaturates :
    ((1 : Word) ≠ 0x00010000 ∧ (1 : Word) ≠ 0 ∧ |Int.tdiv ((0xFFFF8001 : Word).toInt * 65536) (1 : Word).toInt| ≤ 0x7FFFFFFF) ∧
    ((1 : Word) ≠ 0x00010000 ∧ 0x7FFFFFFF < |Int.tdiv ((0xFFFF8000 : Word).toInt * 65536) (1 : Word).toInt|) ∧
    ((0 : Word) ≠ 0x00010000 ∧ ((0 : Word) = 0)) := by decide

theorem test_witness_ArithmeticIdentities : (0x00050000 : Word) ≠ 0 := by decide

theorem test_witness_DivIsOddInBothOperands :
    (0x00020000 : Word) ≠ 0 ∧ (0xFFF90000 : Word).toInt = -(0x00070000 : Word).toInt ∧
    (0xFFFE0000 : Word).toInt = -(0x00020000 : Word).toInt ∧
    |Int.tdiv ((0x00070000 : Word).toInt * 65536) (0x00020000 : Word).toInt| ≤ 0x7FFFFFFF := by decide

/-- A canonical memory that lists cells: the premise of the store and drawing statements (O23, O25 to O27, O29, O30,
O32, O34 to O37, O40 to O42, O56, O57). -/
theorem test_witness_canonical_memory : (start [] (sheet ++ tune)).mem.wf 0x8000 = true ∧ (start [] (sheet ++ tune)).mem ≠ [] := by
  decide

/-- In range at the last byte, out of range at the first byte past it, for the byte and for the word. -/
theorem test_witness_PokePeekRoundTrip :
    (∃ t u, exec (.poke 1 2) (start [(1, 0x7FFF0000)]) = .next t ∧ exec (.peek 3 1) t = .next u ∧
      ((start [(1, 0x7FFF0000)]).reg 1).toNat / 65536 < 0x8000) ∧
    (∃ t u, exec (.poke4 1 2) (start [(1, 0x7FFC0000)]) = .next t ∧ exec (.peek4 3 1) t = .next u ∧
      ((start [(1, 0x7FFC0000)]).reg 1).toNat / 65536 + 4 ≤ 0x8000) ∧
    (0x8000 ≤ ((start [(1, 0x80000000)]).reg 1).toNat / 65536) :=
  ⟨⟨_, _, rfl, rfl, by decide⟩, ⟨_, _, rfl, rfl, by decide⟩, by decide⟩

/-- Both policies, and an image of one byte. -/
theorem test_witness_OutOfRangePolicies :
    Mem.wf 0x8000 [(0x7fff, 0xBE)] = true ∧ (start [(1, 0x7FFE0000)] [(0x7fff, 0xBE)]).mem.wf z8b.memSize = true ∧
    z8b.oobPolicy = .ignore ∧ ({ z8b with oobPolicy := .clamp } : Params).oobPolicy = .clamp ∧ 0 < z8b.memSize ∧
    Mem.wf 1 [(0, 5)] = true ∧ 0 < ({ z8b with memSize := 1 } : Params).memSize :=
  ⟨by decide, by decide, rfl, rfl, by decide, by decide, by decide⟩

theorem test_witness_CanonicalMemoriesAreEqualData :
    Mem.wf 0x8000 [(0x4300, 5)] = true ∧ (∀ a, a < 0x8000 → Mem.byte [(0x4300, 5)] a = Mem.byte [(0x4300, 5)] a) :=
  ⟨by decide, fun _ _ => rfl⟩

theorem test_witness_SetPixReplacesOneNibble : Mem.wf 0x8000 [] = true ∧ ((127, 127) : Fin 128 × Fin 128) ≠ (126, 127) := by decide

/-- On the screen's last pixel, and one past it. -/
theorem test_witness_PgetReadsAPixel :
    (((127 : Fin 128).val : Int) = sx (start [(0, 0x007F0000), (1, 0x007F0000)]) 0 0 ∧
      ((127 : Fin 128).val : Int) = sy (start [(0, 0x007F0000), (1, 0x007F0000)]) 0 1) ∧
    128 ≤ sx (start [(0, 0x00800000)]) 0 0 ∧ sy (start [(1, 0xFFFF0000)]) 0 1 < 0 := by decide

theorem test_witness_LineReachesItsEnd : (0 : Int) ≠ 2 ∧ (0 : Int) ≠ 5 := by decide

theorem test_witness_MidpointPairsAreTheTurns : (0 : Int) ≤ 0 ∧ (2 : Nat) < (midpointPairs 3).length := by decide

/-- Both values of the parameter, and the positions next to the screen. -/
theorem test_witness_PlotFollowsThePipeline :
    ((-1 : Int) < 0 ∧ (128 : Int) ≤ 128) ∧ z8b.transpOnPrimitives = false ∧ ({ z8b with transpOnPrimitives := true } : Params).transpOnPrimitives = true :=
  ⟨by decide, rfl, rfl⟩

/-- The first and the last sheet row of the shared area. -/
theorem test_witness_SheetAndMapShareTheirBytes : 64 ≤ (64 : Fin 128).val ∧ 64 ≤ (127 : Fin 128).val := by decide

/-- Both clauses of SPR, at the last sprite and past it. -/
theorem test_witness_SprBlits :
    whole (start [(0, 0x00FF0000)]) 0 0 = 255 ∧ whole (start [(0, 0x01000000)]) 0 0 = 256 := by decide

/-- Each clause of SFX at its edge. -/
theorem test_witness_SfxStartsStopsReleases :
    whole (start [(0, 0xFFFF0000), (1, 0x00030000)]) 0 0 = -1 ∧
    whole (start [(0, 0xFFFF0000), (1, 0x00030000)]) 0 1 = ((3 : Chan).val : Int) ∧
    whole (start [(0, 0xFFFE0000)]) 0 0 = -2 ∧
    (whole (start [(0, 0x003F0000), (2, 0x001F0000)]) 0 0 = ((63 : Nat) : Int) ∧
      whole (start [(0, 0x003F0000), (2, 0x001F0000)]) 0 2 = 31) ∧
    whole (start [(0, 0xFFFD0000)]) 0 0 = -3 ∧ whole (start [(0, 0x00400000)]) 0 0 = 64 ∧
    whole (start [(2, 0x00200000)]) 0 2 = 32 ∧ 0 < small.nReg := by decide

theorem playing_inv : playing.Inv := by decide

/-- A playing and a silent channel. -/
theorem test_witness_TickFollowsTheProcedure :
    playing.Inv ∧ (playing.ch.get 2).sfx = some 0 ∧ (playing.ch.get 0).sfx = none := ⟨playing_inv, by decide, by decide⟩

theorem test_witness_AudioTurnIsATick :
    ({ playing with sched := [.aud 2] } : State).sched = .aud 2 :: [] ∧
    ({ State.resetIn small with sched := [.aud ⟨1, by decide⟩] } : State small.nChan small.nReg small.xlen).sched = .aud ⟨1, by decide⟩ :: [] := ⟨rfl, rfl⟩

/-- The draws at both ends, two phases that differ above bit 15 only, and two that differ above bit 22 only. -/
theorem test_witness_WaveformContract :
    (-32768 ≤ (-32768 : Int) ∧ (-32768 : Int) ≤ 32767) ∧ (-32768 ≤ (32767 : Int) ∧ (32767 : Int) ≤ 32767) ∧
    (5 : BitVec 3).toNat ≤ 5 ∧ (0x00012345 : Word).toNat % 65536 = (0xFFFF2345 : Word).toNat % 65536 ∧
    (0x00012345 : Word).toNat % 2 ^ 23 = (0xFF812345 : Word).toNat % 2 ^ 23 := by decide

/-- The values printed with R207 to R212 and R214, by the formulas the statements use. -/
theorem test_waveform_formulas :
    waveform 0 0 0 0 = 32768 ∧ waveform 0 0xFFFF 0 0 = 32766 ∧ waveform 1 58981 0 0 = 32766 ∧ waveform 1 58982 0 0 = 32772 ∧
    waveform 2 0x8000 0 0 = -21398 ∧ waveform 3 0x8000 0 0 = -16384 ∧ waveform 4 21845 0 0 = 16384 ∧
    waveform 5 0xC000 0 0 = 7281 ∧ waveform 7 0x8000 (0x8000 / 128) 0 = 21674 ∧ waveform 7 0 0x8000 0 = -21846 := by decide

theorem test_witness_OutputNeverSaturates : |(-43691 : Int)| ≤ 43691 ∧ (0 : Int) ≤ 65536 ∧ (65536 : Int) ≤ 65536 := by decide

theorem test_witness_VolumeSlewsTowardTarget : (0 : Int) ≤ 0x10000 ∧ (0x10000 : Int) ≤ 0x10000 := by decide

theorem test_witness_NoiseReachesOnlyTheSample :
    ({ playing with noiseCount := 7 } : State) = { playing with noiseCount := ({ playing with noiseCount := 7 } : State).noiseCount } :=
  rfl

/-- Each clause of the loop rule at its edge. -/
theorem test_witness_LoopWrapsIntoRange :
    ((1 : Nat) < 3 ∧ 3 * 65536 ≤ (3 * 65536 : Nat)) ∧ (3 * 65536 - 1 : Nat) < 3 * 65536 ∧ (1 : Nat) ≤ 1 := by decide

/-- The tune, released; the tune, whose loop bytes are both 0; and a loop end of 33. -/
theorem test_witness_UnloopedChannelFallsSilent :
    ((playing.setCh 2 ⟨some 0, 0, 0, false, 24, 0⟩).Inv ∧
      ((playing.setCh 2 ⟨some 0, 0, 0, false, 24, 0⟩).ch.get 2).condition = .released) ∧
    (playing.mem.byte (0x3200 + 68 * 0 + 67)).toNat ≤ (playing.mem.byte (0x3200 + 68 * 0 + 66)).toNat ∧
    32 < ((start [] (tune ++ [(0x3243, 33)])).mem.byte (0x3200 + 68 * 0 + 67)).toNat :=
  ⟨⟨by decide, by decide⟩, by decide, by decide⟩

/-- Sound effect 0 with the loop range 0 .. 32. -/
theorem test_witness_LoopingChannelPlaysOn :
    let s := (start [] (tune ++ [(0x3243, 32)])).setCh 2 (Channel.started 0 0)
    s.Inv ∧ (s.ch.get 2).condition = .playing ∧ (s.ch.get 2).sfx = some 0 ∧
      (s.mem.byte (0x3200 + 68 * 0 + 66)).toNat < (s.mem.byte (0x3200 + 68 * 0 + 67)).toNat ∧
      (s.mem.byte (0x3200 + 68 * 0 + 67)).toNat ≤ 32 := ⟨by decide, by decide, by decide, by decide, by decide⟩

/-- An image that names one address twice and leaves another out, next to the draw state on both sides: the last
pair counts, the rest is zero. -/
theorem test_witness_ResetSetsEveryPieceOfState :
    ({ State.reset with sched := [.hostReset [(0x5eff, 1), (0x5f40, 2), (0x5eff, 3)]] } : State).sched =
      .hostReset [(0x5eff, 1), (0x5f40, 2), (0x5eff, 3)] :: [] ∧
    [0x5eff, 0x5f40, 0x5efe, 0x7fff].map
      (fun a => ((([(0x5eff, 1), (0x5f40, 2), (0x5eff, 3)] : List Host.Cell).reverse.find? fun c => c.1 == a).map (·.2)).getD 0) =
      [3, 2, 0, 0] ∧
    ({ State.resetIn small with sched := [.hostReset []] } : State small.nChan small.nReg small.xlen).sched = .hostReset [] :: [] :=
  ⟨by decide, by decide, rfl⟩

/-- Reset and launch; a launch with nothing launched; a launch with a list launched that has ended. -/
theorem test_witness_BootLaunchesTheList :
    ({ State.reset with sched := [.hostReset tune, .hostLaunch [0x01000000]] } : State).sched =
      .hostReset tune :: .hostLaunch [0x01000000] :: [] ∧
    (({ State.reset with sched := [.hostLaunch []] } : State).sched = .hostLaunch [] :: [] ∧ State.reset.cmd = none) ∧
    (launched [0x01000000]).cmd ≠ none := ⟨rfl, ⟨rfl, rfl⟩, by decide⟩

/-- The clauses of the host's write: at rest with the last address, before launch, and while running. -/
theorem test_witness_HostWritesOnlyWhileSeqRests :
    (({ launched [0] with seq := .done, sched := [.hostWrite 0x7fff 1] } : State).sched = .hostWrite 0x7fff 1 :: [] ∧
      ({ launched [0] with seq := .done } : State).seq ≠ .run) ∧
    (State.reset.seq = .run ∧ State.reset.cmd = none) ∧ ((launched [0]).seq = .run ∧ (launched [0]).cmd ≠ none) := by decide

/-- A host write in range, before launch. -/
theorem test_witness_HostReadsTheState :
    State.reset.mem.wf 0x8000 = true ∧ ∃ t, hostWrite z8b 0x7fff 1 State.reset = .next t := ⟨rfl, ⟨_, rfl⟩⟩

theorem test_witness_StepKeepsInvariant :
    (({ playing with sched := [.aud 2] } : State).Inv ∧ ∃ t, step { playing with sched := [.aud 2] } = .next t) ∧
    Fits small ∧ (startSmall [] 0).InvIn small ∧ ∃ t, stepIn small (startSmall [] 0) = .next t :=
  ⟨⟨by decide, ⟨_, rfl⟩⟩, small_fits, by decide +kernel, ⟨_, rfl⟩⟩

/-- SEQ's step with a tick before and after it. -/
theorem test_witness_TicksDoNotChangeTheResult :
    (∀ mv ∈ ([.aud 2, .seq, .aud 0] : List Move), mv = .seq ∨ ∃ ch, mv = .aud ch) ∧
    ∃ t, Sys2Proof.core.run ([.aud 2, .seq, .aud 0] : List Move).length
      { ({ playing with cmd := some [0x08300007] } : State) with sched := [.aud 2, .seq, .aud 0] } = .next t := by
  refine ⟨?_, ⟨_, rfl⟩⟩
  intro mv h
  simp at h
  rcases h with rfl | rfl | rfl
  · exact .inr ⟨2, rfl⟩
  · exact .inl rfl
  · exact .inr ⟨0, rfl⟩

end Sys2Proof.Tests
end

