-- ==== Sys2Proof/Proofs/CommandEffect.lean ====
section
/-! PROOFS. What one command can do to the state, said once over all commands, and what one step of any agent can do. -/

namespace Sys2Proof.Machine

open Sys2Proof.Claims

variable {nc nr xl : Nat} {P : Params}

/-- WHAT A COMMAND CAN DO in a block with parameters P (R21 to R37): from s it leads to the state given last. -/
inductive CommandEffect (P : Params) (s : State nc nr xl) : Instr → State nc nr xl → Prop
  /-- Nothing but pc (R230). -/
  | nop : CommandEffect P s .nop s.advance
  /-- SEQ becomes DONE (R231). -/
  | endCmd : CommandEffect P s .endCmd ({ s with seq := .done } : State nc nr xl).advance
  /-- The destination register is written (R120). -/
  | register {i : Instr} {rd : Reg} (v : BitVec xl) (hd : dest i = some rd) :
      CommandEffect P s i (s.setReg rd v).advance
  /-- MEM is written, inside the image (R27, R67). -/
  | memory {i : Instr} (m : Mem) (hi : storesMem i = true)
      (hm : Fits P → s.mem.wf P.memSize = true → m.wf P.memSize = true) : CommandEffect P s i (s.setMem m).advance
  /-- One audio channel is started, stopped or released (R203). -/
  | channel (ra : Reg) (f : VFlags) (k n off : Int) :
      CommandEffect P s (.sfx ra f) (s.modifyCh k (sfxChannel P n off)).advance

/-- The memory a primitive leaves is canonical (R67, R154). -/
theorem plots_wf (hP : Fits P) {m : Mem} (h : m.wf P.memSize = true) (hasColour : Bool) (colour : BitVec xl)
    (pts : List (Int × Int)) :
    let m' := resolveColour P hasColour colour m
    (drawPixels P m' (pts.filterMap fun p => plot P m' p.1 p.2)).wf P.memSize = true :=
  drawPixels_wf hP (resolveColour_wf hP h hasColour colour) onScreen_plots

/-- What SPR writes lies on the screen, whichever sprite it names (R67, R184). -/
theorem onScreen_ite_blit {c : Prop} [Decidable c] {m : Mem} {b : BlitArgs} :
    ∀ p ∈ (if c then blit P m b else []), OnScreen P p.x p.y := by
  split
  · exact onScreen_blit
  · simp

/-- EVERY COMMAND COMPLETES (R240), with one of these effects. -/
theorem execIn_effect (P : Params) (i : Instr) (s : State nc nr xl) :
    ∃ t, execIn P i s = .next t ∧ CommandEffect P s i t := by
  cases i with
  | nop => exact ⟨_, rfl, .nop⟩
  | endCmd => exact ⟨_, rfl, .endCmd⟩
  | lih | lil | mov | add | sub | mul | div | peek | peek4 | pget => exact ⟨_, rfl, .register _ rfl⟩
  | poke | poke4 => exact ⟨_, rfl, .memory _ rfl fun hP h => memWrite_wf hP.image h _ _ _⟩
  | pset | line | rect | rectfill | circ | circfill => exact ⟨_, rfl, .memory _ rfl fun hP h => plots_wf hP h _ _ _⟩
  | spr => exact ⟨_, rfl, .memory _ rfl fun hP h => drawPixels_wf hP h onScreen_ite_blit⟩
  | sspr => exact ⟨_, rfl, .memory _ rfl fun hP h => drawPixels_wf hP h onScreen_blit⟩
  | map => exact ⟨_, rfl, .memory _ rfl fun hP h => drawPixels_wf hP h onScreen_mapPixels⟩
  | sfx ra f => exact ⟨_, rfl, .channel ra f _ _ _⟩

/-- A command answers its effect and nothing else. -/
theorem effect_of_execIn {i : Instr} {s t : State nc nr xl} (h : execIn P i s = .next t) : CommandEffect P s i t := by
  obtain ⟨u, hu, he⟩ := execIn_effect P i s
  rw [h] at hu
  cases hu
  exact he

/-- The effects of the commands of Z8B-1.0. -/
theorem exec_effect (i : Instr) (s : State) : ∃ t, exec i s = .next t ∧ CommandEffect z8b s i t := by
  rw [← execIn_z8b]; exact execIn_effect z8b i s

theorem effect_of_exec {i : Instr} {s t : State} (h : exec i s = .next t) : CommandEffect z8b s i t := by
  rw [← execIn_z8b] at h; exact effect_of_execIn h

/-- A command that writes a register is none of those that write MEM, a channel or SEQ (R21, R27, R37). -/
theorem writes_only_dest {i : Instr} {rd : Reg} (h : dest i = some rd) :
    storesMem i = false ∧ (∀ ra f, i ≠ .sfx ra f) ∧ i ≠ .endCmd := by
  cases i <;> simp [dest, storesMem] at h ⊢

/-- pc moves on by one, and what no command touches stays (R22, R240). -/
theorem CommandEffect.control {i : Instr} {s t : State nc nr xl} (h : CommandEffect P s i t) :
    t.pc = s.pc + 1 ∧ t.faultPc = s.faultPc ∧ t.faultW = s.faultW ∧ t.cmd = s.cmd ∧ t.sched = s.sched ∧
      t.noiseCount = s.noiseCount ∧ t.out = s.out := by
  cases h with
  | nop | endCmd | register | memory | channel => simp

/-- A register that changes is the destination (R21). -/
theorem CommandEffect.dest_of_reg_ne {i : Instr} {s t : State nc 16 xl} (h : CommandEffect P s i t) {r : Reg}
    (hr : t.reg r ≠ s.reg r) : dest i = some r := by
  cases h with
  | nop | endCmd | memory => exact absurd rfl hr
  | channel => exact absurd (reg_congr (by simp) r) hr
  | @register i rd v hd =>
    have : r = rd := by
      by_contra hne
      exact hr (reg_setReg_of_ne s v hne)
    rw [this, hd]

/-- MEM changes only by a command that stores (R27). -/
theorem CommandEffect.mem_eq {i : Instr} {s t : State nc nr xl} (h : CommandEffect P s i t)
    (hi : storesMem i = false) : t.mem = s.mem := by
  cases h with
  | nop | endCmd | register | channel => simp
  | memory m hs => simp [hs] at hi

/-- The channels change only by SFX (R37). -/
theorem CommandEffect.ch_eq {i : Instr} {s t : State nc nr xl} (h : CommandEffect P s i t)
    (hi : ∀ ra f, i ≠ .sfx ra f) : t.ch = s.ch := by
  cases h with
  | nop | endCmd | register | memory => simp
  | channel ra f => exact absurd rfl (hi ra f)

/-- SEQ changes only by END (R24). -/
theorem CommandEffect.seq_eq {i : Instr} {s t : State nc nr xl} (h : CommandEffect P s i t) :
    t.seq = if i = .endCmd then .done else s.seq := by
  cases h with
  | nop | endCmd | channel => simp
  | register v hd => simp [(writes_only_dest hd).2.2]
  | memory m hs =>
    have : i ≠ .endCmd := by rintro rfl; cases hs
    simp [this]

/-- A step of SEQ that exists is a command of the list or the exception (R232). -/
theorem seqStep_next {run : Instr → State nc nr xl → Result nc nr xl} {s t : State nc nr xl}
    (h : seqStep run s = .next t) :
    s.seq = .run ∧ ((∃ i, run i s = .next t) ∨ ∃ w, t = raiseIllegalCommand w s) := by
  have hrun {w} (hf : fetch s = .ok w) : s.seq = .run := by
    obtain ⟨-, -, hs, -⟩ := fetch_ok.1 hf
    exact hs
  rcases seqStep_cases run s with ⟨r, -, e⟩ | ⟨w, i, hf, -, e⟩ | ⟨w, d, hf, -, e⟩
  · rw [e] at h; cases h
  · exact ⟨hrun hf, .inl ⟨i, e ▸ h⟩⟩
  · rw [e] at h; cases h
    exact ⟨hrun hf, .inr ⟨w, rfl⟩⟩

end Sys2Proof.Machine
end

