-- ==== Sys2Proof/Proofs/Invariant.lean ====
section
/-! PROOFS. The invariant of a block (R38, R216): what keeps a channel's part of it, and that every agent's step
keeps it. -/

namespace Sys2Proof.Machine

variable {nc nr xl : Nat} {P : Params}

/-- A stopped channel meets the invariant (R37, R38). -/
@[simp] theorem stopped_ok (P : Params) : (Channel.stopped : Channel xl).ok P = true := by
  simp [Channel.ok, Channel.stopped]

/-- A playing channel's invariant, part by part (R38, R216). -/
theorem ok_of_sfx {c : Channel xl} {n : Nat} (h : c.sfx = some n) :
    c.ok P = true ↔ n < P.nSfx ∧ c.noteIndex < P.nNote ∧ c.prevVol.toNat ≤ fixOne xl := by
  simp [Channel.ok, h, and_assoc]

/-- A playing channel released still meets the invariant, which does not speak of the loop flag (R203, R221). -/
theorem release_ok {c : Channel xl} (hc : c.sfx.isSome = true) (h : c.ok P = true) :
    ({ c with canLoop := false } : Channel xl).ok P = true := by
  obtain ⟨n, hn⟩ := Option.isSome_iff_exists.1 hc
  rw [ok_of_sfx (c := { c with canLoop := false }) hn]
  exact (ok_of_sfx hn).1 h

/-- An offset below NNOTE notes is not cut by the word, so its note is below NNOTE (R38). -/
theorem note_lt_of_offset_lt (hP : P.nNote * fixOne xl ≤ 2 ^ xl) {off : Nat} (h : off < P.nNote * fixOne xl) :
    upart (BitVec.ofNat xl off) < P.nNote := by
  rw [upart_eq_div_fixOne, BitVec.toNat_ofNat, Nat.mod_eq_of_lt (by omega), Nat.div_lt_iff_lt_mul (fixOne_pos xl)]
  exact h

/-- A channel started at a sound effect and a note that exist meets the invariant (R203). -/
theorem started_ok (hP : P.nNote * fixOne xl ≤ 2 ^ xl) {n off : Nat} (hn : n < P.nSfx) (ho : off < P.nNote) :
    (Channel.started n off : Channel xl).ok P = true := by
  have hoff : off * fixOne xl < P.nNote * fixOne xl := Nat.mul_lt_mul_of_pos_right ho (fixOne_pos xl)
  exact (ok_of_sfx rfl).2 ⟨hn, note_lt_of_offset_lt hP hoff, by simp [Channel.started, Channel.stopped]⟩

/-- SFX keeps its channel's invariant, whatever its arguments (R203). -/
theorem sfxChannel_ok (hP : P.nNote * fixOne xl ≤ 2 ^ xl) (n off : Int) {c : Channel xl} (h : c.ok P = true) :
    (sfxChannel P n off c).ok P = true := by
  unfold sfxChannel
  split
  · exact stopped_ok P
  · split
    · split
      · next hc => exact release_ok hc h
      · exact h
    · split
      · exact started_ok hP (by omega) (by omega)
      · exact h

/-- A volume up to 1.0 reads the same with a sign and without (R216). -/
theorem s32_of_le_fixOne (hx : 3 ≤ xl) {v : BitVec xl} (h : v.toNat ≤ fixOne xl) : s32 v = v.toNat :=
  BitVec.toInt_eq_toNat_of_lt (lt_of_le_of_lt (Nat.mul_le_mul_left 2 h) (two_mul_fixOne_lt hx))

/-- The volume a tick applies stays in 0 .. 1.0 (R204 step 3, R216). -/
theorem tickVolume_range (hP : Fits P) {c : Channel P.xlen} (h : c.prevVol.toNat ≤ fixOne P.xlen) (m : Mem) (n : Nat) :
    0 ≤ tickVolume P m n c ∧ tickVolume P m n c ≤ fixOne P.xlen := by
  have hv := hP.voltab (noteAt P m n c.noteIndex).vol
  have hs := s32_of_le_fixOne hP.xlen h
  exact slewedVolume_range hP.slew (by omega) (by omega) hv.1 hv.2

/-- A volume in 0 .. 1.0 is at most 1.0 as a word (R6, R216). -/
theorem toNat_ofInt_le_fixOne {v : Int} (h0 : 0 ≤ v) (h1 : v ≤ fixOne xl) : (BitVec.ofInt xl v).toNat ≤ fixOne xl := by
  obtain ⟨k, rfl⟩ := Int.eq_ofNat_of_zero_le h0
  rw [BitVec.ofInt_natCast, BitVec.toNat_ofNat]
  exact le_trans (Nat.mod_le ..) (by omega)

/-- A tick keeps its playing channel's invariant: the channel stops at NNOTE notes or stays below them (R204, R220). -/
theorem tickChannel_ok (hP : Fits P) (m : Mem) {n : Nat} {c : Channel P.xlen} (hn : c.sfx = some n)
    (h : c.ok P = true) : (tickChannel P m n c).ok P = true := by
  obtain ⟨hsfx, -, hvol⟩ := (ok_of_sfx hn).1 h
  obtain ⟨hv0, hv1⟩ := tickVolume_range hP hvol m n
  unfold tickChannel
  dsimp only
  split
  · exact stopped_ok P
  · next hnxt =>
    refine (ok_of_sfx (n := n) ?_).2
      ⟨hsfx, note_lt_of_offset_lt hP.notes (Nat.lt_of_not_le hnxt), toNat_ofInt_le_fixOne hv0 hv1⟩
    exact hn

/-- A channel file with one channel replaced by one that meets the invariant. -/
theorem setCh_ok {s : State nc nr xl} (h : ∀ k, (s.ch.get k).ok P = true) {ch : Fin nc} {c : Channel xl}
    (hc : c.ok P = true) (k : Fin nc) : ((s.setCh ch c).ch.get k).ok P = true := by
  by_cases hk : k = ch
  · subst hk; rwa [ch_setCh_self]
  · rw [ch_setCh_of_ne s c hk]; exact h k

/-- A reset leaves a block that meets the invariant (R38, R42). -/
theorem reset_invIn {s : State nc nr xl} {image : List Host.Cell} (hm : s.mem = resetMem P image)
    (hc : s.ch = Vector.replicate nc Channel.stopped) : s.InvIn P := by
  refine ⟨hm ▸ resetMem_wf P image, fun k => ?_⟩
  simp [hc, Vector.get_eq_getElem]

/-- EVERY COMMAND keeps the invariant. -/
theorem CommandEffect.inv (hP : Fits P) {i : Instr} {s t : State nc nr P.xlen} (h : CommandEffect P s i t)
    (hs : s.InvIn P) : t.InvIn P := by
  obtain ⟨hmem, hch⟩ := hs
  cases h with
  | nop | endCmd | register => exact ⟨hmem, hch⟩
  | memory m _ hm => exact ⟨hm hP hmem, hch⟩
  | channel ra f j n off =>
    refine ⟨by simpa using hmem, fun k => ?_⟩
    rw [advance_ch, ch_modifyCh]
    split
    · exact sfxChannel_ok hP.notes n off (hch k)
    · exact hch k

/-- EVERY TICK keeps the invariant (R204). -/
theorem tickIn_inv (hP : Fits P) (ch : Fin nc) {s : State nc nr P.xlen} (hs : s.InvIn P) : (tickIn P ch s).InvIn P := by
  obtain ⟨hmem, hch⟩ := hs
  cases hn : (s.ch.get ch).sfx with
  | none => rw [tickIn_silent P hn]; exact ⟨hmem, hch⟩
  | some n =>
    rw [tickIn_playing P hn]
    exact ⟨hmem, setCh_ok hch (tickChannel_ok hP s.mem hn (hch ch))⟩

/-- EVERY MOVE OF EVERY AGENT keeps the invariant. -/
theorem perform_inv (hP : Fits P) {mv : Move nc} {s t : State nc nr P.xlen} (hs : s.InvIn P)
    (h : perform P (execIn P) mv s = .next t) : t.InvIn P := by
  cases mv with
  | seq =>
    obtain ⟨-, ⟨i, hi⟩ | ⟨w, rfl⟩⟩ := seqStep_next h
    · exact (effect_of_execIn hi).inv hP hs
    · exact hs
  | aud ch => cases h; exact tickIn_inv hP ch hs
  | hostWrite a b =>
    obtain ⟨-, rfl⟩ := hostWrite_next h
    split
    · next ha => exact ⟨Mem.put_wf hs.1 b ha, hs.2⟩
    · exact hs
  | hostReset image => cases h; exact reset_invIn rfl rfl
  | hostLaunch list =>
    obtain ⟨-, rfl⟩ := hostLaunch_next h
    exact hs

/-- EVERY STEP keeps the invariant. -/
theorem stepIn_inv (hP : Fits P) {s t : State P.nChan P.nReg P.xlen} (hs : s.InvIn P) (h : stepIn P s = .next t) :
    t.InvIn P := by
  obtain ⟨rest, hrest⟩ := takeTurn_state s
  have hs' : (takeTurn s).2.InvIn P := by rw [hrest]; exact hs
  exact perform_inv hP hs' h

end Sys2Proof.Machine

namespace Sys2Proof.Proofs

open Sys2Proof.Machine

/-- Settles O59, from `stepIn_inv`, the block of Z8B-1.0 being one for which the rules are written. -/
theorem stepKeepsInvariant : Obligations.StepKeepsInvariant :=
  ⟨fun _ _ hs h => stepIn_inv z8b_fits hs (by rw [stepIn_z8b]; exact h), fun _ hP _ _ hs h => stepIn_inv hP hs h⟩

/-- Settles O58: a reset block has a canonical memory and silent channels. -/
theorem resetMeetsInvariant : Obligations.ResetMeetsInvariant := by
  have hIn : ∀ P : Params, (State.resetIn P).InvIn P := fun _ => reset_invIn rfl rfl
  exact ⟨reset_eq_resetIn ▸ hIn z8b, reset_eq_resetIn, hIn⟩

end Sys2Proof.Proofs
end

