-- ==== Sys2Proof/Proofs/WhoWritesWhat.lean ====
section
/-! PROOFS. What commands, resets and the host's reads do to each piece of the state (R20 to R42). -/

namespace Sys2Proof.Machine

open Sys2Proof.Claims

variable {nc nr xl : Nat} {P : Params}

/-- Whoever steps while SEQ rests, a host reset apart, leaves SEQ, pc, the registers and the fault registers
(R24, R246). -/
theorem perform_of_seq_ne_run {run : Instr → State nc nr xl → Result nc nr xl} {mv : Move nc} {s t : State nc nr xl}
    (h : perform P run mv s = .next t) (hs : s.seq ≠ .run) (hmv : ∀ image, mv ≠ .hostReset image) :
    t.seq = s.seq ∧ t.pc = s.pc ∧ t.x = s.x ∧ t.faultPc = s.faultPc ∧ t.faultW = s.faultW := by
  cases mv with
  | seq => exact absurd (seqStep_next h).1 hs
  | aud ch => cases h; simp
  | hostWrite a b =>
    obtain ⟨-, rfl⟩ := hostWrite_next h
    split <;> simp
  | hostReset image => exact absurd rfl (hmv image)
  | hostLaunch list =>
    obtain ⟨-, rfl⟩ := hostLaunch_next h
    simp

/-- The draw-state table is that of R42. -/
theorem drawStateTable_getElem? {k : Nat} (hk : k < 0x40) : drawStateTable[k]? = some (drawDefault k) := by
  have h : ∀ j : Fin 0x40, drawStateTable[j.val]? = some (drawDefault j.val) := by decide
  exact h ⟨k, hk⟩

/-- A draw-state byte after a reset (R42). -/
theorem byte_resetMem_draw (image : List Host.Cell) {k : Nat} (hk : k < 0x40) (h : P.drawBase + k < P.memSize) :
    (resetMem P image).byte (P.drawBase + k) = drawDefault k := by
  rw [byte_resetMem P image h]
  simp [inDrawState, hk]

/-- Any other byte after a reset is the image's (R261). -/
theorem byte_resetMem_image (image : List Host.Cell) {a : Nat} (ha : a < P.memSize)
    (h : a < P.drawBase ∨ P.drawBase + 0x40 ≤ a) :
    (resetMem P image).byte a = ((image.reverse.find? fun c => c.1 == a).map (·.2)).getD 0 := by
  have : inDrawState P a = false := by simp [inDrawState]; omega
  rw [byte_resetMem P image ha, this]
  rfl

/-- A reset gives every piece of state its reset value (R42, R261). -/
theorem resetWith_afterReset (P : Params) (image : List Host.Cell) (s : State nc nr xl) :
    AfterReset P.memSize P.drawBase image (s.resetWith P image) := by
  refine ⟨fun r => ?_, rfl, rfl, rfl, rfl, rfl, fun k => ?_, rfl, fun k hk h => ?_, fun a ha h => ?_⟩
  · simp [Vector.get_eq_getElem]
  · simp [Vector.get_eq_getElem, Channel.stopped]
  · rw [drawStateTable_getElem? hk, resetWith_mem, byte_resetMem_draw image hk h]
  · rw [resetWith_mem, byte_resetMem_image image ha h]

/-- A reset at its turn in the schedule (R70, R261). -/
theorem stepIn_hostReset {image : List Host.Cell} {s : State P.nChan P.nReg P.xlen} {rest : List (Move P.nChan)}
    (h : s.sched = .hostReset image :: rest) :
    ∃ t, stepIn P s = .next t ∧ AfterReset P.memSize P.drawBase image t := by
  refine ⟨({ s with sched := rest } : State P.nChan P.nReg P.xlen).resetWith P image, ?_, resetWith_afterReset P image _⟩
  rw [stepIn, takeTurn_cons h]
  rfl

/-- The host reads -1 of a silent channel alone (R37). -/
theorem sfxCode_eq_neg_one {c : Channel xl} : c.sfxCode = -1 ↔ c.sfx = none := by
  cases h : c.sfx with
  | none => simp [Channel.sfxCode, h]
  | some n => simp [Channel.sfxCode, h]

/-- The host reads a playing channel's sound effect as its number (R37). -/
theorem sfxCode_eq_natCast {c : Channel xl} {n : Nat} : c.sfxCode = n ↔ c.sfx = some n := by
  cases h : c.sfx with
  | none => simp [Channel.sfxCode, h]
  | some k => simp [Channel.sfxCode, h]

/-- What the host reads as `sfx` lies in -1 .. NSFX-1 under the invariant (R38). -/
theorem sfxCode_range {c : Channel xl} (h : c.ok P = true) : -1 ≤ c.sfxCode ∧ c.sfxCode < P.nSfx := by
  cases hc : c.sfx with
  | none =>
    simp only [Channel.sfxCode, hc]
    omega
  | some n =>
    have hn : n < P.nSfx := ((ok_of_sfx hc).1 h).1
    simp only [Channel.sfxCode, hc]
    omega

/-- The host reads `can_loop` as one bit (R37). -/
theorem view_canLoop_eq_one {c : Channel xl} : c.view.canLoop = 1 ↔ c.canLoop = true := by
  cases h : c.canLoop <;> simp [Channel.view, h]

/-- A write the host makes in range is what it reads next (R76). -/
theorem hostRead_hostWrite {a : Nat} {b : Byte} {s t : State nc nr xl} (hm : s.mem.wf P.memSize = true)
    (ha : a < P.memSize) (h : hostWrite P a b s = .next t) : t.hostRead P a = some b := by
  obtain ⟨-, rfl⟩ := hostWrite_next h
  simp [ha, State.hostRead, Mem.byte_put hm]

end Sys2Proof.Machine

namespace Sys2Proof.Proofs

open Sys2Proof.Machine

/-- Settles O8, from the effects of the commands. -/
theorem everyCommandCompletes : Obligations.EveryCommandCompletes := by
  intro i s
  obtain ⟨t, ht, he⟩ := exec_effect i s
  exact ⟨t, ht, he.control⟩

/-- Settles O9, from the effects of the commands. -/
theorem commandsWriteOnlyTheirOwnState : Obligations.CommandsWriteOnlyTheirOwnState := by
  intro i s t h
  have he := effect_of_exec h
  exact ⟨fun _ hr => he.dest_of_reg_ne hr, he.mem_eq, he.ch_eq, he.seq_eq⟩

/-- Settles O11: at rest SEQ has no step, and no other move but a reset touches what it holds. -/
theorem onlyResetLeavesDoneOrFault : Obligations.OnlyResetLeavesDoneOrFault := by
  intro s t h hs hmv
  rw [step] at h
  cases hsched : s.sched with
  | nil =>
    rw [takeTurn_nil hsched] at h
    exact perform_of_seq_ne_run h hs (by simp)
  | cons mv rest =>
    rw [takeTurn_cons hsched] at h
    refine perform_of_seq_ne_run (mv := mv) (s := { s with sched := rest }) h hs ?_
    rintro image rfl
    exact hmv image rest hsched

/-- Settles O54, the block of Z8B-1.0 being one of the blocks with parameters. -/
theorem resetSetsEveryPieceOfState : Obligations.ResetSetsEveryPieceOfState := by
  refine ⟨fun image s rest h => ?_, fun P image s rest h => stepIn_hostReset h⟩
  rw [← stepIn_z8b]
  exact stepIn_hostReset (P := z8b) h

/-- Settles O57, field by field of the host's view. -/
theorem hostReadsTheState : Obligations.HostReadsTheState := by
  intro s
  refine ⟨code_inj (q' := .run), code_inj (q' := .done), code_inj (q' := .fault), rfl, rfl, rfl, rfl, fun k => ?_,
    fun a => rfl, fun a b t hm ha h => hostRead_hostWrite hm ha h⟩
  simp only [hostView_ch]
  refine ⟨sfxCode_eq_neg_one, fun n => sfxCode_eq_natCast, fun hs => ?_, view_canLoop_eq_one, rfl, rfl, rfl, rfl⟩
  obtain ⟨hlo, hhi⟩ := sfxCode_range (hs.2 k)
  exact ⟨hlo, Int.le_of_lt_add_one hhi⟩

end Sys2Proof.Proofs
end

