-- ==== Sys2Proof/Proofs/MemoryPort.lean ====
section
/-! PROOFS. The byte accesses under either out-of-range policy (R61, R62, R77) and what the commands of the memory
port do with them (R140 to R144). -/

namespace Sys2Proof.Machine

open Sys2Proof.Claims

variable {nc nr xl : Nat} {P : Params}

/-- R77: an out-of-range byte read goes to the last byte. -/
theorem readByte_clamp (hP : P.oobPolicy = .clamp) (m : Mem) (a : Nat) :
    readByte P m a = m.byte (min a (P.memSize - 1)) := by
  unfold readByte
  split
  · rw [Nat.min_eq_left (by omega)]
  · rw [hP, Nat.min_eq_right (by omega)]

/-- `MemRead` is little-endian, each byte read on its own (R62). -/
theorem memRead_div_pow_mod (P : Params) (m : Mem) (a : Nat) {n i : Nat} (hi : i < n) :
    memRead P m a n / 256 ^ i % 256 = (readByte P m (a + i)).toNat := by
  induction n generalizing a i with
  | zero => omega
  | succ n ih =>
    have hb := (readByte P m a).isLt
    cases i with
    | zero => simp only [memRead, pow_zero, Nat.div_one, Nat.add_zero]; omega
    | succ i =>
      have hdiv : memRead P m a (n + 1) / 256 = memRead P m (a + 1) n := by simp only [memRead]; omega
      rw [pow_succ', ← Nat.div_div_eq_div_mul, hdiv, ih (a + 1) (by omega), Nat.add_right_comm, Nat.add_assoc]

/-- Byte i of the word that `MemRead` gives, in a word that holds all the bytes read (R62, R142). -/
theorem extractLsb'_memRead (P : Params) (m : Mem) (a : Nat) {n i : Nat} (hi : i < n) (hn : 8 * n ≤ xl) :
    (BitVec.ofNat xl (memRead P m a n)).extractLsb' (8 * i) 8 = readByte P m (a + i) := by
  apply BitVec.eq_of_toNat_eq
  have hx : 2 ^ xl = 2 ^ (8 * i) * 2 ^ (xl - 8 * i) := by rw [← pow_add]; congr 1; omega
  have hd : 2 ^ 8 ∣ 2 ^ (xl - 8 * i) := pow_dvd_pow 2 (by omega)
  rw [BitVec.extractLsb'_toNat, BitVec.toNat_ofNat, Nat.shiftRight_eq_div_pow, hx, Nat.mod_mul_right_div_self,
    Nat.mod_mod_of_dvd _ hd, pow_mul]
  exact memRead_div_pow_mod P m a hi

/-- Byte k of a word, as `MemWrite` cuts it out (R62, R143). -/
theorem ofNat_toNat_div_pow (v : BitVec xl) (k : Nat) :
    BitVec.ofNat 8 (v.toNat / 256 ^ k) = v.extractLsb' (8 * k) 8 := by
  rw [BitVec.extractLsb', Nat.shiftRight_eq_div_pow, pow_mul]
  rfl

/-- `MemWrite` of one byte (R61). -/
theorem memWrite_one (P : Params) (m : Mem) (a : Nat) (b : Byte) : memWrite P m a 1 b.toNat = writeByte P m a b := by
  simp [memWrite]

/-- The last byte that `MemWrite` writes is the one at the highest address (R62). -/
theorem memWrite_succ_last (P : Params) (m : Mem) (a n v : Nat) :
    memWrite P m a (n + 1) v = writeByte P (memWrite P m a n v) (a + n) (BitVec.ofNat 8 (v / 256 ^ n)) := by
  induction n generalizing m a v with
  | zero => simp [memWrite]
  | succ n ih =>
    rw [memWrite, ih, ← memWrite, pow_succ', Nat.div_div_eq_div_mul, Nat.add_right_comm, Nat.add_assoc]

/-- EVERY BYTE AFTER `MemWrite` under `clamp` (R62, R77): below the last byte as in range; the last byte keeps what
came last, the byte for the highest address. -/
theorem byte_memWrite_clamp (h0 : 0 < P.memSize) (hP : P.oobPolicy = .clamp) {m : Mem} (h : m.wf P.memSize = true)
    (a n v a' : Nat) :
    (memWrite P m a n v).byte a' =
      if a' < P.memSize - 1 then if a ≤ a' ∧ a' < a + n then BitVec.ofNat 8 (v / 256 ^ (a' - a)) else m.byte a'
      else if a' = P.memSize - 1 ∧ 0 < n ∧ P.memSize - 1 < a + n then BitVec.ofNat 8 (v / 256 ^ (n - 1))
      else m.byte a' := by
  induction n with
  | zero => simp [memWrite]
  | succ n ih =>
    rw [memWrite_succ_last, byte_writeByte_clamp hP (memWrite_wf h0 h _ _ _), ih]
    by_cases hl : a' < P.memSize - 1
    · rw [if_pos hl, if_pos hl]
      by_cases hn : a' = a + n
      · subst hn
        rw [if_pos (by omega), if_pos (by omega), Nat.add_sub_cancel_left]
      · rw [if_neg (by omega)]
        exact if_congr (by omega) rfl rfl
    · rw [if_neg hl, if_neg hl]
      by_cases hn : a' = P.memSize - 1 ∧ P.memSize - 1 ≤ a + n
      · rw [if_pos (by omega), if_pos (by omega), Nat.add_sub_cancel]
      · rw [if_neg (by omega), if_neg (by omega), if_neg (by omega)]

/-! The four commands, in a block of 16 registers of 32 bits with any memory. -/

/-- A command that ends by writing one register meets that register's frame (R120). -/
theorem regFrame_setReg (s : State nc) (rd : Reg) (v : Word) : RegFrame rd s (s.setReg rd v).advance :=
  ⟨rfl, fun _ hr => reg_setReg_of_ne s v hr, rfl, fun _ => rfl, rfl, rfl, rfl, rfl, rfl, rfl, rfl, rfl⟩

/-- A command that ends by writing memory meets the memory frame (R27). -/
theorem memFrame_setMem (s : State nc nr xl) (m : Mem) : MemFrame s (s.setMem m).advance :=
  ⟨rfl, fun _ => rfl, rfl, rfl, rfl, rfl, rfl, rfl, rfl, rfl⟩

/-- The effective address in the words of Z8B-1.0 (R144). -/
theorem ea_eq_div (s : State nc) (ra : Reg) : s.ea ra = (s.reg ra).toNat / 65536 := upart_eq_div _

/-- PEEK's word holds the byte that `ReadByte` gives (R140). -/
theorem execIn_peek (P : Params) (rd ra : Reg) (s : State nc) :
    ∃ t, execIn P (.peek rd ra) s = .next t ∧ RegFrame rd s t ∧
      (t.reg rd).toNat = (readByte P s.mem ((s.reg ra).toNat / 65536)).toNat * 65536 := by
  refine ⟨_, rfl, regFrame_setReg s rd _, ?_⟩
  rw [reg_advance, reg_setReg_self, ea_eq_div]
  exact toNat_peek_word _

/-- POKE is `WriteByte` of bits [23:16] (R141). -/
theorem execIn_poke (P : Params) (ra rb : Reg) (s : State nc) :
    ∃ t, execIn P (.poke ra rb) s = .next t ∧ MemFrame s t ∧
      t.mem = writeByte P s.mem ((s.reg ra).toNat / 65536) ((s.reg rb).extractLsb' 16 8) := by
  refine ⟨_, rfl, memFrame_setMem s _, ?_⟩
  rw [advance_mem, store_mem, ea_eq_div, memWrite_one, byteOf_word]

/-- PEEK4's word holds the bytes that `ReadByte` gives at four addresses (R142). -/
theorem execIn_peek4 (P : Params) (rd ra : Reg) (s : State nc) :
    ∃ t, execIn P (.peek4 rd ra) s = .next t ∧ RegFrame rd s t ∧
      ∀ i : Fin 4, (t.reg rd).extractLsb' (8 * i.val) 8 = readByte P s.mem ((s.reg ra).toNat / 65536 + i.val) := by
  refine ⟨_, rfl, regFrame_setReg s rd _, fun i => ?_⟩
  rw [reg_advance, reg_setReg_self, ea_eq_div]
  exact extractLsb'_memRead P s.mem _ i.isLt (by decide)

/-- POKE4 is `MemWrite` of the four bytes of x[rb] (R143). -/
theorem execIn_poke4 (P : Params) (ra rb : Reg) (s : State nc) :
    ∃ t, execIn P (.poke4 ra rb) s = .next t ∧ MemFrame s t ∧
      t.mem = memWrite P s.mem ((s.reg ra).toNat / 65536) 4 (s.reg rb).toNat := by
  refine ⟨_, rfl, memFrame_setMem s _, ?_⟩
  rw [advance_mem, store_mem, ea_eq_div]

end Sys2Proof.Machine
end

