-- ==== Sys2Proof/Proofs/MemoryImage.lean ====
section
/-! PROOFS. The memory image as its agents see it: out-of-range accesses, the canonical form, the host's write and
the area that the sheet and the map share (R26, R60 to R77). -/

namespace Sys2Proof.Machine

variable {nc nr xl : Nat} {P : Params}

/-- When the host may write (R76, R266). -/
theorem hostMayWrite_iff {s : State nc nr xl} : s.hostMayWrite = true ↔ s.seq ≠ .run ∨ s.cmd = none := by
  simp [State.hostMayWrite]

/-- A host write at its turn in the schedule (R70, R76). -/
theorem step_hostWrite {a : Nat} {b : Byte} {s : State} {rest : List Move} (h : s.sched = .hostWrite a b :: rest) :
    step s = hostWrite z8b a b { s with sched := rest } := by
  rw [step, takeTurn_cons h]
  rfl

/-- A host write that R76 allows is a byte write with the out-of-range policy `ignore` (R61, R76). -/
theorem hostWrite_of_mayWrite {a : Nat} {b : Byte} {s : State nc nr xl} (hP : P.oobPolicy = .ignore)
    (h : s.hostMayWrite = true) : hostWrite P a b s = .next (s.setMem (writeByte P s.mem a b)) := by
  rw [hostWrite, if_pos h, writeByte_ignore hP]
  split <;> rfl

/-- The model refuses any other host write by name (assumption 6). -/
theorem hostWrite_of_not_mayWrite {a : Nat} {b : Byte} {s : State nc nr xl} (h : ¬ s.hostMayWrite = true) :
    hostWrite P a b s = .refused .hostWriteWhileRunning := by
  rw [hostWrite, if_neg h]

/-- A sheet pixel is a nibble of its byte (R180). -/
theorem sheetPix_z8b (m : Mem) (u v : Fin 128) :
    sheetPix z8b m u.val v.val = nibbleOf u.val (m.byte (64 * v.val + u.val / 2)) := by
  rw [sheetPix, if_pos (by simp)]
  simp

/-- The address of a map cell in the lower half of the map (R185). -/
theorem mapAddr_z8b_of_le {mx my : Nat} (h : 32 ≤ my) : mapAddr z8b mx my = 0x1000 + 128 * (my - 32) + mx := by
  simp [mapAddr, mapLowRows, h]

end Sys2Proof.Machine

namespace Sys2Proof.Proofs

open Sys2Proof.Machine

/-- Settles O27, from what each command does with `ReadByte` and `WriteByte` and what these do under either policy. -/
theorem outOfRangePolicies : Obligations.OutOfRangePolicies := by
  refine ⟨fun P m a b h => ⟨fun hP => ⟨readByte_ignore hP m a, fun a' => byte_writeByte hP h a a' b⟩,
    fun hP => ⟨readByte_clamp hP m a, fun a' => byte_writeByte_clamp hP h a a' b⟩⟩, fun P nc ra rb rd s h0 h => ?_⟩
  obtain ⟨t1, e1, f1, peek⟩ := execIn_peek P rd ra s
  obtain ⟨t2, e2, f2, poke⟩ := execIn_poke P ra rb s
  obtain ⟨t3, e3, f3, peek4⟩ := execIn_peek4 P rd ra s
  obtain ⟨t4, e4, f4, poke4⟩ := execIn_poke4 P ra rb s
  refine ⟨fun hP => ⟨⟨t1, e1, f1, ?_⟩, ⟨t2, e2, f2, fun a => ?_⟩, ⟨t3, e3, f3, fun i => ?_⟩, t4, e4, f4, fun a => ?_⟩,
    fun hP => ⟨⟨t1, e1, f1, ?_⟩, ⟨t2, e2, f2, fun a => ?_⟩, ⟨t3, e3, f3, fun i => ?_⟩, t4, e4, f4, fun a => ?_⟩⟩
  · rw [peek, readByte_ignore hP, apply_ite BitVec.toNat, ite_mul]
    rfl
  · rw [poke, byte_writeByte hP h]
    exact if_congr (and_congr_right fun e => by rw [e]) rfl rfl
  · rw [peek4, readByte_ignore hP]
  · rw [poke4, byte_memWrite hP h, ofNat_toNat_div_pow]
  · rw [peek, readByte_clamp hP]
  · rw [poke, byte_writeByte_clamp hP h]
  · rw [peek4, readByte_clamp hP]
  · rw [poke4, byte_memWrite_clamp h0 hP h, ofNat_toNat_div_pow, ofNat_toNat_div_pow]
    exact if_congr Iff.rfl rfl (if_congr (by omega) rfl rfl)

/-- Settles O28: outside the image both read as an unlisted address does. -/
theorem canonicalMemoriesAreEqualData : Obligations.CanonicalMemoriesAreEqualData := by
  intro size m m' h h' e
  refine Mem.ext_of_byte h h' fun a => ?_
  rcases Nat.lt_or_ge a size with ha | ha
  · exact e a ha
  · rw [Mem.byte_of_ge h ha, Mem.byte_of_ge h' ha]

/-- Settles O43: both addresses are 64 * v + u / 2. -/
theorem sheetAndMapShareTheirBytes : Obligations.SheetAndMapShareTheirBytes := by
  intro m u v hv
  have haddr : mapAddr z8b (64 * (v.val % 2) + u.val / 2) (v.val / 2) = 64 * v.val + u.val / 2 := by
    rw [mapAddr_z8b_of_le (by omega)]
    omega
  rw [haddr, sheetPix_z8b]
  exact ⟨rfl, by omega, by omega⟩

/-- Settles O56, by when the host may write. -/
theorem hostWritesOnlyWhileSeqRests : Obligations.HostWritesOnlyWhileSeqRests := by
  intro a b s rest hm hs
  rw [step_hostWrite hs]
  refine ⟨fun hrest => ⟨_, hostWrite_of_mayWrite z8b_oobPolicy (hostMayWrite_iff.2 hrest), rfl, fun a' => ?_⟩,
    fun hrun hcmd => ?_⟩
  · rw [setMem_mem, byte_writeByte z8b_oobPolicy hm, z8b_memSize]
  · exact hostWrite_of_not_mayWrite fun h => (hostMayWrite_iff.1 h).elim (absurd hrun) hcmd

end Sys2Proof.Proofs
end

