-- ==== Sys2Proof/Proofs/Encoding.lean ====
section
/-! PROOFS. The decoder and the encoder as inverses of each other, and the opcode map (R91 to R101): a word meets a
row's mask exactly when its opcode is the row's and its reserved bits are 0, and each format's encoding gives back and
takes up exactly the fields of such a word. -/

namespace Sys2Proof

/-! The fields of a word against a row's mask. -/

/-- A word is known by its fields. -/
theorem wordOf_eq_iff {op : Byte} {rd ra rb : BitVec 4} {low : BitVec 12} {w : CmdWord} :
    wordOf op rd ra rb low = w ↔ op = fieldOp w ∧ rd = BitVec.ofFin (fieldRd w) ∧ ra = BitVec.ofFin (fieldRa w) ∧
      rb = BitVec.ofFin (fieldRb w) ∧ low = w.extractLsb' 0 12 := by
  conv_lhs => rw [wordOf_fields w]
  exact wordOf_inj

/-- The match column as fields (R100). -/
theorem pattern_eq_wordOf (o : Op) : o.pattern = wordOf o.code 0 0 0 0 := encodeN_eq o

/-- A WORD MEETS A ROW when its opcode is the row's and the bits that the mask names in each field are 0
(R100, R101). -/
theorem and_mask_eq_pattern_iff {o : Op} {d a b : BitVec 4} {l : BitVec 12} (hm : o.mask = wordOf 0xFF d a b l)
    (w : CmdWord) :
    w &&& o.mask = o.pattern ↔ fieldOp w = o.code ∧ BitVec.ofFin (fieldRd w) &&& d = 0 ∧
      BitVec.ofFin (fieldRa w) &&& a = 0 ∧ BitVec.ofFin (fieldRb w) &&& b = 0 ∧ w.extractLsb' 0 12 &&& l = 0 := by
  have hop : fieldOp w &&& 0xFF = fieldOp w := BitVec.and_allOnes
  conv_lhs => rw [wordOf_fields w, hm, pattern_eq_wordOf, wordOf_and, wordOf_inj, hop]

/-- Every mask fixes the whole opcode byte (R100). -/
theorem mask_eq_wordOf (o : Op) :
    o.mask = wordOf 0xFF (BitVec.ofFin (fieldRd o.mask)) (BitVec.ofFin (fieldRa o.mask))
      (BitVec.ofFin (fieldRb o.mask)) (o.mask.extractLsb' 0 12) := by
  have hop : fieldOp o.mask = 0xFF := by cases o <;> rfl
  rw [← hop]
  exact wordOf_fields o.mask

/-- A word that meets a row has the row's opcode. -/
theorem fieldOp_of_and_mask {o : Op} {w : CmdWord} (h : w &&& o.mask = o.pattern) : fieldOp w = o.code :=
  ((and_mask_eq_pattern_iff (mask_eq_wordOf o) w).1 h).1

/-- No two rows have one opcode (R100). -/
theorem code_injective : Function.Injective Op.code := fun o o' h =>
  Option.some.inj (by rw [← ofCode_code o, h, ofCode_code])

/-! What the decoder answers. -/

/-- A word with a row's opcode is decoded by that row's reserved bits (R101). -/
theorem decode_of_fieldOp {o : Op} {w : CmdWord} (h : fieldOp w = o.code) :
    decode w = if w &&& o.mask = o.pattern then .ok (o.build w) else .error .reservedBits := by
  rw [decode, h, ofCode_code]

/-- A word that meets a row decodes to that row's command. -/
theorem decode_of_and_mask {o : Op} {w : CmdWord} (h : w &&& o.mask = o.pattern) : decode w = .ok (o.build w) := by
  rw [decode_of_fieldOp (fieldOp_of_and_mask h), if_pos h]

/-- THE LEGAL WORDS are those that meet a row (R101). -/
theorem decode_eq_ok_iff {w : CmdWord} {i : Instr} :
    decode w = .ok i ↔ ∃ o : Op, w &&& o.mask = o.pattern ∧ o.build w = i := by
  refine ⟨fun h => ?_, fun ⟨o, ho, hi⟩ => hi ▸ decode_of_and_mask ho⟩
  cases hc : Op.ofCode (fieldOp w) with
  | none => simp [decode, hc] at h
  | some o =>
    rw [decode_of_fieldOp (code_of_ofCode hc).symm] at h
    split at h
    · next ho => exact ⟨o, ho, Except.ok.inj h⟩
    · cases h

/-! From a command to its word and back (R92 to R97). -/

/-- The immediate is read back (R93). -/
theorem fieldImm_encodeI (o : Op) (rd : Reg) (imm : BitVec 16) : fieldImm (encodeI o rd imm) = imm :=
  BitVec.extractLsb'_append_eq_right

/-- The destination of format I is read back (R93). -/
theorem fieldRd_encodeI (o : Op) (rd : Reg) (imm : BitVec 16) : fieldRd (encodeI o rd imm) = rd := by
  rw [encodeI_eq, fieldRd_wordOf]

/-- The flags are read back from their bits (R97). -/
theorem flags_of_flagBits (f : VFlags) :
    (⟨(flagBits f).getLsbD 2, (flagBits f).getLsbD 1, (flagBits f).getLsbD 0⟩ : VFlags) = f := by
  obtain ⟨fy, fx, c⟩ := f
  revert fy fx c; decide

/-- The opcode of a command's word is its row's. -/
theorem fieldOp_encode (i : Instr) : fieldOp (encode i) = i.op.code := by
  cases i with
  | nop | endCmd => rw [encode, encodeN_eq, fieldOp_wordOf]; rfl
  | lih | lil => rw [encode, encodeI_eq, fieldOp_wordOf]; rfl
  | add | sub | mul | div => rw [encode, encodeR3_eq, fieldOp_wordOf]; rfl
  | mov | peek | peek4 | pget => rw [encode, encodeR2_eq, fieldOp_wordOf]; rfl
  | poke | poke4 => rw [encode, encodeS2_eq, fieldOp_wordOf]; rfl
  | pset | line | rect | rectfill | circ | circfill | spr | sspr | map | sfx =>
    rw [encode, encodeV_eq, fieldOp_wordOf]; rfl

/-- EVERY OPERAND IS READ BACK from a command's word, well formed or not. -/
theorem build_encode (i : Instr) : i.op.build (encode i) = i := by
  cases i with
  | nop | endCmd => rfl
  | lih | lil => simp only [encode, Instr.op, Op.build, fieldRd_encodeI, fieldImm_encodeI]
  | add | sub | mul | div =>
    simp only [encode, Instr.op, Op.build, encodeR3_eq, fieldRd_wordOf, fieldRa_wordOf, fieldRb_wordOf]
  | mov | peek | peek4 | pget => simp only [encode, Instr.op, Op.build, encodeR2_eq, fieldRd_wordOf, fieldRa_wordOf]
  | poke | poke4 => simp only [encode, Instr.op, Op.build, encodeS2_eq, fieldRa_wordOf, fieldRb_wordOf]
  | pset | line | rect | rectfill | circ | circfill | spr | sspr | map | sfx =>
    simp only [encode, Instr.op, Op.build, encodeV_eq, fieldRa_wordOf, fieldFlags_wordOf, flags_of_flagBits]

/-! Which flags the mask of a format-V row lets through (R97). -/

theorem flagBits_and_colourOnly {f : VFlags} : flagBits f &&& 0xFFE = 0 ↔ f.colourOnly = true := by
  obtain ⟨fy, fx, c⟩ := f
  revert fy fx c; decide

theorem flagBits_and_flipsOnly {f : VFlags} : flagBits f &&& 0xFF9 = 0 ↔ f.flipsOnly = true := by
  obtain ⟨fy, fx, c⟩ := f
  revert fy fx c; decide

theorem flagBits_and_noFlag {f : VFlags} : flagBits f &&& 0xFFF = 0 ↔ f.noFlag = true := by
  obtain ⟨fy, fx, c⟩ := f
  revert fy fx c; decide

/-- A format-V word meets its row when its flags are among those the row allows. -/
theorem encodeV_and_mask_iff {o : Op} {free : BitVec 12} (hm : o.mask = wordOf 0xFF 0xF 0 0xF free) {ra : Reg}
    {f : VFlags} : encodeV o ra f &&& o.mask = o.pattern ↔ flagBits f &&& free = 0 := by
  refine ⟨fun h => ?_, Laws.FixedBits.ofV o free hm (pattern_eq_wordOf o) ra f⟩
  rw [encodeV_eq, hm, wordOf_and, pattern_eq_wordOf, wordOf_inj] at h
  obtain ⟨-, -, -, -, hf⟩ := h
  exact hf

/-- A COMMAND'S WORD MEETS ITS ROW exactly when the command is well formed (R97, R100). -/
theorem encode_and_mask_iff_wf (i : Instr) : encode i &&& i.op.mask = i.op.pattern ↔ i.wf = true := by
  cases i with
  | nop | endCmd => exact iff_of_true (Laws.FixedBits.ofN _ rfl (pattern_eq_wordOf _)) rfl
  | lih | lil => exact iff_of_true (Laws.FixedBits.ofI _ rfl (pattern_eq_wordOf _) _ _) rfl
  | add | sub | mul | div => exact iff_of_true (Laws.FixedBits.ofR3 _ rfl (pattern_eq_wordOf _) _ _ _) rfl
  | mov | peek | peek4 | pget => exact iff_of_true (Laws.FixedBits.ofR2 _ rfl (pattern_eq_wordOf _) _ _) rfl
  | poke | poke4 => exact iff_of_true (Laws.FixedBits.ofS2 _ rfl (pattern_eq_wordOf _) _ _) rfl
  | pset | line | rect | rectfill | circ | circfill => exact (encodeV_and_mask_iff rfl).trans flagBits_and_colourOnly
  | spr | sspr => exact (encodeV_and_mask_iff rfl).trans flagBits_and_flipsOnly
  | map | sfx => exact (encodeV_and_mask_iff rfl).trans flagBits_and_noFlag

/-! From a word that meets a row to its command and back. -/

/-- A field that the mask names whole is 0. -/
theorem zero_eq_of_and_allOnes {n : Nat} {x : BitVec n} (h : x &&& BitVec.allOnes n = 0) : 0 = x :=
  h.symm.trans BitVec.and_allOnes

section
variable {o : Op} {w : CmdWord}

theorem encodeN_of_and_mask (hm : o.mask = wordOf 0xFF 0xF 0xF 0xF 0xFFF) (h : w &&& o.mask = o.pattern) :
    encodeN o = w := by
  obtain ⟨hop, hrd, hra, hrb, hlow⟩ := (and_mask_eq_pattern_iff hm w).1 h
  rw [encodeN_eq, wordOf_eq_iff]
  exact ⟨hop.symm, zero_eq_of_and_allOnes hrd, zero_eq_of_and_allOnes hra,
    zero_eq_of_and_allOnes hrb, zero_eq_of_and_allOnes hlow⟩

theorem encodeI_of_and_mask (hm : o.mask = wordOf 0xFF 0 0xF 0 0) (h : w &&& o.mask = o.pattern) :
    encodeI o (fieldRd w) (fieldImm w) = w := by
  obtain ⟨hop, -, hra, -, -⟩ := (and_mask_eq_pattern_iff hm w).1 h
  rw [encodeI_eq, wordOf_eq_iff]
  exact ⟨hop.symm, rfl, zero_eq_of_and_allOnes hra, BitVec.extractLsb'_extractLsb'_of_le (by decide),
    BitVec.extractLsb'_extractLsb'_of_le (by decide)⟩

theorem encodeR3_of_and_mask (hm : o.mask = wordOf 0xFF 0 0 0 0xFFF) (h : w &&& o.mask = o.pattern) :
    encodeR3 o (fieldRd w) (fieldRa w) (fieldRb w) = w := by
  obtain ⟨hop, -, -, -, hlow⟩ := (and_mask_eq_pattern_iff hm w).1 h
  rw [encodeR3_eq, wordOf_eq_iff]
  exact ⟨hop.symm, rfl, rfl, rfl, zero_eq_of_and_allOnes hlow⟩

theorem encodeR2_of_and_mask (hm : o.mask = wordOf 0xFF 0 0 0xF 0xFFF) (h : w &&& o.mask = o.pattern) :
    encodeR2 o (fieldRd w) (fieldRa w) = w := by
  obtain ⟨hop, -, -, hrb, hlow⟩ := (and_mask_eq_pattern_iff hm w).1 h
  rw [encodeR2_eq, wordOf_eq_iff]
  exact ⟨hop.symm, rfl, rfl, zero_eq_of_and_allOnes hrb, zero_eq_of_and_allOnes hlow⟩

theorem encodeS2_of_and_mask (hm : o.mask = wordOf 0xFF 0xF 0 0 0xFFF) (h : w &&& o.mask = o.pattern) :
    encodeS2 o (fieldRa w) (fieldRb w) = w := by
  obtain ⟨hop, hrd, -, -, hlow⟩ := (and_mask_eq_pattern_iff hm w).1 h
  rw [encodeS2_eq, wordOf_eq_iff]
  exact ⟨hop.symm, zero_eq_of_and_allOnes hrd, rfl, rfl, zero_eq_of_and_allOnes hlow⟩

/-- The bits of the flag field, one by one (R97). -/
theorem getLsbD_flagBits (f : VFlags) (i : Fin 12) :
    (flagBits f).getLsbD i = if i = 0 then f.c else if i = 1 then f.fx else if i = 2 then f.fy else false := by
  obtain ⟨fy, fx, c⟩ := f
  revert fy fx c i; decide

/-- The flag bits of a word are its last three. -/
theorem flagBits_fieldFlags (w : CmdWord) : flagBits (fieldFlags w) = w.extractLsb' 0 12 &&& 7 := by
  apply BitVec.eq_of_getLsbD_eq
  intro i hi
  rw [getLsbD_flagBits (fieldFlags w) ⟨i, hi⟩]
  interval_cases i <;> simp [fieldFlags]

theorem encodeV_of_and_mask {free : BitVec 12} (hm : o.mask = wordOf 0xFF 0xF 0 0xF free) (hfree : free ||| 7 = 0xFFF)
    (h : w &&& o.mask = o.pattern) : encodeV o (fieldRa w) (fieldFlags w) = w := by
  obtain ⟨hop, hrd, -, hrb, hlow⟩ := (and_mask_eq_pattern_iff hm w).1 h
  have hbits : w.extractLsb' 0 12 = w.extractLsb' 0 12 &&& 7 :=
    calc w.extractLsb' 0 12 = w.extractLsb' 0 12 &&& (free ||| 7) := by rw [hfree]; exact BitVec.and_allOnes.symm
      _ = w.extractLsb' 0 12 &&& 7 := by rw [BitVec.and_or_distrib_left, hlow]; exact BitVec.zero_or
  rw [encodeV_eq, wordOf_eq_iff, flagBits_fieldFlags]
  exact ⟨hop.symm, zero_eq_of_and_allOnes hrd, rfl, zero_eq_of_and_allOnes hrb, hbits.symm⟩

/-- NO BIT IS DROPPED: a word that meets a row is the word of the command read from it. -/
theorem encode_build (h : w &&& o.mask = o.pattern) : encode (o.build w) = w := by
  cases o with
  | nop | endCmd => exact encodeN_of_and_mask rfl h
  | lih | lil => exact encodeI_of_and_mask rfl h
  | add | sub | mul | div => exact encodeR3_of_and_mask rfl h
  | mov | peek | peek4 | pget => exact encodeR2_of_and_mask rfl h
  | poke | poke4 => exact encodeS2_of_and_mask rfl h
  | pset | line | rect | rectfill | circ | circfill => exact encodeV_of_and_mask (free := 0xFFE) rfl rfl h
  | spr | sspr => exact encodeV_of_and_mask (free := 0xFF9) rfl rfl h
  | map | sfx => exact encodeV_of_and_mask (free := 0xFFF) rfl rfl h

end

/-- A row's command is of that row. -/
theorem op_build (o : Op) (w : CmdWord) : (o.build w).op = o := by cases o <;> rfl

/-! The opcode map as R100 prints it, and the model's columns. -/

open Sys2Proof.Claims

/-- An opcode's row of the map, from the model's columns (R100). -/
def Op.row (o : Op) : Row := ⟨mnemonic (o.build 0), o.pattern, o.mask⟩

/-- The printed opcode map is the model's columns, row by row. -/
theorem opcodeMap_eq : opcodeMap = Op.all.map Op.row := rfl

/-- The rows of the map are those of the opcodes. -/
theorem mem_opcodeMap {row : Row} : row ∈ opcodeMap ↔ ∃ o : Op, o.row = row := by
  have hall (o : Op) : o ∈ Op.all := by cases o <;> decide
  simp [opcodeMap_eq, hall]

/-- A row's command has its mnemonic, whatever the operands. -/
theorem mnemonic_build (o : Op) (w : CmdWord) : mnemonic (o.build w) = o.row.mnemonic := by cases o <;> rfl

end Sys2Proof

namespace Sys2Proof.Proofs

/-- Settles O2: a command's word has its row's opcode, meets the row when well formed, and
gives back every operand. -/
theorem decodeOfEncode : Obligations.DecodeOfEncode := by
  intro i
  rw [decode_of_fieldOp (fieldOp_encode i), build_encode]
  exact if_congr (encode_and_mask_iff_wf i) rfl rfl

/-- Settles O3: a legal word meets a row, whose command has that word and so is well formed. -/
theorem encodeOfDecode : Obligations.EncodeOfDecode := by
  intro w i h
  obtain ⟨o, ho, rfl⟩ := decode_eq_ok_iff.1 h
  have hw : encode (o.build w) = w := encode_build ho
  refine ⟨(encode_and_mask_iff_wf _).1 ?_, hw⟩
  rw [hw, op_build, ho]

/-- Settles O4: the printed rows are the model's, and a word meets a row only with that row's opcode. -/
theorem opcodeMapSelectsTheCommand : Obligations.OpcodeMapSelectsTheCommand := by
  refine ⟨fun row hrow w h => ?_, fun w h => ?_, fun r hr r' hr' w h h' => ?_⟩
  · obtain ⟨o, rfl⟩ := mem_opcodeMap.1 hrow
    exact ⟨o.build w, decode_of_and_mask h, mnemonic_build o w⟩
  · cases hd : decode w with
    | error e => exact ⟨e, rfl⟩
    | ok i =>
      obtain ⟨o, ho, -⟩ := decode_eq_ok_iff.1 hd
      exact absurd ho (h _ (mem_opcodeMap.2 ⟨o, rfl⟩))
  · obtain ⟨o, rfl⟩ := mem_opcodeMap.1 hr
    obtain ⟨o', rfl⟩ := mem_opcodeMap.1 hr'
    rw [code_injective ((fieldOp_of_and_mask h).symm.trans (fieldOp_of_and_mask h'))]

/-- Settles O1, by decoding the eleven words. -/
theorem printedWordsDecodeAsPrinted : Obligations.PrintedWordsDecodeAsPrinted := by
  unfold Obligations.PrintedWordsDecodeAsPrinted
  decide

end Sys2Proof.Proofs
end

