-- ==== Sys2Proof/Proofs/FixedPoint.lean ====
section
/-! PROOFS. The fixed-point unit (R120 to R129): what its operations do to words, and its seven commands as one register
write each. -/

namespace Sys2Proof.Machine

open Sys2Proof.Claims

variable {nc xl : Nat}

/-- A well-formed command is read back from its word (R91 to R97). -/
theorem decode_encode_of_wf {i : Instr} (h : i.wf = true) : decode (encode i) = .ok i := by
  rw [Proofs.decodeOfEncode i, if_pos h]

/-- A command that ends by writing one register answers a next state with that register written and no other piece
changed (R120). -/
theorem writeBack_regFrame (rd : Reg) (v : Word) (s : State nc) :
    ∃ t, writeBack rd v s = .next t ∧ t.reg rd = v ∧ RegFrame rd s t :=
  ⟨_, writeBack_eq rd v s, by rw [reg_advance, reg_setReg_self], regFrame_setReg s rd v⟩

/-! LIH and LIL. -/

/-- LIH's word is `imm16 * 65536` (R121). -/
theorem toNat_lih_word (imm : BitVec 16) : (BitVec.ofNat 32 (imm.toNat * fixOne 32)).toNat = imm.toNat * 65536 := by
  have := imm.isLt
  rw [fixOne_word, BitVec.toNat_ofNat]
  omega

/-- LIH's word is the fixed-point word of the signed immediate (R121). -/
theorem toInt_lih_word (imm : BitVec 16) : (BitVec.ofNat 32 (imm.toNat * fixOne 32)).toInt = imm.toInt * 65536 := by
  rw [lih_word, BitVec.toInt_append_zero, Int.mul_comm]
  rfl

/-- LIL's word keeps the integer half (R122). -/
theorem toNat_lil_word (v : Word) (imm : BitVec 16) :
    (BitVec.ofNat 32 (upart v * fixOne 32 + imm.toNat % fixOne 32)).toNat = v.toNat / 65536 * 65536 + imm.toNat := by
  have := v.isLt
  have := imm.isLt
  rw [upart_eq_div, fixOne_word, BitVec.toNat_ofNat]
  omega

/-! ADD and SUB: the signed reading plays no part in the word (R124, R125). -/

theorem fxadd_eq_add (a b : BitVec xl) : fxadd a b = a + b := by
  simp only [fxadd, wrap, s32, BitVec.ofInt_add, BitVec.ofInt_toInt]

theorem fxsub_eq_sub (a b : BitVec xl) : fxsub a b = a - b := by
  simp only [fxsub, wrap, s32, Int.sub_eq_add_neg, BitVec.ofInt_add, BitVec.ofInt_neg, BitVec.ofInt_toInt,
    BitVec.sub_eq_add_neg]

/-- A signed result that is in range is not changed by `wrap` (R8). -/
theorem toInt_wrap_word {n : Int} (hlo : -2 ^ 31 ≤ n) (hhi : n < 2 ^ 31) : (wrap n : Word).toInt = n :=
  BitVec.toInt_ofInt_eq_self (by decide) hlo hhi

/-- The difference of two words as integers (R125). -/
theorem natCast_toNat_sub (a b : Word) : ((a - b).toNat : Int) = ((a.toNat : Int) - b.toNat) % 2 ^ 32 := by
  have := a.isLt
  have := b.isLt
  rw [BitVec.toNat_sub]
  omega

/-! MUL. -/

/-- Bits [47:16] of a 64-bit integer are its floor quotient by 65536 (R9, R126). -/
theorem extractLsb'_ofInt (n : Int) : (BitVec.ofInt 64 n).extractLsb' 16 32 = BitVec.ofInt 32 (n / 65536) := by
  apply BitVec.eq_of_toNat_eq
  rw [BitVec.extractLsb'_toNat, Nat.shiftRight_eq_div_pow, BitVec.toNat_ofInt, BitVec.toNat_ofInt]
  omega

/-- MUL is bits [47:16] of the 64-bit two's-complement product (R126). -/
theorem fxmul_eq_extractLsb' (a b : Word) : fxmul a b = (a.signExtend 64 * b.signExtend 64).extractLsb' 16 32 := by
  have hprod : a.signExtend 64 * b.signExtend 64 = BitVec.ofInt 64 (a.toInt * b.toInt) := (BitVec.ofInt_mul ..).symm
  rw [hprod, extractLsb'_ofInt, fxmul_word]

theorem fxmul_comm (a b : Word) : fxmul a b = fxmul b a := by
  rw [fxmul_word, fxmul_word, Int.mul_comm]

theorem fxmul_one (a : Word) : fxmul a 0x00010000 = a := by
  have h1 : (0x00010000 : Word).toInt = 65536 := rfl
  rw [fxmul_word, h1, Int.mul_ediv_cancel _ (by decide), BitVec.ofInt_toInt]

theorem fxmul_zero (a : Word) : fxmul a 0 = 0 := by
  have h0 : (0 : Word).toInt = 0 := rfl
  rw [fxmul_word, h0, Int.mul_zero]
  rfl

/-! DIV, case by case (R127). -/

theorem fxdiv_one (a : Word) : fxdiv a 0x00010000 = a := by
  rw [fxdiv_word, if_pos rfl]

/-- A quotient that fits is the result, truncated toward zero; the exact quotient by 1.0 is the dividend, so that the
first case of R127 is no exception. -/
theorem toInt_fxdiv_of_fits {a b : Word} (hb : b ≠ 0) (h : |Int.tdiv (a.toInt * 65536) b.toInt| ≤ 0x7FFFFFFF) :
    (fxdiv a b).toInt = Int.tdiv (a.toInt * 65536) b.toInt := by
  by_cases h1 : b = 0x00010000
  · subst h1
    rw [fxdiv_one]
    exact (Int.mul_tdiv_cancel a.toInt (by decide : (65536 : Int) ≠ 0)).symm
  · have hfit := abs_le.1 h
    rw [fxdiv_word, if_neg h1, if_neg hb, if_pos hfit]
    exact toInt_wrap_word (by omega) (by omega)

/-- A zero divisor and a quotient that does not fit saturate (R127). -/
theorem fxdiv_of_saturates {a b : Word} (h1 : b ≠ 0x00010000)
    (h : b = 0 ∨ 0x7FFFFFFF < |Int.tdiv (a.toInt * 65536) b.toInt|) : fxdiv a b = divSaturated a b := by
  rw [fxdiv_word, if_neg h1]
  by_cases hb : b = 0
  · rw [if_pos hb]
  · have hbig := h.resolve_left hb
    rw [if_neg hb, if_neg fun hfit => not_le.2 hbig (abs_le.2 hfit)]

/-- The saturation value by the sign bits [31] (R127). -/
theorem divSaturated_eq_ite_getLsbD (a b : Word) :
    divSaturated a b = if a.getLsbD 31 = b.getLsbD 31 then 0x7FFFFFFF else 0x80000001 := by
  rw [divSaturated_word, BitVec.msb_eq_getLsbD_last, BitVec.msb_eq_getLsbD_last]

theorem zero_fxdiv {b : Word} (hb : b ≠ 0) : fxdiv 0 b = 0 := by
  have hq : Int.tdiv ((0 : Word).toInt * 65536) b.toInt = 0 := Int.zero_tdiv _
  apply BitVec.eq_of_toInt_eq
  rw [toInt_fxdiv_of_fits hb (by rw [hq]; decide), hq]
  rfl

/-- Division by 0 goes by the sign of the dividend (R127, R128). -/
theorem fxdiv_zero (a : Word) : fxdiv a 0 = if 0 ≤ a.toInt then 0x7FFFFFFF else 0x80000001 := by
  have hsign : a.msb = (0 : Word).msb ↔ 0 ≤ a.toInt := by
    rw [BitVec.msb_eq_toInt, show (0 : Word).msb = false from rfl, decide_eq_false_iff_not, not_lt]
  rw [fxdiv_of_saturates (by decide) (.inl rfl), divSaturated_word]
  exact if_congr hsign rfl rfl

/-- Negating the dividend negates a result that fits (R128). -/
theorem toInt_fxdiv_neg_left {a a' b : Word} (hb : b ≠ 0) (ha : a'.toInt = -a.toInt)
    (h : |Int.tdiv (a.toInt * 65536) b.toInt| ≤ 0x7FFFFFFF) : (fxdiv a' b).toInt = -(fxdiv a b).toInt := by
  have hq : Int.tdiv (a'.toInt * 65536) b.toInt = -Int.tdiv (a.toInt * 65536) b.toInt := by
    rw [ha, Int.neg_mul, Int.neg_tdiv]
  rw [toInt_fxdiv_of_fits hb h, toInt_fxdiv_of_fits hb (by rw [hq, abs_neg]; exact h), hq]

/-- Negating the divisor negates a result that fits (R128). -/
theorem toInt_fxdiv_neg_right {a b b' : Word} (hb : b ≠ 0) (hb' : b'.toInt = -b.toInt)
    (h : |Int.tdiv (a.toInt * 65536) b.toInt| ≤ 0x7FFFFFFF) : (fxdiv a b').toInt = -(fxdiv a b).toInt := by
  have hne : b' ≠ 0 := by
    rintro rfl
    exact hb (BitVec.eq_of_toInt_eq (Int.neg_eq_zero.1 hb'.symm))
  have hq : Int.tdiv (a.toInt * 65536) b'.toInt = -Int.tdiv (a.toInt * 65536) b.toInt := by
    rw [hb', Int.tdiv_neg]
  rw [toInt_fxdiv_of_fits hb h, toInt_fxdiv_of_fits hne (by rw [hq, abs_neg]; exact h), hq]

end Sys2Proof.Machine

namespace Sys2Proof.Proofs

open Sys2Proof.Machine

/-- Settles O16: the sum of the words, and the exact signed sum where `wrap` has nothing to do. -/
theorem addWraps : Obligations.AddWraps := by
  intro rd ra rb s
  obtain ⟨t, ht, hv, hframe⟩ := writeBack_regFrame rd (fxadd (s.reg ra) (s.reg rb)) s
  refine ⟨decode_encode_of_wf (i := .add rd ra rb) rfl, t, ht, ?_, fun hlo hhi => ?_, hframe⟩
  · rw [hv, fxadd_eq_add, BitVec.toNat_add]
  · rw [hv]
    exact toInt_wrap_word hlo hhi

/-- Settles O17: SUB is the difference of the words. -/
theorem subWraps : Obligations.SubWraps := by
  intro rd ra rb s
  obtain ⟨t, ht, hv, hframe⟩ := writeBack_regFrame rd (fxsub (s.reg ra) (s.reg rb)) s
  refine ⟨decode_encode_of_wf (i := .sub rd ra rb) rfl, t, ht, ?_, hframe⟩
  rw [hv, fxsub_eq_sub, natCast_toNat_sub]

/-- Settles O18: the floor quotient of the product is its middle bits. -/
theorem mulTakesMiddleBitsOfProduct : Obligations.MulTakesMiddleBitsOfProduct := by
  intro rd ra rb s
  obtain ⟨t, ht, hv, hframe⟩ := writeBack_regFrame rd (fxmul (s.reg ra) (s.reg rb)) s
  exact ⟨decode_encode_of_wf (i := .mul rd ra rb) rfl, t, ht, hv.trans (fxmul_eq_extractLsb' _ _), hframe⟩

/-- Settles O19, by the three cases of DIV. -/
theorem divTruncatesAndSaturates : Obligations.DivTruncatesAndSaturates := by
  intro rd ra rb s
  obtain ⟨t, ht, hv, hframe⟩ := writeBack_regFrame rd (fxdiv (s.reg ra) (s.reg rb)) s
  refine ⟨decode_encode_of_wf (i := .div rd ra rb) rfl, t, ht, hframe, fun h1 => ?_, fun _ hb hfit => ?_,
    fun h1 hsat => ?_⟩
  · rw [hv, h1, fxdiv_one]
  · rw [hv, toInt_fxdiv_of_fits hb hfit]
  · rw [hv, fxdiv_of_saturates h1 hsat, divSaturated_eq_ite_getLsbD]

/-- Settles O20, one identity after the other. -/
theorem arithmeticIdentities : Obligations.ArithmeticIdentities := by
  intro a b
  refine ⟨fxmul_one a, fxdiv_one a, ?_, fxmul_comm a b, ?_, ?_, ?_, fxmul_zero a, zero_fxdiv, fxdiv_zero a⟩
  · rw [fxadd_eq_add, fxadd_eq_add, BitVec.add_comm]
  · rw [fxadd_eq_add, fxsub_eq_sub, BitVec.add_sub_cancel]
  · rw [fxadd_eq_add]
    exact BitVec.add_zero a
  · rw [fxsub_eq_sub]
    exact BitVec.sub_zero a

/-- Settles O21: the quotient truncated toward zero is odd in both operands, and its negation fits as it does. -/
theorem divIsOddInBothOperands : Obligations.DivIsOddInBothOperands :=
  fun _ _ _ _ hb ha' hb' hfit => ⟨toInt_fxdiv_neg_left hb ha' hfit, toInt_fxdiv_neg_right hb hb' hfit⟩

/-- Settles O13, by the two readings of LIH's word. -/
theorem lihLoadsIntegerHalf : Obligations.LihLoadsIntegerHalf := by
  intro rd imm s
  obtain ⟨t, ht, hv, hframe⟩ := writeBack_regFrame rd (BitVec.ofNat 32 (imm.toNat * fixOne 32)) s
  refine ⟨decode_encode_of_wf (i := .lih rd imm) rfl, t, ht, ?_, ?_, hframe⟩
  · rw [hv, toNat_lih_word]
  · rw [hv, toInt_lih_word]

/-- Settles O14, by LIL's word. -/
theorem lilLoadsFractionHalf : Obligations.LilLoadsFractionHalf := by
  intro rd imm s
  obtain ⟨t, ht, hv, hframe⟩ :=
    writeBack_regFrame rd (BitVec.ofNat 32 (upart (s.reg rd) * fixOne 32 + imm.toNat % fixOne 32)) s
  refine ⟨decode_encode_of_wf (i := .lil rd imm) rfl, t, ht, ?_, hframe⟩
  rw [hv, toNat_lil_word]

/-- Settles O15: MOV writes the register it reads. -/
theorem movCopiesARegister : Obligations.MovCopiesARegister :=
  fun rd ra s => ⟨decode_encode_of_wf (i := .mov rd ra) rfl, writeBack_regFrame rd (s.reg ra) s⟩

end Sys2Proof.Proofs
end

