-- ==== Sys2Proof/Proofs/MemoryPortCommands.lean ====
section
/-! PROOFS. The four commands of the memory port in Z8B-1.0 (R140 to R145): the commands of a block with any memory,
taken at MEM_SIZE = 0x8000 and the policy `ignore`. -/

namespace Sys2Proof.Machine

/-- A byte read of Z8B-1.0 (R61). -/
theorem readByte_z8b (m : Mem) (a : Nat) : readByte z8b m a = if a < 0x8000 then m.byte a else 0 :=
  readByte_ignore z8b_oobPolicy m a

/-- A word is its four bytes (R62). -/
theorem word_ext_of_bytes {v w : Word} (h : ∀ i : Fin 4, v.extractLsb' (8 * i.val) 8 = w.extractLsb' (8 * i.val) 8) :
    v = w := by
  apply BitVec.eq_of_getLsbD_eq
  intro k hk
  have hbit := congrArg (·.getLsbD (k % 8)) (h ⟨k / 8, by omega⟩)
  simpa [BitVec.getLsbD_extractLsb', Nat.mod_lt, Nat.div_add_mod] using hbit

/-- A command answers one state only. -/
theorem exec_next_unique {i : Instr} {s t t' : State} (h : exec i s = .next t) (h' : exec i s = .next t') : t = t' :=
  Host.Outcome.next.inj (h.symm.trans h')

end Sys2Proof.Machine

namespace Sys2Proof.Proofs

open Sys2Proof.Machine

/-- Settles O22, by the byte that PEEK's word holds. -/
theorem peekReadsAByte : Obligations.PeekReadsAByte := by
  intro rd ra s
  obtain ⟨t, ht, hframe, hval⟩ := execIn_peek z8b rd ra s
  rw [execIn_z8b] at ht
  refine ⟨decode_encode_of_wf (i := .peek rd ra) rfl, t, ht, ?_, hframe⟩
  rw [hval, readByte_z8b, apply_ite BitVec.toNat, ite_mul]
  rfl

/-- Settles O23: POKE is one byte write. -/
theorem pokeStoresAByte : Obligations.PokeStoresAByte := by
  intro ra rb s h
  obtain ⟨t, ht, hframe, hmem⟩ := execIn_poke z8b ra rb s
  rw [execIn_z8b] at ht
  refine ⟨decode_encode_of_wf (i := .poke ra rb) rfl, t, ht, hframe, fun a => ?_⟩
  rw [hmem, byte_writeByte z8b_oobPolicy h]
  exact if_congr (and_congr_right fun e => by rw [e, z8b_memSize]) rfl rfl

/-- Settles O24, byte by byte of PEEK4's word. -/
theorem peek4ReadsFourBytes : Obligations.Peek4ReadsFourBytes := by
  intro rd ra s
  obtain ⟨t, ht, hframe, hbytes⟩ := execIn_peek4 z8b rd ra s
  rw [execIn_z8b] at ht
  refine ⟨decode_encode_of_wf (i := .peek4 rd ra) rfl, t, ht, hframe, fun i => ?_⟩
  rw [hbytes, readByte_z8b]

/-- Settles O25: POKE4 is `MemWrite` of four bytes, each of them a byte of the value register. -/
theorem poke4StoresFourBytes : Obligations.Poke4StoresFourBytes := by
  intro ra rb s h
  obtain ⟨t, ht, hframe, hmem⟩ := execIn_poke4 z8b ra rb s
  rw [execIn_z8b] at ht
  refine ⟨decode_encode_of_wf (i := .poke4 ra rb) rfl, t, ht, hframe, fun a => ?_⟩
  rw [hmem, byte_memWrite z8b_oobPolicy h, ofNat_toNat_div_pow, z8b_memSize]

/-- POKE then PEEK at one address (R145): PEEK meets the address register as POKE left it, unchanged. -/
theorem poke_peek {ra rb rd : Reg} {s t u : State} (h : s.mem.wf 0x8000 = true)
    (hpoke : exec (.poke ra rb) s = .next t) (hpeek : exec (.peek rd ra) t = .next u) :
    ((s.reg ra).toNat / 65536 < 0x8000 → (u.reg rd).toNat = (s.reg rb).toNat / 65536 % 256 * 65536) ∧
    (0x8000 ≤ (s.reg ra).toNat / 65536 → (∀ a, t.mem.byte a = s.mem.byte a) ∧ u.reg rd = 0) := by
  obtain ⟨-, t', ht', ⟨-, hreg, -⟩, hbyte⟩ := pokeStoresAByte ra rb s h
  obtain rfl := exec_next_unique hpoke ht'
  obtain ⟨-, u', hu', hval, -⟩ := peekReadsAByte rd ra t
  obtain rfl := exec_next_unique hpeek hu'
  rw [hreg ra] at hval
  refine ⟨fun hin => ?_, fun hout => ⟨fun a => ?_, BitVec.eq_of_toNat_eq ?_⟩⟩
  · rw [hval, if_pos hin, hbyte, if_pos ⟨rfl, hin⟩, BitVec.extractLsb'_toNat, Nat.shiftRight_eq_div_pow]
  · rw [hbyte, if_neg (by omega)]
  · rw [hval, if_neg (by omega)]
    rfl

/-- POKE4 then PEEK4 at one address (R145), byte by byte of the word. -/
theorem poke4_peek4 {ra rb rd : Reg} {s t u : State} (h : s.mem.wf 0x8000 = true)
    (hpoke : exec (.poke4 ra rb) s = .next t) (hpeek : exec (.peek4 rd ra) t = .next u) :
    ((s.reg ra).toNat / 65536 + 4 ≤ 0x8000 → u.reg rd = s.reg rb) ∧
    (0x8000 ≤ (s.reg ra).toNat / 65536 → (∀ a, t.mem.byte a = s.mem.byte a) ∧ u.reg rd = 0) := by
  obtain ⟨-, t', ht', ⟨-, hreg, -⟩, hbyte⟩ := poke4StoresFourBytes ra rb s h
  obtain rfl := exec_next_unique hpoke ht'
  obtain ⟨-, u', hu', -, hval⟩ := peek4ReadsFourBytes rd ra t
  obtain rfl := exec_next_unique hpeek hu'
  rw [hreg ra] at hval
  refine ⟨fun hin => word_ext_of_bytes fun i => ?_, fun hout => ⟨fun a => ?_, word_ext_of_bytes fun i => ?_⟩⟩
  · rw [hval, if_pos (by omega), hbyte, if_pos (by omega), Nat.add_sub_cancel_left]
  · rw [hbyte, if_neg (by omega)]
  · rw [hval, if_neg (by omega)]
    exact BitVec.extractLsb'_zero.symm

/-- Settles O26, for the byte and for the word. -/
theorem pokePeekRoundTrip : Obligations.PokePeekRoundTrip :=
  fun _ _ _ _ _ _ h => ⟨poke_peek h, poke4_peek4 h⟩

end Sys2Proof.Proofs
end

