-- ==== Sys2Proof/Proofs/PixelPipeline.lean ====
section
/-! PROOFS. One pixel of the framebuffer and the pixel pipeline of the primitives in the terms of the statements (R150 to
R155), and from it what a primitive that plots a list of positions paints (R164). -/

namespace Sys2Proof.Machine

open Sys2Proof.Claims

/-! A nibble and a byte as numbers. -/

/-- A framebuffer nibble as a digit of its byte (R152). -/
theorem toNat_nibbleOf (x : Nat) (b : Byte) : (nibbleOf x b).toNat = b.toNat / 16 ^ (x % 2) % 16 := by
  unfold nibbleOf
  rcases Nat.mod_two_eq_zero_or_one x with h | h <;>
    simp [h, BitVec.extractLsb'_toNat, Nat.shiftRight_eq_div_pow]

/-- The low four bits of a byte (R29). -/
theorem extractLsb'_eq_ofNat (b : Byte) : b.extractLsb' 0 4 = BitVec.ofNat 4 b.toNat :=
  BitVec.eq_of_toNat_eq (by simp [BitVec.extractLsb'_toNat])

/-- A framebuffer address of Z8B-1.0 (R152). -/
theorem fbAddr_z8b (x y : Nat) : fbAddr z8b x y = 0x6000 + 64 * y + x / 2 := by simp [fbAddr]

/-! The pipeline of `Plot` in a block whose screen and draw state stand where those of Z8B-1.0 do. -/

section Pipeline

variable {P : Params} (hD : P.drawBase = 0x5f00) (hW : P.screenW = 128) (hH : P.screenH = 128) (m : Mem) (x y : Fin 128)

include hD hW hH in
/-- The clip test on a pixel of the screen (R151). -/
theorem inClip_eq_clipped : inClip P m x.val y.val = clipped m x y := by
  rw [Bool.eq_iff_iff]
  simp only [inClip, clipped, clipX0, clipX1, clipY0, clipY1, draw, hD, hW, hH, Bool.and_eq_true, decide_eq_true_eq]
  omega

include hD in
/-- The fill pattern bit of a pixel of the screen (R34, R154). -/
theorem fillBit_eq_getLsbD : fillBit P m x.val y.val =
    (draw m 0x32 ++ draw m 0x31 : BitVec 16).getLsbD (15 - (x.val % 4 + 4 * (y.val % 4))) := by
  have hidx : ((x.val : Int) % 4 + 4 * ((y.val : Int) % 4)).toNat = x.val % 4 + 4 * (y.val % 4) := by omega
  rw [fillBit, hidx, fillp, hD]
  rfl

include hD in
/-- The end of the pipeline for a colour index (R155). -/
theorem plotColour_eq (col : Nibble) : plotColour P m x.val y.val col =
    if P.transpOnPrimitives && (draw m col.toNat).getLsbD 4 then none
    else some ⟨x.val, y.val, BitVec.ofNat 4 (draw m col.toNat).toNat⟩ := by
  rw [plotColour, transp, remap, hD, extractLsb'_eq_ofNat]
  rfl

include hD in
/-- The primary colour index of the pen (R32, R154). -/
theorem toNat_penLow : ((pen P m).extractLsb' 0 4).toNat = (draw m 0x25).toNat % 16 := by
  rw [pen, penAddr, hD, BitVec.extractLsb'_toNat]
  rfl

include hD in
/-- The secondary colour index of the pen (R32, R154). -/
theorem toNat_penHigh : ((pen P m).extractLsb' 4 4).toNat = (draw m 0x25).toNat / 16 := by
  have := (draw m 0x25).isLt
  rw [pen, penAddr, hD, BitVec.extractLsb'_toNat, Nat.shiftRight_eq_div_pow]
  exact Nat.mod_eq_of_lt (by omega)

include hD hW hH in
/-- `Plot` in the terms of the statements: clip test, fill pattern, colour index (R154). -/
theorem plot_eq : plot P m x.val y.val =
    if clipped m x y then
      if (draw m 0x32 ++ draw m 0x31 : BitVec 16).getLsbD (15 - (x.val % 4 + 4 * (y.val % 4))) then
        if (draw m 0x33).getLsbD 0 then none
        else if P.transpOnPrimitives && (draw m ((draw m 0x25).toNat / 16)).getLsbD 4 then none
        else some ⟨x.val, y.val, BitVec.ofNat 4 (draw m ((draw m 0x25).toNat / 16)).toNat⟩
      else if P.transpOnPrimitives && (draw m ((draw m 0x25).toNat % 16)).getLsbD 4 then none
      else some ⟨x.val, y.val, BitVec.ofNat 4 (draw m ((draw m 0x25).toNat % 16)).toNat⟩
    else none := by
  rw [plot, inClip_eq_clipped hD hW hH, fillBit_eq_getLsbD hD, plotColour_eq hD, plotColour_eq hD, toNat_penLow hD,
    toNat_penHigh hD, fillpT, hD]

include hD hW hH in
/-- With TRANSP_ON_PRIMITIVES = 0 `Plot` writes `primitiveColour` (R154, R155). -/
theorem plot_of_not_transpOnPrimitives (hT : P.transpOnPrimitives = false) :
    plot P m x.val y.val = (primitiveColour m (draw m 0x25) x y).map fun c => ⟨x.val, y.val, c⟩ := by
  rw [plot_eq hD hW hH, primitiveColour, hT]
  simp only [Bool.false_and, Bool.false_eq_true, if_false]
  split_ifs <;> rfl

include hD hW hH in
/-- With TRANSP_ON_PRIMITIVES = 1 a transparent colour index writes nothing (R155). -/
theorem plot_of_transpOnPrimitives (hT : P.transpOnPrimitives = true) :
    plot P m x.val y.val =
      if (draw m (if (draw m 0x32 ++ draw m 0x31 : BitVec 16).getLsbD (15 - (x.val % 4 + 4 * (y.val % 4)))
          then (draw m 0x25).toNat / 16 else (draw m 0x25).toNat % 16)).getLsbD 4 then none
      else (primitiveColour m (draw m 0x25) x y).map fun c => ⟨x.val, y.val, c⟩ := by
  rw [plot_eq hD hW hH, primitiveColour, hT]
  simp only [Bool.true_and]
  split_ifs <;> rfl

end Pipeline

/-- Off the screen `Plot` writes nothing (R151). -/
theorem plot_of_off_screen {P : Params} (m : Mem) {xs ys : Int}
    (h : xs < 0 ∨ P.screenW ≤ xs ∨ ys < 0 ∨ P.screenH ≤ ys) : plot P m xs ys = none := by
  rw [plot, if_neg]
  intro hin
  have := inClip_onScreen hin
  omega

/-! The pixels of a list of positions. -/

/-- `Plot` of Z8B-1.0 (R154). -/
theorem plot_z8b (m : Mem) (x y : Fin 128) :
    plot z8b m x.val y.val = (primitiveColour m (draw m 0x25) x y).map fun c => ⟨x.val, y.val, c⟩ :=
  plot_of_not_transpOnPrimitives z8b_drawBase z8b_screenW z8b_screenH m x y z8b_transpOnPrimitives

/-- A pixel of the screen, read from the framebuffer after a list of positions is plotted: the plotted colour where
the list names it, else as before (R154). -/
theorem pixel_plots {m : Mem} (h : m.wf 0x8000 = true) (pts : List (Int × Int)) (x y : Fin 128) :
    pixel (drawPixels z8b m (pts.filterMap fun p => plot z8b m p.1 p.2)) x y =
      if ((x.val : Int), (y.val : Int)) ∈ pts then (primitiveColour m (draw m 0x25) x y).getD (pixel m x y)
      else pixel m x y := by
  have hown (p : Pixel) (hp : p ∈ pts.filterMap fun p => plot z8b m p.1 p.2) (hxy : x.val = p.x ∧ y.val = p.y) :
      ((x.val : Int), (y.val : Int)) ∈ pts ∧ plot z8b m x.val y.val = some p := by
    obtain ⟨xs, ys, hmem, hplot⟩ := mem_filterMap_plot.1 hp
    obtain ⟨-, rfl, rfl⟩ := plot_some hplot
    rw [hxy.1, hxy.2]
    exact ⟨hmem, hplot⟩
  rw [plot_z8b] at hown
  cases hc : primitiveColour m (draw m 0x25) x y with
  | none =>
    rw [hc] at hown
    rw [Option.getD_none, ite_self]
    exact getPix_drawPixels_of_not z8b_fits h onScreen_plots x.isLt fun p hp hxy => by simpa using hown p hp hxy
  | some c =>
    rw [hc] at hown
    split
    · next hmem =>
      refine getPix_drawPixels_of_mem z8b_fits h onScreen_plots ⟨⟨x.val, y.val, c⟩, ?_, rfl, rfl⟩ fun p hp hxy => ?_
      · exact mem_filterMap_plot.2 ⟨_, _, hmem, by rw [plot_z8b, hc]; rfl⟩
      · have := (hown p hp hxy).2
        simp only [Option.map_some, Option.some.injEq] at this
        rw [← this]
        rfl
    · next hmem =>
      exact getPix_drawPixels_of_not z8b_fits h onScreen_plots x.isLt fun p hp hxy => hmem (hown p hp hxy).1

/-! The image that the colour operand leaves. -/

section DrawState

variable {m m' : Mem} (h : ∀ k, k ≠ 0x25 → draw m' k = draw m k)

include h

/-- The clip test reads no PEN (R151). -/
theorem clipped_congr (x y : Fin 128) : clipped m' x y = clipped m x y := by
  rw [clipped, h 0x20 (by decide), h 0x21 (by decide), h 0x22 (by decide), h 0x23 (by decide), ← clipped]

/-- The pipeline reads the pen that it is given and no PEN (R154). -/
theorem primitiveColour_congr (pen : Byte) (x y : Fin 128) : primitiveColour m' pen x y = primitiveColour m pen x y := by
  have := pen.isLt
  rw [primitiveColour, clipped_congr h, h 0x31 (by decide), h 0x32 (by decide), h 0x33 (by decide),
    h (pen.toNat / 16) (by omega), h (pen.toNat % 16) (by omega), ← primitiveColour]

end DrawState

section ColourOperand

variable {m : Mem} (h : m.wf 0x8000 = true) (hasColour : Bool) (colour : Word)

include h

/-- Every byte after the colour operand: PEN is the new pen (R153). -/
theorem byte_resolveColour_z8b (a : Nat) :
    (resolveColour z8b hasColour colour m).byte a = if a = 0x5f25 then penAfter m hasColour colour else m.byte a := by
  rw [byte_resolveColour h]
  cases hasColour with
  | false =>
    by_cases ha : a = 0x5f25
    · simp [ha, penAfter]
    · simp [ha]
  | true =>
    have hpen : byteOf colour = penAfter m true colour := by
      rw [byteOf_word, penAfter, BitVec.extractLsb', Nat.shiftRight_eq_div_pow]
      rfl
    simp [penAddr, hpen]

theorem draw_resolveColour {k : Nat} (hk : k ≠ 0x25) : draw (resolveColour z8b hasColour colour m) k = draw m k := by
  rw [draw, byte_resolveColour_z8b h, if_neg (by omega)]

theorem pen_resolveColour : draw (resolveColour z8b hasColour colour m) 0x25 = penAfter m hasColour colour := by
  rw [draw, byte_resolveColour_z8b h, if_pos rfl]

theorem pixel_resolveColour (x y : Fin 128) : pixel (resolveColour z8b hasColour colour m) x y = pixel m x y :=
  getPix_resolveColour z8b_fits h hasColour colour ⟨x.isLt, y.isLt⟩

end ColourOperand

/-! Screen coordinates (R150). -/

/-- CAM_X and CAM_Y of Z8B-1.0 (R33). -/
theorem camX_z8b (m : Mem) : camX z8b m = cameraX m := toInt_half m 0x5f28

theorem camY_z8b (m : Mem) : camY z8b m = cameraY m := toInt_half m 0x5f2a

theorem screenX_z8b (s : State) (ra : Reg) (i : Nat) : s.screenX z8b s.mem ra i = sx s ra i := by
  rw [State.screenX, camX_z8b, vint_eq]

theorem screenY_z8b (s : State) (ra : Reg) (i : Nat) : s.screenY z8b s.mem ra i = sy s ra i := by
  rw [State.screenY, camY_z8b, vint_eq]

/-- The colour operand leaves the camera as it is (R153). -/
theorem screenX_resolveColour {s : State} (h : s.mem.wf 0x8000 = true) (b : Bool) (c : Word) (ra : Reg) (i : Nat) :
    s.screenX z8b (resolveColour z8b b c s.mem) ra i = sx s ra i := by
  rw [← screenX_z8b, State.screenX, State.screenX, camX_z8b, camX_z8b, cameraX, byte_resolveColour_z8b h,
    byte_resolveColour_z8b h, if_neg (by decide), if_neg (by decide)]

theorem screenY_resolveColour {s : State} (h : s.mem.wf 0x8000 = true) (b : Bool) (c : Word) (ra : Reg) (i : Nat) :
    s.screenY z8b (resolveColour z8b b c s.mem) ra i = sy s ra i := by
  rw [← screenY_z8b, State.screenY, State.screenY, camY_z8b, camY_z8b, cameraY, byte_resolveColour_z8b h,
    byte_resolveColour_z8b h, if_neg (by decide), if_neg (by decide)]

/-! What a primitive paints. -/

/-- FRAME of every primitive (R164). -/
theorem drawFrame_plots {s : State} (h : s.mem.wf 0x8000 = true) (b : Bool) (c : Word) (pts : List (Int × Int)) :
    let m := resolveColour z8b b c s.mem
    DrawFrame (penAfter s.mem b c) s
      (s.setMem (drawPixels z8b m (pts.filterMap fun p => plot z8b m p.1 p.2))).advance := by
  refine ⟨fun a ha => ?_, memFrame_setMem s _⟩
  rw [advance_mem, setMem_mem,
    byte_drawPixels_outside z8b_fits (resolveColour_wf z8b_fits h b c) onScreen_plots (by simpa using ha),
    byte_resolveColour_z8b h]

/-- A PRIMITIVE PAINTS WHAT ITS POSITIONS COVER (R154, R164): the list it plots may leave out, or name, positions outside
the clip rectangle as it likes (R165). -/
theorem plotAll_paints {s : State} (h : s.mem.wf 0x8000 = true) (b : Bool) (c : Word) {pts : List (Int × Int)}
    {covered : Int → Int → Prop}
    (hcov : ∀ x y : Int, inClip z8b (resolveColour z8b b c s.mem) x y = true → ((x, y) ∈ pts ↔ covered x y)) :
    ∃ t, plotAll z8b (resolveColour z8b b c s.mem) pts s = .next t ∧ Paints (penAfter s.mem b c) covered s t := by
  refine ⟨_, plotAll_eq .., drawFrame_plots h b c pts, fun x y => ?_⟩
  have hdraw := fun k (hk : k ≠ 0x25) => draw_resolveColour h b c hk
  have hpix := pixel_plots (resolveColour_wf z8b_fits h b c) pts x y
  rw [pixel_resolveColour h, pen_resolveColour h, primitiveColour_congr hdraw] at hpix
  rw [advance_mem, setMem_mem, hpix]
  by_cases hin : clipped s.mem x y = true
  · have hiff := hcov x y (by rwa [inClip_eq_clipped z8b_drawBase z8b_screenW z8b_screenH, clipped_congr hdraw])
    exact ⟨fun hxy => if_pos (hiff.2 hxy), fun hxy => if_neg (mt hiff.1 hxy)⟩
  · rw [show primitiveColour s.mem (penAfter s.mem b c) x y = none from if_neg hin, Option.getD_none, ite_self]
    exact ⟨fun _ => rfl, fun _ => rfl⟩

end Sys2Proof.Machine

namespace Sys2Proof.Proofs

open Sys2Proof.Machine Sys2Proof.Claims

/-- Settles O29: one nibble of one byte is read and replaced. -/
theorem setPixReplacesOneNibble : Obligations.SetPixReplacesOneNibble := by
  intro m x y c h
  have hpix (u v : Fin 128) := getPix_setPix z8b_fits h (p := ⟨x.val, y.val, c⟩) x.isLt (y := v.val) u.isLt
  refine ⟨?_, ?_, fun u v hne => ?_, fun a ha => ?_⟩
  · rw [pixel, getPix, toNat_nibbleOf, fbAddr_z8b]
  · exact (hpix x y).trans (if_pos ⟨rfl, rfl⟩)
  · refine (hpix u v).trans (if_neg fun e => hne ?_)
    exact Prod.ext (Fin.ext e.1) (Fin.ext e.2)
  · rw [byte_setPix h, if_neg]
    rwa [fbAddr_z8b]

/-- Settles O39, by the two values of the parameter. -/
theorem plotFollowsThePipeline : Obligations.PlotFollowsThePipeline :=
  ⟨fun _ m _ _ => plot_of_off_screen m, fun _ m x y hD hW hH =>
    ⟨plot_of_not_transpOnPrimitives hD hW hH m x y, plot_of_transpOnPrimitives hD hW hH m x y⟩⟩

end Sys2Proof.Proofs
end

