-- ==== Sys2Proof/Proofs/SteppingLoops.lean ====
section
/-! PROOFS. The stepping loops of LINE and of the circles (R158, R163): the model's lists are the turns of the loops, and
how many turns there are (R269). -/

namespace Sys2Proof.Machine

open Sys2Proof.Claims

theorem iabs_eq_abs (n : Int) : iabs n = |n| := Int.natCast_natAbs n

/-! The loop of R158. -/

/-- (x, y, err) is at the second end point (R158). -/
abbrev AtEnd (x1 y1 : Int) (q : Int × Int × Int) : Prop := q.1 = x1 ∧ q.2.1 = y1

/-- The turns a line takes (R158). -/
abbrev lineTurns (x0 y0 x1 y1 : Int) : Nat := (max |x1 - x0| |y1 - y0|).toNat

/-- The model's loop, turn by turn (R158). -/
theorem lineLoop_succ (x1 y1 dx dy stepX stepY : Int) (fuel : Nat) (q : Int × Int × Int) :
    lineLoop x1 y1 dx dy stepX stepY (fuel + 1) q.1 q.2.1 q.2.2 =
      (q.1, q.2.1) ::
        if AtEnd x1 y1 q then []
        else
          let q' := lineTurn dx dy stepX stepY q
          lineLoop x1 y1 dx dy stepX stepY fuel q'.1 q'.2.1 q'.2.2 := by
  have herr : q.2.2 - (if 2 * q.2.2 > -dy then dy else 0) + (if 2 * q.2.2 < dx then dx else 0) =
      (lineTurn dx dy stepX stepY q).2.2 := by
    simp only [lineTurn]
    split_ifs <;> ring
  simp only [lineLoop, decide_eq_true_eq, herr]
  rfl

/-- The model's loop with enough fuel lists the positions at its turns, up to the first at the second end point. -/
theorem lineLoop_eq_map {x1 y1 dx dy stepX stepY : Int} {n fuel : Nat} {q : Int × Int × Int}
    (hbefore : ∀ k < n, ¬ AtEnd x1 y1 ((lineTurn dx dy stepX stepY)^[k] q))
    (hend : AtEnd x1 y1 ((lineTurn dx dy stepX stepY)^[n] q)) (hfuel : n < fuel) :
    lineLoop x1 y1 dx dy stepX stepY fuel q.1 q.2.1 q.2.2 =
      (List.range (n + 1)).map fun k =>
        (((lineTurn dx dy stepX stepY)^[k] q).1, ((lineTurn dx dy stepX stepY)^[k] q).2.1) := by
  induction n generalizing fuel q with
  | zero =>
    obtain ⟨fuel, rfl⟩ := Nat.exists_eq_succ_of_ne_zero hfuel.ne'
    rw [lineLoop_succ, if_pos (show AtEnd x1 y1 q from hend)]
    rfl
  | succ n ih =>
    obtain ⟨fuel, rfl⟩ := Nat.exists_eq_succ_of_ne_zero (Nat.ne_zero_of_lt hfuel)
    have hq : ¬ AtEnd x1 y1 q := hbefore 0 (by omega)
    rw [lineLoop_succ, if_neg hq, List.range_succ_eq_map, List.map_cons, List.map_map,
      ih (fun k hk => hbefore (k + 1) (by omega)) hend (by omega)]
    rfl

/-- What holds after k turns of a line that is at least as wide as it is high: every turn has stepped x, and the error
term counts the steps of y (R158). -/
structure WideLine (x0 y0 dx dy stepX stepY : Int) (k : Nat) (q : Int × Int × Int) : Prop where
  above : -dy < 2 * q.2.2
  below : 2 * q.2.2 < 3 * dx - 2 * dy
  x_eq : q.1 = x0 + k * stepX
  y_eq : ∃ j : Int, q.2.1 = y0 + j * stepY ∧ q.2.2 = dx - dy - k * dy + j * dx

theorem WideLine.init {x0 y0 dx dy stepX stepY : Int} (h0 : 0 < dy) (hle : dy ≤ dx) :
    WideLine x0 y0 dx dy stepX stepY 0 (x0, y0, dx - dy) where
  above := by dsimp only; omega
  below := by dsimp only; omega
  x_eq := by simp
  y_eq := ⟨0, by simp⟩

theorem WideLine.turn {x0 y0 dx dy stepX stepY : Int} {k : Nat} {q : Int × Int × Int} (h0 : 0 < dy)
    (hle : dy ≤ dx) (h : WideLine x0 y0 dx dy stepX stepY k q) :
    WideLine x0 y0 dx dy stepX stepY (k + 1) (lineTurn dx dy stepX stepY q) := by
  obtain ⟨habove, hbelow, hx, j, hy, herr⟩ := h
  obtain ⟨x, y, err⟩ := q
  dsimp only at *
  have hx' : x + stepX = x0 + (k + 1 : Nat) * stepX := by rw [hx]; push_cast; ring
  by_cases hstep : 2 * err < dx
  · rw [lineTurn, if_pos habove, if_pos hstep, if_pos habove, if_pos hstep]
    refine ⟨by dsimp only; omega, by dsimp only; omega, hx', j + 1, ?_, ?_⟩
    · dsimp only; rw [hy]; ring
    · dsimp only; rw [herr]; push_cast; ring
  · rw [lineTurn, if_pos habove, if_neg hstep, if_pos habove, if_neg hstep]
    refine ⟨by dsimp only; omega, by dsimp only; omega, hx', j, hy, ?_⟩
    dsimp only; rw [herr]; push_cast; ring

theorem WideLine.iterate {x0 y0 dx dy stepX stepY : Int} (h0 : 0 < dy) (hle : dy ≤ dx) (k : Nat) :
    WideLine x0 y0 dx dy stepX stepY k ((lineTurn dx dy stepX stepY)^[k] (x0, y0, dx - dy)) := by
  induction k with
  | zero => exact .init h0 hle
  | succ k ih => rw [Function.iterate_succ_apply']; exact ih.turn h0 hle

/-- After dx turns y has taken its dy steps: the bounds on the error term leave no other number. -/
theorem WideLine.y_of_eq {x0 y0 dx dy stepX stepY : Int} {k : Nat} {q : Int × Int × Int} (h0 : 0 < dy) (hle : dy ≤ dx)
    (hk : (k : Int) = dx) (h : WideLine x0 y0 dx dy stepX stepY k q) : q.2.1 = y0 + dy * stepY := by
  obtain ⟨habove, hbelow, -, j, hy, herr⟩ := h
  have herr' : q.2.2 = dx * (1 + j - dy) - dy := by rw [herr, hk]; ring
  have hlo : 0 < 1 + j - dy := pos_of_mul_pos_right (a := dx) (by omega) (by omega)
  have hhi : 1 + j - dy < 2 := lt_of_mul_lt_mul_left (a := dx) (by omega) (by omega)
  rw [hy, show j = dy by omega]

/-- The second end point from the first, along one axis (R158). -/
theorem add_abs_mul_sign (a b : Int) : a + |b - a| * (if b > a then 1 else -1) = b := by
  split <;> [rw [abs_of_nonneg (by omega)]; rw [abs_of_nonpos (by omega)]] <;> ring

/-- A line that is at least as wide as it is high is at its second end point after dx turns and not before. -/
theorem lineAt_of_wide {x0 y0 x1 y1 : Int} (hy : y0 ≠ y1) (hle : |y1 - y0| ≤ |x1 - x0|) :
    AtEnd x1 y1 (lineAt x0 y0 x1 y1 |x1 - x0|.toNat) ∧
      ∀ k < |x1 - x0|.toNat, ¬ AtEnd x1 y1 (lineAt x0 y0 x1 y1 k) := by
  have h0 : 0 < |y1 - y0| := abs_pos.2 (by omega)
  have hline := WideLine.iterate (x0 := x0) (y0 := y0) (stepX := if x1 > x0 then 1 else -1)
    (stepY := if y1 > y0 then 1 else -1) h0 hle
  have hdx : ((|x1 - x0|.toNat : Nat) : Int) = |x1 - x0| := Int.toNat_of_nonneg (abs_nonneg _)
  refine ⟨⟨?_, ?_⟩, fun k hk hend => ?_⟩
  · rw [lineAt, (hline _).x_eq, hdx, add_abs_mul_sign]
  · rw [lineAt, (hline _).y_of_eq h0 hle hdx, add_abs_mul_sign]
  · have hx := hend.1
    rw [lineAt, (hline k).x_eq] at hx
    have hx1 := add_abs_mul_sign x0 x1
    split at hx <;> split at hx1 <;> omega

/-- (x, y, err) of the line mirrored at the diagonal. -/
def swapAxes (q : Int × Int × Int) : Int × Int × Int := (q.2.1, q.1, -q.2.2)

/-- The loop treats the two axes alike (R158). -/
theorem lineTurn_swapAxes (dx dy stepX stepY : Int) :
    Function.Semiconj swapAxes (lineTurn dx dy stepX stepY) (lineTurn dy dx stepY stepX) := by
  rintro ⟨x, y, err⟩
  simp only [swapAxes, lineTurn, Prod.mk.injEq]
  refine ⟨?_, ?_, ?_⟩ <;> split_ifs <;> omega

theorem lineAt_swapAxes (x0 y0 x1 y1 : Int) (k : Nat) : lineAt y0 x0 y1 x1 k = swapAxes (lineAt x0 y0 x1 y1 k) := by
  rw [lineAt, lineAt, (lineTurn_swapAxes _ _ _ _).iterate_right k, swapAxes, neg_sub]

/-- THE LINE REACHES ITS END after max(dx, dy) turns and not before (R158, R269). -/
theorem lineAt_lineTurns {x0 y0 x1 y1 : Int} (hx : x0 ≠ x1) (hy : y0 ≠ y1) :
    AtEnd x1 y1 (lineAt x0 y0 x1 y1 (lineTurns x0 y0 x1 y1)) ∧
      ∀ k < lineTurns x0 y0 x1 y1, ¬ AtEnd x1 y1 (lineAt x0 y0 x1 y1 k) := by
  rcases le_total |y1 - y0| |x1 - x0| with hle | hle
  · rw [lineTurns, max_eq_left hle]
    exact lineAt_of_wide hy hle
  · obtain ⟨hend, hbefore⟩ := lineAt_of_wide hx hle
    simp only [lineAt_swapAxes x0 y0 x1 y1] at hend hbefore
    rw [lineTurns, max_eq_right hle]
    exact ⟨hend.symm, fun k hk h => hbefore k hk h.symm⟩

/-- The model's line: the positions of the turns, both ends among them (R158). -/
theorem linePoints_eq_map (P : Params) (m : Mem) {x0 y0 x1 y1 : Int} (hx : x0 ≠ x1) (hy : y0 ≠ y1) :
    linePoints P m x0 y0 x1 y1 =
      (List.range (lineTurns x0 y0 x1 y1 + 1)).map fun k => ((lineAt x0 y0 x1 y1 k).1, (lineAt x0 y0 x1 y1 k).2.1) := by
  obtain ⟨hend, hbefore⟩ := lineAt_lineTurns hx hy
  have hfuel : lineTurns x0 y0 x1 y1 < (|x1 - x0| + |y1 - y0| + 1).toNat := by
    have := abs_nonneg (x1 - x0)
    have := abs_nonneg (y1 - y0)
    rw [lineTurns]
    omega
  rw [linePoints, if_neg hy, if_neg hx, iabs_eq_abs, iabs_eq_abs]
  exact lineLoop_eq_map (q := (x0, y0, |x1 - x0| - |y1 - y0|)) hbefore hend hfuel

/-- The turns up to the first at the second end point are the turns the line takes. -/
theorem forall_not_atEnd_iff {x0 y0 x1 y1 : Int} (hx : x0 ≠ x1) (hy : y0 ≠ y1) (k : Nat) :
    (∀ j < k, ¬ AtEnd x1 y1 (lineAt x0 y0 x1 y1 j)) ↔ k < lineTurns x0 y0 x1 y1 + 1 := by
  obtain ⟨hend, hbefore⟩ := lineAt_lineTurns hx hy
  rw [Nat.lt_succ_iff]
  exact ⟨fun h => not_lt.1 fun hlt => h _ hlt hend, fun hle j hj => hbefore j (by omega)⟩

/-- A position of a line that is no span (R158). -/
theorem mem_linePoints (P : Params) (m : Mem) {x0 y0 x1 y1 x y : Int} (hx : x0 ≠ x1) (hy : y0 ≠ y1) :
    (x, y) ∈ linePoints P m x0 y0 x1 y1 ↔
      ∃ k : Nat, (∀ j < k, ¬ AtEnd x1 y1 (lineAt x0 y0 x1 y1 j)) ∧
        (lineAt x0 y0 x1 y1 k).1 = x ∧ (lineAt x0 y0 x1 y1 k).2.1 = y := by
  simp only [linePoints_eq_map P m hx hy, forall_not_atEnd_iff hx hy, List.mem_map, List.mem_range, Prod.mk.injEq]

/-! The stepping of R163. -/

theorem midpointAt_succ (r : Int) (k : Nat) : midpointAt r (k + 1) = midpointTurn (midpointAt r k) :=
  Function.iterate_succ_apply' ..

/-- A turn moves dy on by one (R163). -/
theorem midpointTurn_dy (q : Int × Int × Int) : (midpointTurn q).2.1 = q.2.1 + 1 := by
  unfold midpointTurn
  split <;> rfl

/-- A turn never makes dx larger (R163). -/
theorem midpointTurn_dx_le (q : Int × Int × Int) : (midpointTurn q).1 ≤ q.1 := by
  unfold midpointTurn
  split
  · exact le_rfl
  · exact sub_le_self _ zero_le_one

/-- After k turns dy = k (R163). -/
theorem midpointAt_dy (r : Int) (k : Nat) : (midpointAt r k).2.1 = k := by
  induction k with
  | zero => rfl
  | succ k ih => rw [midpointAt_succ, midpointTurn_dy, ih, Nat.cast_succ]

theorem midpointAt_dx_antitone (r : Int) : Antitone fun k => (midpointAt r k).1 :=
  antitone_nat_of_succ_le fun k => by rw [midpointAt_succ]; exact midpointTurn_dx_le _

/-- The model's stepping, turn by turn (R163). -/
theorem midpointLoop_succ (fuel : Nat) (q : Int × Int × Int) :
    midpointLoop (fuel + 1) q.1 q.2.1 q.2.2 =
      if q.2.1 ≤ q.1 then
        (q.1, q.2.1) :: midpointLoop fuel (midpointTurn q).1 (midpointTurn q).2.1 (midpointTurn q).2.2
      else [] := by
  rw [midpointLoop, midpointTurn]
  split_ifs <;> rfl

/-- The model's stepping with enough fuel lists the pairs of its turns while dx >= dy. -/
theorem midpointLoop_eq_map {n fuel : Nat} {q : Int × Int × Int}
    (hbefore : ∀ k < n, (midpointTurn^[k] q).2.1 ≤ (midpointTurn^[k] q).1)
    (hend : (midpointTurn^[n] q).1 < (midpointTurn^[n] q).2.1) (hfuel : n ≤ fuel) :
    midpointLoop fuel q.1 q.2.1 q.2.2 =
      (List.range n).map fun k => ((midpointTurn^[k] q).1, (midpointTurn^[k] q).2.1) := by
  induction n generalizing fuel q with
  | zero =>
    cases fuel with
    | zero => rfl
    | succ fuel =>
      have hq : ¬ q.2.1 ≤ q.1 := not_le.2 hend
      rw [midpointLoop_succ, if_neg hq]
      rfl
  | succ n ih =>
    obtain ⟨fuel, rfl⟩ := Nat.exists_eq_succ_of_ne_zero (Nat.ne_zero_of_lt hfuel)
    have hq : q.2.1 ≤ q.1 := hbefore 0 (by omega)
    rw [midpointLoop_succ, if_pos hq, List.range_succ_eq_map, List.map_cons, List.map_map,
      ih (fun k hk => hbefore (k + 1) (by omega)) hend (by omega)]
    rfl

/-- THE MIDPOINT PAIRS ARE THE TURNS while dx >= dy, of which there are between 1 and r + 1 (R163). -/
theorem midpointPairs_eq_map {r : Int} (hr : 0 ≤ r) :
    ∃ n : Nat, midpointPairs r = ((List.range n).map fun k => ((midpointAt r k).1, (k : Int))) ∧
      (∀ k < n, (k : Int) ≤ (midpointAt r k).1) ∧ (midpointAt r n).1 < n ∧ 0 < n ∧ (n : Int) ≤ r + 1 := by
  have hle (k : Nat) : (midpointAt r k).1 ≤ r := midpointAt_dx_antitone r (Nat.zero_le k)
  have hlast : (midpointAt r (r + 1).toNat).1 < ((r + 1).toNat : Nat) := by
    have := hle (r + 1).toNat
    omega
  have hex : ∃ k : Nat, (midpointAt r k).1 < k := ⟨_, hlast⟩
  have hmin := Nat.find_min' hex hlast
  refine ⟨Nat.find hex, ?_, fun k hk => not_lt.1 (Nat.find_min hex hk), Nat.find_spec hex, ?_, by omega⟩
  · rw [midpointPairs, if_pos hr, midpointLoop_eq_map (q := (r, 0, 1 - r)) (n := Nat.find hex) _ _ hmin]
    · exact List.map_congr_left fun k _ => congrArg _ (midpointAt_dy r k)
    · exact fun k hk => (midpointAt_dy r k).trans_le (not_lt.1 (Nat.find_min hex hk))
    · exact (Nat.find_spec hex).trans_eq (midpointAt_dy r _).symm
  · exact (Nat.find_pos hex).2 (not_lt.2 hr)

/-- The model's pairs are the emitted ones (R163). -/
theorem mem_midpointPairs {r dx dy : Int} : (dx, dy) ∈ midpointPairs r ↔ emitted r dx dy := by
  by_cases hr : 0 ≤ r
  · obtain ⟨n, heq, hbefore, hend, -, -⟩ := midpointPairs_eq_map hr
    simp only [heq, emitted, midpointAt_dy, List.mem_map, List.mem_range, Prod.mk.injEq, hr, true_and]
    constructor
    · rintro ⟨k, hk, rfl, rfl⟩
      exact ⟨k, rfl, rfl, hbefore k hk⟩
    · rintro ⟨k, rfl, rfl, hle⟩
      refine ⟨k, not_le.1 fun hnk => ?_, rfl, rfl⟩
      have : (midpointAt r k).1 ≤ (midpointAt r n).1 := midpointAt_dx_antitone r hnk
      omega
  · simp [midpointPairs, emitted, hr]

/-- Both numbers of an emitted pair count from 0 (R163). -/
theorem nonneg_of_emitted {r dx dy : Int} (h : emitted r dx dy) : 0 ≤ dy ∧ 0 ≤ dx := by
  obtain ⟨-, k, -, hdy, hle⟩ := h
  rw [midpointAt_dy] at hdy
  omega

end Sys2Proof.Machine

namespace Sys2Proof.Proofs

open Sys2Proof.Machine Sys2Proof.Claims

/-- Settles O33, by the number of turns of the loop and the list of its positions. -/
theorem lineReachesItsEnd : Obligations.LineReachesItsEnd := by
  intro x0 y0 x1 y1 hx hy
  obtain ⟨hend, hbefore⟩ := lineAt_lineTurns hx hy
  refine ⟨hend.1, hend.2, hbefore, fun P m => ?_⟩
  rw [linePoints_eq_map P m hx hy]
  refine ⟨by rw [List.length_map, List.length_range], ?_, ?_⟩
  · rw [List.range_succ_eq_map]
    rfl
  · rw [List.range_succ, List.map_append, List.map_singleton, List.getLast?_concat, hend.1, hend.2]

/-- Settles O38, by the number of turns of the stepping. -/
theorem midpointPairsAreTheTurns : Obligations.MidpointPairsAreTheTurns := by
  intro r hr
  obtain ⟨n, heq, hbefore, hend, hpos, hle⟩ := midpointPairs_eq_map hr
  have hlen : (midpointPairs r).length = n := by rw [heq, List.length_map, List.length_range]
  rw [hlen]
  refine ⟨fun k hk => ⟨?_, midpointAt_dy r k, hbefore k hk⟩, hend, hpos, hle⟩
  rw [heq, List.getElem?_map, List.getElem?_range hk]
  rfl

end Sys2Proof.Proofs
end

