-- ==== Sys2Proof/Proofs/Primitives.lean ====
section
/-! PROOFS. The drawing primitives (R156 to R163): which positions each one's list covers inside the clip rectangle, and
from that what the command paints. -/

namespace Sys2Proof.Machine

open Sys2Proof.Claims

/-- The flags of format V with C alone, and the reserved bits before them (R97). -/
theorem append_colourFlag (p : BitVec 16) (c : Bool) :
    (p ++ 0#15 ++ BitVec.ofBool c : CmdWord) =
      p ++ 0#13 ++ BitVec.ofBool false ++ BitVec.ofBool false ++ BitVec.ofBool c := by
  have hzeros : (p ++ 0#15).toNat = (p ++ 0#13 ++ 0#1 ++ 0#1).toNat := by
    simp only [BitVec.toNat_append, BitVec.toNat_zero, Nat.or_zero, ← Nat.shiftLeft_add]
  exact congrArg (fun q : BitVec 31 => (q ++ BitVec.ofBool c : CmdWord)) (BitVec.eq_of_toNat_eq hzeros)

/-- A format-V word with the C flag alone, as the statements put it together, is decoded to its command (R97, R101). -/
theorem decode_colourWord {o : Op} {ra : Reg} {c : Bool} {i : Instr} (henc : encode i = encodeV o ra ⟨false, false, c⟩)
    (hwf : i.wf = true) : decode (o.code ++ 0#4 ++ bits ra ++ 0#15 ++ BitVec.ofBool c) = .ok i := by
  rw [← decode_encode_of_wf hwf, henc, encodeV, ← append_colourFlag]

/-! The commands as lists of positions on the image that the colour operand leaves. -/

section Lists

variable {s : State} (h : s.mem.wf 0x8000 = true) (ra : Reg) (f : VFlags)

include h

theorem exec_pset : exec (.pset ra f) s =
    plotAll z8b (resolveColour z8b f.c (operand s ra 2) s.mem) [(sx s ra 0, sy s ra 1)] s := by
  rw [exec, execPset, psetIn, screenX_resolveColour h, screenY_resolveColour h, vop_eq]

theorem exec_line : exec (.line ra f) s =
    let m := resolveColour z8b f.c (operand s ra 4) s.mem
    plotAll z8b m (linePoints z8b m (sx s ra 0) (sy s ra 1) (sx s ra 2) (sy s ra 3)) s := by
  rw [exec, execLine, lineIn, screenX_resolveColour h, screenX_resolveColour h, screenY_resolveColour h,
    screenY_resolveColour h, vop_eq]

theorem exec_rect : exec (.rect ra f) s =
    let m := resolveColour z8b f.c (operand s ra 4) s.mem
    plotAll z8b m (rectPoints z8b m (sx s ra 0) (sy s ra 1) (sx s ra 2) (sy s ra 3)) s := by
  rw [exec, execRect, rectIn, screenX_resolveColour h, screenX_resolveColour h, screenY_resolveColour h,
    screenY_resolveColour h, vop_eq]

theorem exec_rectfill : exec (.rectfill ra f) s =
    let m := resolveColour z8b f.c (operand s ra 4) s.mem
    plotAll z8b m (rectfillPoints z8b m (sx s ra 0) (sy s ra 1) (sx s ra 2) (sy s ra 3)) s := by
  rw [exec, execRectfill, rectfillIn, screenX_resolveColour h, screenX_resolveColour h, screenY_resolveColour h,
    screenY_resolveColour h, vop_eq]

theorem exec_circ : exec (.circ ra f) s =
    plotAll z8b (resolveColour z8b f.c (operand s ra 3) s.mem)
      (circPoints (sx s ra 0) (sy s ra 1) (whole s ra 2)) s := by
  rw [exec, execCirc, circIn, screenX_resolveColour h, screenY_resolveColour h, vop_eq, vint_eq]

theorem exec_circfill : exec (.circfill ra f) s =
    let m := resolveColour z8b f.c (operand s ra 3) s.mem
    plotAll z8b m (circfillPoints z8b m (sx s ra 0) (sy s ra 1) (whole s ra 2)) s := by
  rw [exec, execCircfill, circfillIn, screenX_resolveColour h, screenY_resolveColour h, vop_eq, vint_eq]

end Lists

/-! The positions inside the clip rectangle. -/

section Positions

variable {P : Params} {m : Mem} {x y : Int} (hin : inClip P m x y = true)

include hin

/-- The border of a rectangle (R159). -/
theorem mem_rectPoints {xa ya xb yb : Int} :
    (x, y) ∈ rectPoints P m xa ya xb yb ↔
      min xa xb ≤ x ∧ x ≤ max xa xb ∧ min ya yb ≤ y ∧ y ≤ max ya yb ∧
        (x = min xa xb ∨ x = max xa xb ∨ y = min ya yb ∨ y = max ya yb) := by
  simp only [rectPoints, List.mem_append, mem_hspan, mem_vspan, hin, and_true]
  omega

/-- A filled rectangle (R160). -/
theorem mem_rectfillPoints {xa ya xb yb : Int} :
    (x, y) ∈ rectfillPoints P m xa ya xb yb ↔
      min xa xb ≤ x ∧ x ≤ max xa xb ∧ min ya yb ≤ y ∧ y ≤ max ya yb := by
  have hclip : clipY0 P m ≤ y ∧ y ≤ clipY1 P m - 1 := by
    simp only [inClip, Bool.and_eq_true, decide_eq_true_eq] at hin
    omega
  simp only [rectfillPoints, List.mem_flatMap, mem_intRange, mem_hspan, hin, and_true]
  constructor
  · rintro ⟨y', hy', rfl, hx⟩; omega
  · rintro ⟨hx, hx', hy, hy'⟩; exact ⟨y, by omega, rfl, hx, hx'⟩

/-- The spans of one pair of the midpoint stepping (R162). -/
theorem mem_circSpans {cx cy dx dy : Int} :
    (x, y) ∈ circSpans P m cx cy dx dy ↔
      (y = cy + dy ∨ y = cy - dy) ∧ |x - cx| ≤ dx ∨ (y = cy + dx ∨ y = cy - dx) ∧ |x - cx| ≤ dy := by
  simp only [circSpans, List.mem_append, mem_hspan, hin, and_true, abs_le]
  omega

/-- A span or, when no coordinate is shared, the turns of the loop (R158). -/
theorem mem_linePoints_iff {x0 y0 x1 y1 : Int} :
    (x, y) ∈ linePoints P m x0 y0 x1 y1 ↔
      if y0 = y1 then y = y0 ∧ min x0 x1 ≤ x ∧ x ≤ max x0 x1
      else if x0 = x1 then x = x0 ∧ min y0 y1 ≤ y ∧ y ≤ max y0 y1
      else ∃ k : Nat, (∀ j < k, ¬ AtEnd x1 y1 (lineAt x0 y0 x1 y1 j)) ∧
        (lineAt x0 y0 x1 y1 k).1 = x ∧ (lineAt x0 y0 x1 y1 k).2.1 = y := by
  split
  · next hy => rw [linePoints, if_pos hy, mem_hspan]; simp only [hin, and_true]
  · next hy =>
    split
    · next hx => rw [linePoints, if_neg hy, if_pos hx, mem_vspan]; simp only [hin, and_true]
    · next hx => exact mem_linePoints P m hx hy

end Positions

/-- A distance from the centre, on either side of it (R161). -/
theorem abs_sub_eq_iff {a c d : Int} (hd : 0 ≤ d) : |a - c| = d ↔ a = c + d ∨ a = c - d := by
  rw [abs_eq hd]
  omega

/-- The eight reflections of one pair (R161). -/
theorem mem_circOctants {cx cy dx dy x y : Int} (hdx : 0 ≤ dx) (hdy : 0 ≤ dy) :
    (x, y) ∈ circOctants cx cy dx dy ↔
      (|x - cx| = dx ∧ |y - cy| = dy) ∨ (|x - cx| = dy ∧ |y - cy| = dx) := by
  simp only [abs_sub_eq_iff hdx, abs_sub_eq_iff hdy, circOctants, List.mem_append, List.mem_cons, List.not_mem_nil,
    Prod.mk.injEq, or_false]
  omega

/-- The outline of a circle (R161). -/
theorem mem_circPoints {cx cy r x y : Int} :
    (x, y) ∈ circPoints cx cy r ↔ ∃ dx dy, emitted r dx dy ∧
      ((|x - cx| = dx ∧ |y - cy| = dy) ∨ (|x - cx| = dy ∧ |y - cy| = dx)) := by
  simp only [circPoints, List.mem_flatMap, Prod.exists, mem_midpointPairs]
  refine exists_congr fun dx => exists_congr fun dy => and_congr_right fun he => ?_
  obtain ⟨hdy, hdx⟩ := nonneg_of_emitted he
  exact mem_circOctants hdx hdy

/-- A filled circle (R162). -/
theorem mem_circfillPoints {P : Params} {m : Mem} {cx cy r x y : Int} (hin : inClip P m x y = true) :
    (x, y) ∈ circfillPoints P m cx cy r ↔ ∃ dx dy, emitted r dx dy ∧
      ((|y - cy| = dy ∧ |x - cx| ≤ dx) ∨ (|y - cy| = dx ∧ |x - cx| ≤ dy)) := by
  simp only [circfillPoints, List.mem_flatMap, Prod.exists, mem_midpointPairs]
  refine exists_congr fun dx => exists_congr fun dy => and_congr_right fun he => ?_
  obtain ⟨hdy, hdx⟩ := nonneg_of_emitted he
  rw [mem_circSpans hin, abs_sub_eq_iff hdx, abs_sub_eq_iff hdy]

end Sys2Proof.Machine

namespace Sys2Proof.Proofs

open Sys2Proof.Machine Sys2Proof.Claims

/-- Settles O30: the list holds the one position. -/
theorem psetPlotsOnePosition : Obligations.PsetPlotsOnePosition := by
  intro ra f s h
  refine ⟨decode_colourWord (o := .pset) rfl rfl, ?_⟩
  rw [exec_pset h]
  exact plotAll_paints h _ _ fun x y _ => by rw [List.mem_singleton, Prod.mk.injEq]

/-- Settles O31, by the clip test on a pixel of the screen and off it. -/
theorem pgetReadsAPixel : Obligations.PgetReadsAPixel := by
  intro rd ra s
  obtain ⟨t, ht, hval, hframe⟩ := writeBack_regFrame rd
    (if inClip z8b s.mem (sx s ra 0) (sy s ra 1) then
      fx (getPix z8b s.mem (sx s ra 0).toNat (sy s ra 1).toNat).toNat else 0) s
  refine ⟨decode_encode_of_wf (i := .pget rd ra) rfl, t, ?_, hframe, fun x y hx hy => ?_, fun hoff => ?_⟩
  · rw [exec, execPget, pgetIn, screenX_z8b, screenY_z8b]
    exact ht
  · have hlt := (getPix z8b s.mem x.val y.val).isLt
    rw [hval, ← hx, ← hy, inClip_eq_clipped z8b_drawBase z8b_screenW z8b_screenH, apply_ite BitVec.toNat, Int.toNat_natCast,
      Int.toNat_natCast, toNat_fx, Nat.mod_eq_of_lt (by omega)]
    rfl
  · rw [hval, if_neg]
    intro hin
    have := inClip_onScreen hin
    rw [z8b_screenW, z8b_screenH] at this
    omega

/-- Settles O32, by the positions of a span and of the loop. -/
theorem linePlotsItsPositions : Obligations.LinePlotsItsPositions := by
  intro ra f s h
  refine ⟨decode_colourWord (o := .line) rfl rfl, ?_⟩
  rw [exec_line h]
  exact plotAll_paints h _ _ fun _ _ hin => mem_linePoints_iff hin

/-- Settles O34, by the positions of the border. -/
theorem rectPaintsTheBorder : Obligations.RectPaintsTheBorder := by
  intro ra f s h
  refine ⟨decode_colourWord (o := .rect) rfl rfl, ?_⟩
  rw [exec_rect h]
  exact plotAll_paints h _ _ fun _ _ hin => mem_rectPoints hin

/-- Settles O35, by the positions of the rows. -/
theorem rectfillPaintsTheRectangle : Obligations.RectfillPaintsTheRectangle := by
  intro ra f s h
  refine ⟨decode_colourWord (o := .rectfill) rfl rfl, ?_⟩
  rw [exec_rectfill h]
  exact plotAll_paints h _ _ fun _ _ hin => mem_rectfillPoints hin

/-- Settles O36, by the reflections of the emitted pairs. -/
theorem circPaintsTheOutline : Obligations.CircPaintsTheOutline := by
  intro ra f s h
  refine ⟨decode_colourWord (o := .circ) rfl rfl, ?_⟩
  rw [exec_circ h]
  exact plotAll_paints h _ _ fun _ _ _ => mem_circPoints

/-- Settles O37, by the spans of the emitted pairs. -/
theorem circfillPaintsTheDisc : Obligations.CircfillPaintsTheDisc := by
  intro ra f s h
  refine ⟨decode_colourWord (o := .circfill) rfl rfl, ?_⟩
  rw [exec_circfill h]
  exact plotAll_paints h _ _ fun _ _ hin => mem_circfillPoints hin

end Sys2Proof.Proofs
end

