-- ==== Sys2Proof/Proofs/Blits.lean ====
section
/-! PROOFS. The blitter (R180 to R187): which pixels a blit's list and a map's list hold, in the terms of the statements,
and from that what SSPR, SPR and MAP draw. -/

namespace Sys2Proof.Machine

open Sys2Proof.Claims

/-- A format-V word whose low half is reserved, as the statements put it together, is decoded to its command (R97,
R101). -/
theorem decode_noFlagWord {o : Op} {ra : Reg} {i : Instr} (henc : encode i = encodeV o ra ⟨false, false, false⟩)
    (hwf : i.wf = true) : decode (o.code ++ 0#4 ++ bits ra ++ 0#16) = .ok i := by
  have hzeros (p : BitVec 16) : (p ++ 0#16 : CmdWord) = p ++ 0#15 ++ BitVec.ofBool false :=
    (BitVec.append_assoc (x₁ := p) (x₂ := 0#15) (x₃ := BitVec.ofBool false)).symm
  rw [hzeros]
  exact decode_colourWord henc hwf

/-! What a list of pixels draws. -/

/-- A pixel of the screen after a list of pixels that gives it at most one colour: that colour, else as before (R152). -/
theorem pixel_drawPixels {m : Mem} (h : m.wf 0x8000 = true) {ps : List Pixel}
    (hps : ∀ p ∈ ps, OnScreen z8b p.x p.y) {x y : Fin 128} {o : Option Nibble}
    (ho : ∀ c, (⟨x.val, y.val, c⟩ : Pixel) ∈ ps ↔ o = some c) :
    pixel (drawPixels z8b m ps) x y = o.getD (pixel m x y) := by
  have hown (p : Pixel) (hp : p ∈ ps) (hxy : x.val = p.x ∧ y.val = p.y) : o = some p.c :=
    (ho p.c).1 (by rw [hxy.1, hxy.2]; exact hp)
  cases o with
  | none => exact getPix_drawPixels_of_not z8b_fits h hps x.isLt fun p hp hxy => nomatch hown p hp hxy
  | some c =>
    exact getPix_drawPixels_of_mem z8b_fits h hps ⟨_, (ho c).2 rfl, rfl, rfl⟩ fun p hp hxy =>
      (Option.some.inj (hown p hp hxy)).symm

/-- A BLIT COMMAND DRAWS THE COLOURS ITS LIST NAMES, and no other byte changes, PEN included (R152, R164). -/
theorem blitAll_draws {s : State} (h : s.mem.wf 0x8000 = true) {ps : List Pixel}
    (hps : ∀ p ∈ ps, OnScreen z8b p.x p.y) {colour : Fin 128 → Fin 128 → Option Nibble}
    (hcol : ∀ x y c, (⟨x.val, y.val, c⟩ : Pixel) ∈ ps ↔ colour x y = some c) :
    ∃ t, blitAll z8b ps s = .next t ∧ DrawFrame (draw s.mem 0x25) s t ∧
      ∀ x y, pixel t.mem x y = (colour x y).getD (pixel s.mem x y) := by
  refine ⟨_, blitAll_eq .., ⟨fun a ha => ?_, memFrame_setMem s _⟩, fun x y => pixel_drawPixels h hps (hcol x y)⟩
  rw [advance_mem, setMem_mem, byte_drawPixels_outside z8b_fits h hps (by simpa using ha)]
  split
  · next hpen => rw [hpen]
  · rfl

/-! The pipeline of the blits (R180 to R182). -/

/-- A sheet pixel as a number (R180). -/
theorem toNat_sheetPix_z8b (m : Mem) (u v : Int) : (sheetPix z8b m u v).toNat = sheetColour m u v := by
  simp [sheetPix, sheetColour, apply_ite BitVec.toNat, toNat_nibbleOf]

/-- `PlotSprite` of Z8B-1.0 writes `spriteColour` (R181). -/
theorem plotSprite_z8b (m : Mem) (x y : Fin 128) (col : Nibble) :
    plotSprite z8b m x.val y.val col = (spriteColour m x y col.toNat).map fun c => ⟨x.val, y.val, c⟩ := by
  rw [plotSprite, inClip_eq_clipped z8b_drawBase z8b_screenW z8b_screenH, transp, remap, extractLsb'_eq_ofNat,
    z8b_drawBase, spriteColour]
  cases clipped m x y with
  | false => rfl
  | true => cases (draw m col.toNat).getLsbD 4 <;> rfl

/-- The colour that a blit writes at a screen pixel, none where it writes nothing (R181, R182). -/
def blitColour (m : Mem) (b : BlitArgs) (x y : Fin 128) : Option Nibble :=
  let i := (x.val : Int) - (b.dx - cameraX m)
  let j := (y.val : Int) - (b.dy - cameraY m)
  if 0 < b.sw ∧ 0 < b.sh ∧ 0 ≤ i ∧ i < b.dw ∧ 0 ≤ j ∧ j < b.dh then
    spriteColour m x y (sheetColour m (b.sx + b.srcU i) (b.sy + b.srcV j))
  else none

/-- A blit's list holds a pixel exactly when its position lies in the destination rectangle and the pipeline writes it:
what the loops leave out (R269) lies outside the clip rectangle. -/
theorem mem_blit {P : Params} {m : Mem} {b : BlitArgs} {p : Pixel} :
    p ∈ blit P m b ↔
      let i := (p.x : Int) - (b.dx - camX P m)
      let j := (p.y : Int) - (b.dy - camY P m)
      (0 < b.sw ∧ 0 < b.sh ∧ 0 ≤ i ∧ i < b.dw ∧ 0 ≤ j ∧ j < b.dh) ∧ blitPixel P m b p.x p.y = some p := by
  unfold blit
  split
  · simp only [List.not_mem_nil, false_iff]
    omega
  · simp only [List.mem_flatMap, List.mem_filterMap, mem_intRange]
    constructor
    · rintro ⟨ys, hys, xs, hxs, hp⟩
      obtain ⟨-, rfl, rfl, -⟩ := plotSprite_some hp
      exact ⟨by omega, hp⟩
    · rintro ⟨hrect, hp⟩
      have hin := (plotSprite_some hp).1
      simp only [inClip, Bool.and_eq_true, decide_eq_true_eq] at hin
      exact ⟨p.y, by omega, p.x, by omega, hp⟩

/-- What a blit of Z8B-1.0 holds at a screen pixel (R182). -/
theorem mem_blit_z8b {m : Mem} {b : BlitArgs} {x y : Fin 128} {c : Nibble} :
    (⟨x.val, y.val, c⟩ : Pixel) ∈ blit z8b m b ↔ blitColour m b x y = some c := by
  rw [mem_blit, blitPixel, plotSprite_z8b, toNat_sheetPix_z8b, camX_z8b, camY_z8b, blitColour,
    Option.ite_none_right_eq_some]
  simp

/-- A blit command with one blit (R182). -/
theorem blitAll_blits {s : State} (h : s.mem.wf 0x8000 = true) (b : BlitArgs) :
    ∃ t, blitAll z8b (blit z8b s.mem b) s = .next t ∧ Blits s t b.sx b.sy b.sw b.sh b.dx b.dy b.dw b.dh b.fx b.fy := by
  obtain ⟨t, ht, hframe, hpix⟩ := blitAll_draws h onScreen_blit fun _ _ _ => mem_blit_z8b (b := b)
  refine ⟨t, ht, hframe, fun x y => (hpix x y).trans ?_⟩
  rw [blitColour, apply_ite (Option.getD · _)]
  rfl

/-! Sprites and map cells (R184 to R187). -/

/-- Sprite n of Z8B-1.0 as a blit (R184). -/
theorem spriteBlit_z8b (n dx dy pw ph : Int) (flipX flipY : Bool) :
    spriteBlit z8b n dx dy pw ph flipX flipY = ⟨n % 16 * 8, n / 16 * 8, pw, ph, dx, dy, pw, ph, flipX, flipY⟩ := by
  simp [spriteBlit, sheetCols, fdiv]

/-- The last sprite of Z8B-1.0 is number 255 (R184). -/
theorem lt_sheetSprites_z8b {n : Int} : n < sheetSprites z8b ↔ n ≤ 255 := by
  simp only [sheetSprites, sheetCols, z8b_sheetW, z8b_sheetH, z8b_spritePx]
  omega

/-- A size operand of SPR (R184). -/
theorem spriteSize_z8b (w : Word) : spriteSize z8b w = w.toInt * 8 / 65536 := by
  simp [spriteSize, fdiv, s32]

/-- A map address of Z8B-1.0 (R185). -/
theorem mapAddr_z8b (mx my : Int) :
    mapAddr z8b mx.toNat my.toNat =
      if my < 32 then 0x2000 + 128 * my.toNat + mx.toNat else 0x1000 + 128 * (my.toNat - 32) + mx.toNat := by
  simp only [mapAddr, mapLowRows, z8b_mapH, z8b_mapBase, z8b_mapW, z8b_map2Base]
  exact if_congr (by omega) rfl rfl

/-- The 8 x 8 sprite of a cell covers the pixels whose distance from the map's corner has the cell as its quotient by 8,
each at its remainder (R184, R186). -/
theorem blitColour_cell (m : Mem) (n X Y cx cy : Int) (x y : Fin 128) :
    blitColour m (spriteBlit z8b n (X + 8 * cx) (Y + 8 * cy) 8 8 false false) x y =
      let px := (x.val : Int) + cameraX m - X
      let py := (y.val : Int) + cameraY m - Y
      if px / 8 = cx ∧ py / 8 = cy then
        spriteColour m x y (sheetColour m (n % 16 * 8 + px % 8) (n / 16 * 8 + py % 8))
      else none := by
  have hsrc (i : Int) : i * 8 / 8 = i := Int.mul_ediv_cancel i (by decide)
  simp only [blitColour, spriteBlit_z8b, BlitArgs.srcU, BlitArgs.srcV, fdiv, hsrc, Bool.false_eq_true, if_false]
  by_cases hcell : ((x.val : Int) + cameraX m - X) / 8 = cx ∧ ((y.val : Int) + cameraY m - Y) / 8 = cy
  · rw [if_pos hcell, if_pos (by omega)]
    congr 3 <;> omega
  · rw [if_neg hcell, if_neg (by omega)]

/-- The colour that MAP writes at a screen pixel, none where it writes nothing (R186): `celx`, `cely`,
`X`, `Y`, `celw` and `celh` are its operands 0 to 5. -/
def mapColour (m : Mem) (celx cely X Y celw celh : Int) (layer : Byte) (x y : Fin 128) : Option Nibble :=
  let px := (x.val : Int) + cameraX m - X
  let py := (y.val : Int) + cameraY m - Y
  let mx := celx + px / 8
  let my := cely + py / 8
  let n := m.byte (if my < 32 then 0x2000 + 128 * my.toNat + mx.toNat else 0x1000 + 128 * (my.toNat - 32) + mx.toNat)
  if 0 ≤ px / 8 ∧ px / 8 < celw ∧ 0 ≤ py / 8 ∧ py / 8 < celh ∧
    0 ≤ mx ∧ mx < 128 ∧ 0 ≤ my ∧ my < 64 ∧ (layer = 0 ∨ m.byte (0x3000 + n.toNat) &&& layer ≠ 0) then
    spriteColour m x y (sheetColour m ((n.toNat : Int) % 16 * 8 + px % 8) ((n.toNat : Int) / 16 * 8 + py % 8))
  else none

/-- What one map cell's list holds at a screen pixel (R186). -/
theorem mem_mapCell {m : Mem} {layer : Byte} {mx my : Nat} {X Y cx cy : Int} {x y : Fin 128} {c : Nibble} :
    (⟨x.val, y.val, c⟩ : Pixel) ∈ mapCell z8b m layer mx my (X + 8 * cx) (Y + 8 * cy) ↔
      let px := (x.val : Int) + cameraX m - X
      let py := (y.val : Int) + cameraY m - Y
      let n := m.byte (mapAddr z8b mx my)
      (layer = 0 ∨ spriteFlags z8b m n &&& layer ≠ 0) ∧ (px / 8 = cx ∧ py / 8 = cy) ∧
        spriteColour m x y (sheetColour m ((n.toNat : Int) % 16 * 8 + px % 8) ((n.toNat : Int) / 16 * 8 + py % 8)) =
          some c := by
  rw [mapCell, List.mem_ite_nil_right, mem_blit_z8b, z8b_spritePx, Nat.cast_ofNat, blitColour_cell,
    Option.ite_none_right_eq_some]

/-- What MAP's list holds at a screen pixel: the one cell that covers it draws it, when the window and the map hold that
cell (R186, R269). -/
theorem mem_mapPixels {m : Mem} {celx cely X Y celw celh : Int} {layer : Byte} {x y : Fin 128} {c : Nibble} :
    (⟨x.val, y.val, c⟩ : Pixel) ∈ mapPixels z8b m celx cely X Y celw celh layer ↔
      mapColour m celx cely X Y celw celh layer x y = some c := by
  simp only [mapPixels, List.mem_flatMap, mem_intRange, z8b_spritePx, z8b_mapW, z8b_mapH, Nat.cast_ofNat, mem_mapCell,
    mapAddr_z8b, spriteFlags, z8b_flagsBase, mapColour, Option.ite_none_right_eq_some]
  constructor
  · rintro ⟨cy, hcy, cx, hcx, hlayer, ⟨rfl, rfl⟩, hc⟩
    refine ⟨⟨?_, ?_, ?_, ?_, ?_, ?_, ?_, ?_, hlayer⟩, hc⟩ <;> omega
  · rintro ⟨⟨_, _, _, _, _, _, _, _, hlayer⟩, hc⟩
    exact ⟨_, by omega, _, by omega, hlayer, ⟨rfl, rfl⟩, hc⟩

/-! The commands as lists of pixels. -/

section Lists

variable (ra : Reg) (f : VFlags) (s : State)

theorem exec_sspr : exec (.sspr ra f) s =
    blitAll z8b (blit z8b s.mem ⟨whole s ra 0, whole s ra 1, whole s ra 2, whole s ra 3, whole s ra 4, whole s ra 5,
      whole s ra 6, whole s ra 7, f.fx, f.fy⟩) s := by
  rw [exec, execSspr, ssprIn]
  simp only [vint_eq]

theorem exec_spr : exec (.spr ra f) s =
    let n := whole s ra 0
    let pw := (operand s ra 3).toInt * 8 / 65536
    let ph := (operand s ra 4).toInt * 8 / 65536
    blitAll z8b (if 0 ≤ n ∧ n ≤ 255 then
      blit z8b s.mem ⟨n % 16 * 8, n / 16 * 8, pw, ph, whole s ra 1, whole s ra 2, pw, ph, f.fx, f.fy⟩ else []) s := by
  rw [exec, execSpr, sprIn]
  simp only [vint_eq, vop_eq, spriteBlit_z8b, spriteSize_z8b, lt_sheetSprites_z8b]

theorem exec_map : exec (.map ra f) s =
    blitAll z8b (mapPixels z8b s.mem (whole s ra 0) (whole s ra 1) (whole s ra 2) (whole s ra 3) (whole s ra 4)
      (whole s ra 5) ((operand s ra 6).extractLsb' 16 8)) s := by
  rw [exec, execMap, mapIn, byteOf_word]
  simp only [vint_eq, vop_eq]

end Lists

end Sys2Proof.Machine

namespace Sys2Proof.Proofs

open Sys2Proof.Machine Sys2Proof.Claims

/-- Settles O40: SSPR is one blit. -/
theorem ssprBlits : Obligations.SsprBlits := by
  intro ra f s h
  refine ⟨decode_encode_of_wf (i := .sspr ra ⟨f.fy, f.fx, false⟩) rfl, ?_⟩
  rw [exec_sspr]
  exact blitAll_blits h _

/-- Settles O41: SPR is one blit of an unstretched sprite, or writes nothing. -/
theorem sprBlits : Obligations.SprBlits := by
  intro ra f s h
  refine ⟨decode_encode_of_wf (i := .spr ra ⟨f.fy, f.fx, false⟩) rfl, ?_⟩
  rw [exec_spr]
  by_cases hn : 0 ≤ whole s ra 0 ∧ whole s ra 0 ≤ 255
  · simp only [if_pos hn]
    exact blitAll_blits h _
  · simp only [if_neg hn]
    exact ⟨_, blitAll_eq .., fun _ => rfl, memFrame_setMem s _⟩

/-- Settles O42: a screen pixel belongs to one cell. -/
theorem mapDrawsItsCells : Obligations.MapDrawsItsCells := by
  intro ra f s h
  refine ⟨decode_noFlagWord (o := .map) rfl rfl, ?_⟩
  rw [exec_map]
  obtain ⟨t, ht, hframe, hpix⟩ := blitAll_draws h onScreen_mapPixels fun _ _ _ => mem_mapPixels
  refine ⟨t, ht, hframe, fun x y => (hpix x y).trans ?_⟩
  rw [mapColour, apply_ite (Option.getD · _)]
  rfl

end Sys2Proof.Proofs
end

