-- ==== Sys2Proof/Proofs/Oscillator.lean ====
section
/-! PROOFS. The numbers of a tick (R206 to R219): the waveforms, the output, the volume and the loop, each in the terms of
the statements. -/

namespace Sys2Proof.Machine

open Sys2Proof.Claims

/-! The waveforms: the statements' formula, id by id, in the model's functions. -/

section Formulas

variable (t p draw : Int)

theorem waveform_triangle : waveform 0 t p draw = waveTriangle t := by
  rw [waveTriangle, iabs_eq_abs]; rfl

theorem waveform_tiltedSaw : waveform 1 t p draw = waveTiltedSaw t := rfl
theorem waveform_saw : waveform 2 t p draw = waveSaw t := rfl
theorem waveform_square : waveform 3 t p draw = waveSquare t := rfl
theorem waveform_pulse : waveform 4 t p draw = wavePulse t := rfl

theorem waveform_organ : waveform 5 t p draw = waveOrgan t := by
  rw [waveOrgan, iabs_eq_abs, iabs_eq_abs]; rfl

theorem waveform_noise : waveform 6 t p draw = draw := rfl

theorem waveform_phaser : waveform 7 t p draw = wavePhaser t p := by
  rw [wavePhaser, iabs_eq_abs, iabs_eq_abs, iabs_eq_abs]; rfl

end Formulas

/-- WAVE is the formula of its rule, of t = P[15:0] and p = P[22:7] (R206 to R214). -/
theorem waveZ8b_eq_waveform (id : BitVec 3) (p : BitVec 32) (draw : Int) :
    waveZ8b id p draw = waveform id (p.toNat % 65536 : Nat) (p.toNat / 128 % 65536 : Nat) draw := by
  have ht : p.toNat % 65536 = (p.extractLsb' 0 16).toNat := by simp
  have hp : p.toNat / 128 % 65536 = (p.extractLsb' 7 16).toNat := by
    rw [BitVec.extractLsb'_toNat, Nat.shiftRight_eq_div_pow]
  rw [ht, hp]
  rcases waveId_cases id with rfl | rfl | rfl | rfl | rfl | rfl | rfl | rfl
  · rw [waveZ8b_triangle, waveform_triangle]
  · rw [waveZ8b_tiltedSaw, waveform_tiltedSaw]
  · rw [waveZ8b_saw, waveform_saw]
  · rw [waveZ8b_square, waveform_square]
  · rw [waveZ8b_pulse, waveform_pulse]
  · rw [waveZ8b_organ, waveform_organ]
  · rw [waveZ8b_noise, waveform_noise]
  · rw [waveZ8b_phaser, waveform_phaser]

/-- The formulas of ids 0 to 5 speak of t alone (R206). -/
theorem waveform_of_le_five {id : BitVec 3} (hid : id.toNat ≤ 5) (t p p' draw draw' : Int) :
    waveform id t p draw = waveform id t p' draw' := by
  rcases waveId_cases id with rfl | rfl | rfl | rfl | rfl | rfl | rfl | rfl
  · rw [waveform_triangle, waveform_triangle]
  · rw [waveform_tiltedSaw, waveform_tiltedSaw]
  · rw [waveform_saw, waveform_saw]
  · rw [waveform_square, waveform_square]
  · rw [waveform_pulse, waveform_pulse]
  · rw [waveform_organ, waveform_organ]
  · exact absurd hid (by decide)
  · exact absurd hid (by decide)

/-- No sample is larger than 43691 in magnitude, a value that the phaser takes (R206). -/
theorem abs_waveform_le (id : BitVec 3) {t draw : Int} (ht : 0 ≤ t) (ht' : t < 65536) (p : Int) (hd : -32768 ≤ draw)
    (hd' : draw ≤ 32767) : |waveform id t p draw| ≤ 43691 := by
  rw [abs_le]
  rcases waveId_cases id with rfl | rfl | rfl | rfl | rfl | rfl | rfl | rfl
  · rw [waveform_triangle, waveTriangle, iabs, fdiv]; omega
  · rw [waveform_tiltedSaw, waveTiltedSaw, fdiv]; split <;> omega
  · rw [waveform_saw, waveSaw, asr, fdiv]; split <;> omega
  · rw [waveform_square, waveSquare]; split <;> omega
  · rw [waveform_pulse, wavePulse]; split <;> omega
  · rw [waveform_organ, waveOrgan, iabs, iabs, fdiv]; split <;> omega
  · rw [waveform_noise]; omega
  · rw [waveform_phaser]
    simp only [wavePhaser, iabs, fdiv]
    omega

/-! The output, the volume and the loop. -/

/-- The output, written without the saturation and the shift of R9 (R217). -/
theorem outSample_eq (sm v : Int) : outSample 65536 sm v = max (-32768) (min 32767 (sm * v / 65536 / 2)) := rfl

/-- A product with a volume of at most 1.0 is no larger than the sample (R216, R217). -/
theorem abs_mul_volume_le {sm v : Int} (hv : 0 ≤ v) (hv' : v ≤ 65536) (hsm : |sm| ≤ 43691) : |sm * v| ≤ 43691 * 65536 := by
  rw [abs_mul, abs_of_nonneg hv]
  exact mul_le_mul hsm hv' hv (by decide)

/-- A step of the volume leaves the distance to the target, less SLEW (R216). -/
theorem abs_target_sub_slewedVolume {P : Params} (hP : 0 ≤ P.slew) (prev target : Int) :
    |target - slewedVolume P prev target| = max 0 (|target - prev| - P.slew) := by
  rw [← iabs_eq_abs, ← iabs_eq_abs]
  unfold slewedVolume clamp iabs
  omega

/-- After k steps the distance is less by k times SLEW (R216). -/
theorem abs_target_sub_iterate_slewedVolume {P : Params} (hP : 0 ≤ P.slew) (target prev : Int) (k : Nat) :
    |target - (fun u => slewedVolume P u target)^[k] prev| = max 0 (|target - prev| - k * P.slew) := by
  induction k with
  | zero => simp
  | succ k ih =>
    have hk : 0 ≤ k * P.slew := by positivity
    have hsucc : ((k + 1 : Nat) : Int) * P.slew = k * P.slew + P.slew := by push_cast; ring
    rw [Function.iterate_succ_apply', abs_target_sub_slewedVolume hP, ih, hsucc]
    omega

/-- A step of the volume is at most SLEW (R216). -/
theorem abs_slewedVolume_sub_le {P : Params} (hP : 0 ≤ P.slew) (prev target : Int) :
    |slewedVolume P prev target - prev| ≤ P.slew := by
  rw [abs_le]
  unfold slewedVolume clamp
  omega

/-- The wrap acts where a range exists, the channel loops and the end is reached (R219). -/
theorem loopWrap_of_wraps {one ls le nxt : Nat} (h : ls < le) (he : le * one ≤ nxt) :
    loopWrap one true ls le nxt = ls * one + (nxt - ls * one) % ((le - ls) * one) := if_pos ⟨h, rfl, he⟩

/-- Anywhere else it does nothing (R219). -/
theorem loopWrap_of_not {one ls le nxt : Nat} {canLoop : Bool} (h : canLoop = false ∨ le ≤ ls ∨ nxt < le * one) :
    loopWrap one canLoop ls le nxt = nxt := by
  refine if_neg ?_
  rintro ⟨hls, hc, hle⟩
  rcases h with h | h | h
  · rw [hc] at h; cases h
  · omega
  · omega

/-- A looping channel's offset stays before the end of its loop range (R219). -/
theorem loopWrap_lt {one ls le : Nat} (h1 : 0 < one) (h : ls < le) (nxt : Nat) : loopWrap one true ls le nxt < le * one := by
  by_cases he : nxt < le * one
  · rwa [loopWrap_of_not (.inr (.inr he))]
  · rw [loopWrap_of_wraps h (by omega)]
    have hmod := Nat.mod_lt (nxt - ls * one) (Nat.mul_pos (Nat.sub_pos_of_lt h) h1)
    have hsum : ls * one + (le - ls) * one = le * one := by rw [← Nat.add_mul, Nat.add_sub_cancel' h.le]
    omega

/-- The wrap moves an offset by whole loop ranges (R219). -/
theorem loopWrap_modEq {one ls le nxt : Nat} (h : ls < le) (he : le * one ≤ nxt) :
    loopWrap one true ls le nxt ≡ nxt [MOD (le - ls) * one] := by
  have hls : ls * one ≤ nxt := le_trans (Nat.mul_le_mul_right one h.le) he
  have hmod : (nxt - ls * one) % ((le - ls) * one) ≡ nxt - ls * one [MOD (le - ls) * one] := Nat.mod_modEq _ _
  have hsum := hmod.add_left (ls * one)
  rwa [Nat.add_sub_cancel' hls, ← loopWrap_of_wraps h he] at hsum

end Sys2Proof.Machine

namespace Sys2Proof.Proofs

open Sys2Proof.Machine Sys2Proof.Claims

/-- Settles O47, from `waveZ8b_eq_waveform`: the rest reads off the formulas. -/
theorem waveformContract : Obligations.WaveformContract := by
  refine ⟨waveZ8b_eq_waveform, ?_, ?_, waveZ8b_noise, ?_, ?_⟩
  · intro id p draw hd hd'
    rw [waveZ8b_eq_waveform]
    exact abs_waveform_le id (by omega) (by omega) _ hd hd'
  · intro id p p' draw draw' hid ht
    rw [waveZ8b_eq_waveform, waveZ8b_eq_waveform, ht]
    exact waveform_of_le_five hid ..
  · intro p p' draw draw' h
    have ht : p.toNat % 65536 = p'.toNat % 65536 := by omega
    have hp : p.toNat / 128 % 65536 = p'.toNat / 128 % 65536 := by omega
    rw [waveZ8b_eq_waveform, waveZ8b_eq_waveform, ht, hp, waveform_phaser, waveform_phaser]
  · intro draw
    rw [waveZ8b_phaser, waveZ8b_phaser]
    decide

/-- Settles O48, from the bound on the product. -/
theorem outputNeverSaturates : Obligations.OutputNeverSaturates := by
  intro sm v hsm hv hv'
  obtain ⟨hlo, hhi⟩ := abs_le.1 (abs_mul_volume_le hv hv' hsm)
  have heq : outSample 65536 sm v = sm * v / 65536 / 2 := by rw [outSample_eq]; omega
  rw [heq, abs_le]
  omega

/-- Settles O49, from the distance that one step and k steps leave. -/
theorem volumeSlewsTowardTarget : Obligations.VolumeSlewsTowardTarget := by
  intro prev vol h0 h1 target v
  have hslew : 0 ≤ z8b.slew := z8b_fits.slew
  obtain ⟨ht0, ht1⟩ : 0 ≤ target ∧ target ≤ 0x10000 := voltabZ8b_range vol
  obtain ⟨hv0, hv1⟩ : 0 ≤ v ∧ v ≤ 0x10000 := slewedVolume_range hslew h0 h1 ht0 ht1
  refine ⟨rfl, abs_slewedVolume_sub_le hslew prev target, hv0, hv1, abs_target_sub_slewedVolume hslew prev target, ?_⟩
  have hfar : |target - prev| ≤ 0x10000 := by rw [abs_le]; omega
  have harrived := abs_target_sub_iterate_slewedVolume hslew target prev 64
  rw [z8b_slew, max_eq_left (by omega), abs_eq_zero, sub_eq_zero] at harrived
  exact harrived.symm

/-- Settles O51, from what the wrap is where it acts and where it does not. -/
theorem loopWrapsIntoRange : Obligations.LoopWrapsIntoRange := by
  intro ls le nxt
  refine ⟨fun h he => ⟨?_, loopWrap_lt (by decide) h nxt, ?_⟩, fun h => loopWrap_of_not (.inr (.inr h)),
    fun h => loopWrap_of_not (.inr (.inl h)), loopWrap_of_not (.inl rfl)⟩
  · rw [loopWrap_of_wraps h he]; exact Nat.le_add_right ..
  · exact Int.natCast_modEq_iff.2 (loopWrap_modEq h he)

end Sys2Proof.Proofs
end

