-- ==== Sys2Proof/Proofs/ChannelCommand.lean ====
section
/-! PROOFS. The command SFX (R203): what each class of its arguments makes of a channel, in a block with any parameters. -/

namespace Sys2Proof.Machine

open Sys2Proof.Claims

variable {nc nr xl : Nat}

/-! SFX on one channel, argument class by argument class. -/

theorem sfxChannel_stop (P : Params) (off : Int) (c : Channel xl) : sfxChannel P (-1) off c = ⟨none, 0, 0, true, 24, 0⟩ := rfl

theorem sfxChannel_release (P : Params) (off : Int) (c : Channel xl) :
    sfxChannel P (-2) off c = if c.sfx = none then c else { c with canLoop := false } := by
  rcases h : c.sfx with _ | m <;> simp [sfxChannel, h]

theorem sfxChannel_start {P : Params} {m : Nat} {off : Int} (hm : m < P.nSfx) (h0 : 0 ≤ off) (h1 : off < P.nNote)
    (c : Channel xl) : sfxChannel P m off c = ⟨some m, BitVec.ofInt xl (off * fixOne xl), 0, true, 24, 0⟩ := by
  obtain ⟨o, rfl⟩ := Int.eq_ofNat_of_zero_le h0
  rw [sfxChannel, if_neg (by omega), if_neg (by omega), if_pos (by omega), ← Nat.cast_mul, BitVec.ofInt_natCast]
  rfl

theorem sfxChannel_other {P : Params} {n off : Int}
    (h : n < -2 ∨ P.nSfx ≤ n ∨ (0 ≤ n ∧ (off < 0 ∨ P.nNote ≤ off))) (c : Channel xl) : sfxChannel P n off c = c := by
  rw [sfxChannel, if_neg (by omega), if_neg (by omega), if_neg (by omega)]

/-- SFX acts on the channel its second operand names (R203). -/
theorem sfxIn_acts (P : Params) (ra : Reg) (s : State nc nr xl) :
    ∃ t, sfxIn P ra s = .next t ∧ SfxActs (fixOne xl) P.nSfx P.nNote (s.vint ra 0) (s.vint ra 1) (s.vint ra 2) s t := by
  refine ⟨_, retire_eq _, by simp, by simp, by simp, by simp [KeepsControl], fun k hk => ?_, fun k hk => ?_⟩
  · rw [advance_ch, ch_modifyCh, if_neg hk]
  · rw [advance_ch, ch_modifyCh, if_pos hk]
    refine ⟨fun hn => ?_, fun hn => ?_, fun m hm hlt h0 h1 => ?_, fun hn => sfxChannel_other hn _⟩
    · rw [hn, sfxChannel_stop]
    · rw [hn, sfxChannel_release]
    · rw [← hm, sfxChannel_start hlt h0 h1]

end Sys2Proof.Machine

namespace Sys2Proof.Proofs

open Sys2Proof.Machine Sys2Proof.Claims

/-- Settles O44, from `sfxIn_acts`, with the operands as the statement spells them. -/
theorem sfxStartsStopsReleases : Obligations.SfxStartsStopsReleases := by
  intro ra f
  refine ⟨decode_noFlagWord (o := .sfx) rfl rfl, fun s => ?_, fun P nc nr xl s hnr => ?_⟩
  · have h := sfxIn_acts z8b ra s
    simp only [vint_eq] at h
    exact h
  · have h := sfxIn_acts P ra s
    simp only [vint_eq_ediv s hnr] at h
    exact h

end Sys2Proof.Proofs
end

