-- ==== Sys2Proof/Proofs/ChannelTicks.lean ====
section
/-! PROOFS. The tick of AUD(ch) (R204): its procedure in the terms of the statements, whom it reaches, and how a channel
fares over its own ticks (R221). -/

namespace Sys2Proof.Machine

open Sys2Proof.Claims

variable {nc nr xl : Nat} {P : Params}

/-! A note as the two bytes of its word, the low one first (R62, R201, R202). -/

/-- The note word of a note index of sound effect n, as the statements put it together from its bytes. -/
def noteWord (m : Mem) (n k : Nat) : Nat :=
  (m.byte (0x3200 + 68 * n + 2 * k)).toNat + 256 * (m.byte (0x3200 + 68 * n + (2 * k + 1))).toNat

theorem noteAt_z8b (m : Mem) (n k : Nat) : noteAt z8b m n k = Note.ofWord (BitVec.ofNat 16 (noteWord m n k)) := by
  have hlow := (m.byte (0x3200 + 68 * n + 2 * k)).isLt
  have hhigh := (m.byte (0x3200 + 68 * n + (2 * k + 1))).isLt
  have hword : m.half (0x3200 + 68 * n + 2 * k) = BitVec.ofNat 16 (noteWord m n k) := by
    apply BitVec.eq_of_toNat_eq
    rw [Mem.half, BitVec.toNat_append, ← Nat.shiftLeft_add_eq_or_of_lt hlow, Nat.shiftLeft_eq, BitVec.toNat_ofNat, noteWord,
      ← Nat.add_assoc]
    omega
  exact congrArg Note.ofWord hword

/-- A field of a word, given the word as a number (R91, R202). -/
theorem extractLsb'_ofNat_of_le {l i len : Nat} (h : i + len ≤ l) (w : Nat) :
    (BitVec.ofNat l w).extractLsb' i len = BitVec.ofNat len (w / 2 ^ i) := by
  refine BitVec.eq_of_getLsbD_eq fun j hj => ?_
  have hlt : i + j < l := by omega
  rw [BitVec.getLsbD_extractLsb', BitVec.getLsbD_ofNat, BitVec.getLsbD_ofNat, Nat.testBit_div_two_pow]
  simp [hj, hlt, Nat.add_comm]

section Fields

variable (m : Mem) (n k : Nat)

theorem key_noteAt : (noteAt z8b m n k).key = BitVec.ofNat 6 (noteWord m n k % 64) := by
  have hmod : BitVec.ofNat 6 (noteWord m n k % 64) = BitVec.ofNat 6 (noteWord m n k / 2 ^ 0) := by
    apply BitVec.eq_of_toNat_eq; simp
  rw [noteAt_z8b, hmod]; exact extractLsb'_ofNat_of_le (i := 0) (by decide) _

theorem wave_noteAt : (noteAt z8b m n k).wave = BitVec.ofNat 3 (noteWord m n k / 64) := by
  rw [noteAt_z8b]; exact extractLsb'_ofNat_of_le (i := 6) (by decide) _

theorem vol_noteAt : (noteAt z8b m n k).vol = BitVec.ofNat 3 (noteWord m n k / 512) := by
  rw [noteAt_z8b]; exact extractLsb'_ofNat_of_le (i := 9) (by decide) _

end Fields

/-- The pitch table of the statements is the model's (R215). -/
theorem phaseStepZ8b_ofNat (key : Nat) : phaseStepZ8b (BitVec.ofNat 6 (key % 64)) = pitchTable.getD (key % 64) 0 := by
  rw [phaseStepZ8b, BitVec.toNat_ofNat, Nat.mod_mod]; rfl

/-! What a tick makes of a playing channel. -/

/-- The volume of a tick, its target read off the note (R204 step 3, R216). -/
theorem tickVolume_z8b (m : Mem) (n : Nat) (c : Channel) :
    tickVolume z8b m n c = c.prevVol.toInt + max (-0x400) (min 0x400
      ((noteWord m n (c.offset.toNat / 65536) / 512 % 8 : Nat) * 65536 / 7 - c.prevVol.toInt)) := by
  rw [← noteIndex_eq_div, ← BitVec.toNat_ofNat _ 3, ← vol_noteAt]; rfl

/-- The advanced offset of a tick, after the loop rule (R204 step 4, R218, R219). -/
theorem nextOffset_z8b (m : Mem) (n : Nat) (c : Channel) :
    let adv := c.offset.toNat + 65536 / (183 * sfxSpeed z8b m n)
    nextOffset z8b m n c =
      if loopStart z8b m n < loopEnd z8b m n ∧ c.canLoop = true ∧ loopEnd z8b m n * 65536 ≤ adv then
        loopStart z8b m n * 65536 + (adv - loopStart z8b m n * 65536) % ((loopEnd z8b m n - loopStart z8b m n) * 65536)
      else adv := by
  rw [nextOffset, loopWrap, fixOne_word, z8b_ostep, ostepZ8b]

/-- The sample of a tick, for whatever draw (R204 steps 2 and 3, R217). -/
theorem tickSample_z8b (m : Mem) (n : Nat) (draw : Int) (c : Channel) :
    tickSample z8b m n draw c = max (-32768) (min 32767
      (waveform (BitVec.ofNat 3 (noteWord m n (c.offset.toNat / 65536) / 64)) (c.phase.toNat % 65536 : Nat)
        (c.phase.toNat / 128 % 65536 : Nat) draw * tickVolume z8b m n c / 65536 / 2)) := by
  rw [tickSample, fixOne_word, outSample_eq, z8b_wave, waveZ8b_eq_waveform, wave_noteAt, noteIndex_eq_div]

/-- The event carries the sample itself, which the saturation keeps in 16 bits (R39, R217). -/
theorem toInt_tickSample (m : Mem) (n : Nat) (draw : Int) (c : Channel) :
    (BitVec.ofInt 16 (tickSample z8b m n draw c)).toInt = tickSample z8b m n draw c := by
  apply BitVec.toInt_ofInt_eq_self (by decide)
  all_goals rw [tickSample_z8b]; omega

/-- A tick that reaches NNOTE notes stops the channel (R204 step 4, R220). -/
theorem tickChannel_of_end {m : Mem} {n : Nat} {c : Channel xl} (h : P.nNote * fixOne xl ≤ nextOffset P m n c) :
    tickChannel P m n c = Channel.stopped := if_pos h

/-- A tick that does not moves it on (R204 steps 3 and 4). -/
theorem tickChannel_of_lt {m : Mem} {n : Nat} {c : Channel xl} (h : nextOffset P m n c < P.nNote * fixOne xl) :
    tickChannel P m n c =
      { c with
        offset := BitVec.ofNat xl (nextOffset P m n c)
        phase := c.phase + BitVec.ofNat 32 (P.phaseStep (noteAt P m n c.noteIndex).key)
        prevKey := if nextOffset P m n c / fixOne xl ≠ c.noteIndex then (noteAt P m n c.noteIndex).key else c.prevKey
        prevVol := BitVec.ofInt xl (tickVolume P m n c) } := if_neg (Nat.not_le.2 h)

/-- A playing channel after its tick, as the statement of the procedure writes it (R204). -/
theorem tickChannel_z8b (m : Mem) {n : Nat} {c : Channel} (hn : c.sfx = some n) :
    let key := noteWord m n (c.offset.toNat / 65536) % 64
    let nxt := nextOffset z8b m n c
    tickChannel z8b m n c =
      if 32 * 65536 ≤ nxt then ⟨none, 0, 0, true, 24, 0⟩
      else
        { sfx := some n, offset := BitVec.ofNat 32 nxt
          phase := BitVec.ofNat 32 (c.phase.toNat + pitchTable.getD key 0), canLoop := c.canLoop
          prevKey := if nxt / 65536 ≠ c.offset.toNat / 65536 then BitVec.ofNat 6 key else c.prevKey
          prevVol := BitVec.ofInt 32 (tickVolume z8b m n c) } := by
  intro key nxt
  have hphase : BitVec.ofNat 32 (c.phase.toNat + pitchTable.getD key 0) =
      c.phase + BitVec.ofNat 32 (phaseStepZ8b (BitVec.ofNat 6 key)) := by
    rw [phaseStepZ8b_ofNat, BitVec.ofNat_add, BitVec.ofNat_toNat, BitVec.setWidth_eq]
  split
  · next h => exact tickChannel_of_end h
  · next h =>
    rw [tickChannel_of_lt (Nat.lt_of_not_le h), hphase, key_noteAt, noteIndex_eq_div, hn]
    rfl

/-! What a playing channel's tick leaves in the fields that it writes (R204). -/

@[simp] theorem tickPlaying_ch (P : Params) (ch : Fin nc) (n : Nat) (s : State nc nr xl) :
    (tickPlaying P ch n s).ch = (s.setCh ch (tickChannel P s.mem n (s.ch.get ch))).ch := rfl

@[simp] theorem tickPlaying_out (P : Params) (ch : Fin nc) (n : Nat) (s : State nc nr xl) :
    (tickPlaying P ch n s).out =
      ⟨ch, BitVec.ofInt 16 (tickSample P s.mem n (Config.noiseDraw s.noiseCount).toInt (s.ch.get ch))⟩ :: s.out := rfl

@[simp] theorem tickPlaying_noiseCount (P : Params) (ch : Fin nc) (n : Nat) (s : State nc nr xl) :
    (tickPlaying P ch n s).noiseCount = if drawsNoise P s.mem n (s.ch.get ch) then s.noiseCount + 1 else s.noiseCount := rfl

/-- A playing channel's tick, for the channel itself (R204). -/
theorem ch_tickIn_playing {s : State nc nr xl} {ch : Fin nc} {n : Nat} (h : (s.ch.get ch).sfx = some n) :
    (tickIn P ch s).ch.get ch = tickChannel P s.mem n (s.ch.get ch) := by
  rw [tickIn_playing P h, tickPlaying_ch, ch_setCh_self]

/-- What a tick keeps of the block (R204, R267). -/
theorem sameBlock_tick (ch : Fin nc) (s : State nc nr xl) : SameBlock s (tick ch s) := by simp [SameBlock]

/-! The conditions of a channel (R221). -/

theorem condition_silent_iff {c : Channel xl} : c.condition = .silent ↔ c.sfx = none := by
  unfold Channel.condition; split_ifs <;> simp [*]

theorem condition_playing_iff {c : Channel xl} : c.condition = .playing ↔ c.sfx ≠ none ∧ c.canLoop = true := by
  unfold Channel.condition; split_ifs <;> simp [*]

theorem condition_released_iff {c : Channel xl} : c.condition = .released ↔ c.sfx ≠ none ∧ c.canLoop = false := by
  unfold Channel.condition; split_ifs <;> simp [*]

/-! A channel on which the loop rule never acts. -/

/-- The loop rule never acts on a channel playing sound effect n (R219, R221): it is released, or there is no loop range,
or the range ends past the last note. -/
def Channel.Unlooped (m : Mem) (n : Nat) (c : Channel) : Prop :=
  c.canLoop = false ∨ loopEnd z8b m n ≤ loopStart z8b m n ∨ 32 < loopEnd z8b m n

/-- A playing channel's offset is below 32 notes (R38). -/
theorem offset_lt_of_ok {c : Channel} {n : Nat} (hn : c.sfx = some n) (h : c.ok z8b = true) : c.offset.toNat < 32 * 65536 := by
  have hnote := ((ok_of_sfx hn).1 h).2.1
  rw [noteIndex_eq_div, z8b_nNote] at hnote
  omega

/-- Without the loop rule the offset goes up by OSTEP alone, which is too short to pass a range's end after the last
note (R218, R219). -/
theorem nextOffset_of_unlooped {m : Mem} {n : Nat} {c : Channel} (hc : c.Unlooped m n) (h : c.offset.toNat < 32 * 65536) :
    nextOffset z8b m n c = c.offset.toNat + ostepZ8b (noteAt z8b m n c.noteIndex).key (sfxSpeed z8b m n) := by
  have hle : ostepZ8b (noteAt z8b m n c.noteIndex).key (sfxSpeed z8b m n) ≤ 65536 := Nat.div_le_self ..
  refine loopWrap_of_not (hc.imp_right (Or.imp_right fun hend => ?_))
  rw [fixOne_word, z8b_ostep]
  omega

/-- An unlooped channel's offset goes up by at least 1 (R218). -/
theorem offset_lt_nextOffset {m : Mem} {n : Nat} {c : Channel} (hc : c.Unlooped m n) (h : c.offset.toNat < 32 * 65536) :
    c.offset.toNat < nextOffset z8b m n c := by
  obtain ⟨hspd, hspd'⟩ := sfxSpeed_range z8b m n
  rw [nextOffset_of_unlooped hc h]
  exact Nat.lt_add_of_pos_right (ostepZ8b_pos _ hspd hspd')

/-- A tick from which an unlooped channel plays on leaves it unlooped, with a larger offset (R204, R221). -/
theorem tickChannel_unlooped {m : Mem} {n : Nat} {c : Channel} (hc : c.Unlooped m n) (hoff : c.offset.toNat < 32 * 65536)
    (hend : nextOffset z8b m n c < 32 * 65536) :
    (tickChannel z8b m n c).sfx = c.sfx ∧ (tickChannel z8b m n c).Unlooped m n ∧
      c.offset.toNat < (tickChannel z8b m n c).offset.toNat := by
  have hlt := offset_lt_nextOffset hc hoff
  rw [tickChannel_of_lt hend]
  refine ⟨rfl, hc, ?_⟩
  show _ < (BitVec.ofNat 32 _).toNat
  rw [BitVec.toNat_ofNat, Nat.mod_eq_of_lt (by omega)]
  exact hlt

/-- An unlooped channel with fewer than k offsets left to 32 notes falls silent within k of its ticks (R221). -/
theorem silent_within (ch : Chan) (n k : Nat) : ∀ s : State, s.Inv → (s.ch.get ch).sfx = some n →
    (s.ch.get ch).Unlooped s.mem n → 32 * 65536 ≤ (s.ch.get ch).offset.toNat + k →
    ∃ j, j ≤ k ∧ (((tick ch)^[j] s).ch.get ch).condition = .silent := by
  induction k with
  | zero =>
    intro s hs hn _ hk
    have hoff := offset_lt_of_ok hn (hs.2 ch)
    omega
  | succ k ih =>
    intro s hs hn hc hk
    have hoff := offset_lt_of_ok hn (hs.2 ch)
    have htick : (tick ch s).ch.get ch = tickChannel z8b s.mem n (s.ch.get ch) := ch_tickIn_playing hn
    by_cases hend : nextOffset z8b s.mem n (s.ch.get ch) < 32 * 65536
    · obtain ⟨hsfx, hc', hgrows⟩ := tickChannel_unlooped hc hoff hend
      rw [← htick] at hsfx hc' hgrows
      have hs' : (tick ch s).Inv := tickIn_inv z8b_fits ch hs
      obtain ⟨j, hj, hsilent⟩ := ih (tick ch s) hs' (hsfx.trans hn) (by rwa [tick_mem]) (by omega)
      exact ⟨j + 1, by omega, hsilent⟩
    · refine ⟨1, by omega, condition_silent_iff.2 ?_⟩
      rw [Function.iterate_one, htick, tickChannel_of_end (Nat.le_of_not_lt hend)]
      rfl

/-! A channel that loops. -/

/-- A looping channel's offset stays before the end of its loop range (R219, R221). -/
theorem nextOffset_lt_of_loops {m : Mem} {n : Nat} {c : Channel xl} (hc : c.canLoop = true)
    (h : loopStart P m n < loopEnd P m n) : nextOffset P m n c < loopEnd P m n * fixOne xl := by
  rw [nextOffset, hc]; exact loopWrap_lt (fixOne_pos xl) h _

/-- A channel that loops within NNOTE notes still plays its sound effect and loops after any number of its ticks (R221). -/
theorem iterate_tickIn_loops {s : State nc nr xl} {ch : Fin nc} {n : Nat} (hn : (s.ch.get ch).sfx = some n)
    (hc : (s.ch.get ch).canLoop = true) (h : loopStart P s.mem n < loopEnd P s.mem n) (hle : loopEnd P s.mem n ≤ P.nNote)
    (k : Nat) :
    let t := (tickIn P ch)^[k] s
    t.mem = s.mem ∧ (t.ch.get ch).sfx = some n ∧ (t.ch.get ch).canLoop = true := by
  induction k with
  | zero => exact ⟨rfl, hn, hc⟩
  | succ k ih =>
    obtain ⟨hmem, hsfx, hloop⟩ := ih
    have hlt := (nextOffset_lt_of_loops hloop h).trans_le (Nat.mul_le_mul_right (fixOne xl) hle)
    rw [← hmem] at hlt
    intro t
    have ht : t = tickIn P ch ((tickIn P ch)^[k] s) := Function.iterate_succ_apply' ..
    rw [ht, ch_tickIn_playing hsfx, tickChannel_of_lt hlt]
    exact ⟨(tickIn_mem P ch _).trans hmem, hsfx, hloop⟩

end Sys2Proof.Machine

namespace Sys2Proof.Proofs

open Sys2Proof.Machine Sys2Proof.Claims

/-- Settles O45: the silent channel's case, then the procedure on the note that the bytes give. -/
theorem tickFollowsTheProcedure : Obligations.TickFollowsTheProcedure := by
  intro s ch _ c t
  refine ⟨fun j hj => tick_ch_of_ne hj s, sameBlock_tick ch s, tick_cmd ch s, tick_sched ch s, fun hn => ?_, fun n hn => ?_⟩
  · rw [show t = s.emit ch 0 from tick_silent hn]
    exact ⟨rfl, rfl, rfl⟩
  · intro byte spd ls le k w key v adv nxt
    have hv : tickVolume z8b s.mem n c = v := tickVolume_z8b s.mem n c
    have hnxt : nextOffset z8b s.mem n c = nxt := nextOffset_z8b s.mem n c
    have ht : t = tickPlaying z8b ch n s := tick_playing hn
    constructor
    · let draw := (Config.noiseDraw s.noiseCount).toInt
      refine ⟨draw, BitVec.le_toInt _, Int.le_of_lt_add_one BitVec.toInt_lt,
        ⟨ch, BitVec.ofInt 16 (tickSample z8b s.mem n draw c)⟩, by rw [ht, tickPlaying_out], rfl, ?_⟩
      rw [toInt_tickSample, tickSample_z8b, hv]
      rfl
    · rw [show t.ch.get ch = tickChannel z8b s.mem n c from ch_tickIn_playing hn, tickChannel_z8b s.mem hn, hnxt, hv]
      rfl

/-- Settles O46: the turn is taken off the schedule and the tick answered. -/
theorem audioTurnIsATick : Obligations.AudioTurnIsATick :=
  ⟨fun s ch rest h => by rw [step, takeTurn_cons h]; rfl, fun P s ch rest h => by rw [stepIn, takeTurn_cons h]; rfl⟩

/-- Settles O50: only the sample and the count of a playing channel's tick read the count. -/
theorem noiseReachesOnlyTheSample : Obligations.NoiseReachesOnlyTheSample := by
  intro s s' ch h
  obtain ⟨count, rfl⟩ : ∃ count, s' = { s with noiseCount := count } := ⟨_, h⟩
  cases hn : (s.ch.get ch).sfx with
  | none => simp [SameBlock, tick_silent, hn]
  | some n =>
    refine ⟨by simp [SameBlock], ?_, by simp, by simp, ?_, ?_⟩
    · simp [tick_playing, hn]
    · simp [tick_playing, hn]
    · rw [tick_playing hn, tick_playing (s := { s with noiseCount := count }) hn]
      simp only [tickPlaying_noiseCount]
      split <;> omega

/-- Settles O52, from `silent_within`, an offset being at most 32 * 65536 short of the end. -/
theorem unloopedChannelFallsSilent : Obligations.UnloopedChannelFallsSilent := by
  intro s ch n hs hn h
  have hc : (s.ch.get ch).Unlooped s.mem n := h.imp_left fun hr => (condition_released_iff.1 hr).2
  exact silent_within ch n (32 * 65536) s hs hn hc (Nat.le_add_left ..)

/-- Settles O53, from `iterate_tickIn_loops`. -/
theorem loopingChannelPlaysOn : Obligations.LoopingChannelPlaysOn := by
  intro s ch n _ hplays hn h hle k
  obtain ⟨-, hsfx, hloop⟩ := iterate_tickIn_loops (P := z8b) hn (condition_playing_iff.1 hplays).2 h hle k
  exact condition_playing_iff.2 ⟨ne_of_eq_of_ne hsfx (Option.some_ne_none n), hloop⟩

end Sys2Proof.Proofs
end

