-- ==== Sys2Proof/Proofs/SequencerStep.lean ====
section
/-! PROOFS. The step of SEQ at its turn (R232): when it exists and what it is, the two sequencer commands (R230, R231), and
the end of a run (R233). -/

namespace Sys2Proof.Machine

open Sys2Proof.Claims

variable {nc nr xl : Nat} {P : Params} {run : Instr → State nc nr xl → Result nc nr xl}

/-! SEQ's turn. -/

/-- At SEQ's turn the agent that steps is SEQ, and the schedule alone is touched (assumption 1). -/
theorem takeTurn_of_seqTurn {s s' : State nc nr xl} (h : SeqTurn s s') : takeTurn s = (.seq, s') := by
  rcases h with ⟨hsched, rfl⟩ | ⟨rest, hsched, rfl⟩
  · exact takeTurn_nil hsched
  · exact takeTurn_cons hsched

/-- SEQ fetches no other word for its turn being taken off the schedule. -/
theorem fetch_of_seqTurn {s s' : State nc nr xl} (h : SeqTurn s s') : fetch s' = fetch s := by
  rcases h with ⟨-, rfl⟩ | ⟨rest, -, rfl⟩ <;> rfl

/-- At SEQ's turn the machine's step is SEQ's (R70, R232). -/
theorem step_of_seqTurn {s s' : State} (h : SeqTurn s s') : step s = seqStep exec s' := by
  rw [step, takeTurn_of_seqTurn h]
  rfl

/-- With an empty schedule every step is SEQ's (assumption 1). -/
theorem step_of_sched_nil {s : State} (h : s.sched = []) : step s = seqStep exec s := step_of_seqTurn (.inl ⟨h, rfl⟩)

/-- SEQ's turn in a block with parameters P (R5). -/
theorem stepIn_of_seqTurn {s s' : State P.nChan P.nReg P.xlen} (h : SeqTurn s s') : stepIn P s = seqStep (execIn P) s' := by
  rw [stepIn, takeTurn_of_seqTurn h]
  rfl

/-! What SEQ fetches, and the rest conditions (R232, R263). -/

theorem fetch_of_fetches {s : State nc nr xl} {w : CmdWord} (h : Fetches s w) : fetch s = .ok w := by
  obtain ⟨list, hc, hw, hs⟩ := h
  exact fetch_ok.2 ⟨list, hc, hs, hw⟩

/-- A word that SEQ fetches stands in the launched list (R232). -/
theorem pc_lt_of_fetch_ok {s : State nc nr xl} {list : List CmdWord} {w : CmdWord} (hc : s.cmd = some list)
    (h : fetch s = .ok w) : s.pc < list.length := by
  obtain ⟨list', hc', -, hw⟩ := fetch_ok.1 h
  cases hc.symm.trans hc'
  exact (List.getElem?_eq_some_iff.1 hw).1

/-- There is a word to fetch exactly when SEQ runs inside a launched list (R232). -/
theorem exists_fetch_ok_iff {s : State nc nr xl} :
    (∃ w, fetch s = .ok w) ↔ s.seq = .run ∧ ∃ list, s.cmd = some list ∧ s.pc < list.length := by
  constructor
  · rintro ⟨w, h⟩
    obtain ⟨list, hc, hs, -⟩ := fetch_ok.1 h
    exact ⟨hs, list, hc, pc_lt_of_fetch_ok hc h⟩
  · rintro ⟨hs, list, hc, hpc⟩
    exact ⟨list[s.pc], fetch_ok.2 ⟨list, hc, hs, List.getElem?_eq_getElem hpc⟩⟩

theorem fetch_not_launched {s : State nc nr xl} (hc : s.cmd = none) : fetch s = .error .notLaunched := by
  simp [fetch, hc]

theorem fetch_done {s : State nc nr xl} {list : List CmdWord} (hc : s.cmd = some list) (hs : s.seq = .done) :
    fetch s = .error .seqDone := by
  simp [fetch, hc, hs]

theorem fetch_faulted {s : State nc nr xl} {list : List CmdWord} (hc : s.cmd = some list) (hs : s.seq = .fault) :
    fetch s = .error .seqFaulted := by
  simp [fetch, hc, hs]

theorem fetch_stuck {s : State nc nr xl} {list : List CmdWord} (hc : s.cmd = some list) (hs : s.seq = .run)
    (hpc : list.length ≤ s.pc) : fetch s = .error .seqStuck := by
  simp [fetch, hc, hs, List.getElem?_eq_none hpc]

/-! SEQ's step, by what it fetches (R232). -/

theorem seqStep_of_fetch_error {s : State nc nr xl} {r : Fault} (h : fetch s = .error r) : seqStep run s = .fault r := by
  simp [seqStep, h]

theorem seqStep_of_decode_ok {s : State nc nr xl} {w : CmdWord} {i : Instr} (h : fetch s = .ok w) (hd : decode w = .ok i) :
    seqStep run s = run i s := by
  simp [seqStep, h, runWord, hd]

/-- SEQ's step at its turn is the command that CMD[pc] decodes to. -/
theorem seqStep_of_fetches {s s' : State nc nr xl} {w : CmdWord} {i : Instr} (ht : SeqTurn s s') (hw : Fetches s w)
    (hd : decode w = .ok i) : seqStep run s' = run i s' :=
  seqStep_of_decode_ok ((fetch_of_seqTurn ht).trans (fetch_of_fetches hw)) hd

/-- A command of Z8B-1.0 answers a next state (R240). -/
theorem exists_exec_next (i : Instr) (s : State) : ∃ t, exec i s = .next t :=
  (exec_effect i s).imp fun _ ⟨ht, _⟩ => ht

/-- With commands that complete, SEQ has a step exactly when it fetches a word (R232, R240). -/
theorem exists_seqStep_next_iff (hrun : ∀ i s, ∃ t, run i s = .next t) {s : State nc nr xl} :
    (∃ t, seqStep run s = .next t) ↔ ∃ w, fetch s = .ok w := by
  rcases seqStep_cases run s with ⟨r, hf, e⟩ | ⟨w, i, hf, -, e⟩ | ⟨w, d, hf, -, e⟩
  · simp [hf, e]
  · simp [hf, e, hrun i s]
  · simp [hf, e]

/-! The end of a run (R233). -/

/-- A run goes on from the state that its first step answers. -/
theorem run_succ_of_next {M : Host.Core} {s s' : M.State} (h : M.step s = .next s') (k : Nat) :
    M.run (k + 1) s = M.run k s' := by
  simp [Host.Core.run, h]

/-- At most n steps from s lead to a state that has no step (R233). -/
def RestsWithin (n : Nat) (s : State) : Prop :=
  ∃ (k : Nat) (t : State) (r : Fault), k ≤ n ∧ Sys2Proof.core.run k s = .next t ∧ step t = .fault r

theorem RestsWithin.of_fault {n : Nat} {s : State} {r : Fault} (h : step s = .fault r) : RestsWithin n s :=
  ⟨0, s, r, Nat.zero_le n, rfl, h⟩

theorem RestsWithin.of_next {m n : Nat} {s t : State} (h : step s = .next t) (ht : RestsWithin m t) (hmn : m < n) :
    RestsWithin n s := by
  obtain ⟨k, u, r, hk, hu, hr⟩ := ht
  exact ⟨k + 1, u, r, by omega, (run_succ_of_next (M := Sys2Proof.core) h k).trans hu, hr⟩

/-- SEQ alone stepping comes to rest: a command moves pc on inside the list, and the exception ends the run (R233). -/
theorem restsWithin_of_launched {list : List CmdWord} (s : State) (hsched : s.sched = []) (hc : s.cmd = some list) :
    RestsWithin (list.length - s.pc) s := by
  have hstep : step s = seqStep exec s := step_of_sched_nil hsched
  rcases seqStep_cases exec s with ⟨r, -, e⟩ | ⟨w, i, hf, -, e⟩ | ⟨w, d, hf, -, e⟩
  · exact .of_fault (hstep.trans e)
  · have hpc : s.pc < list.length := pc_lt_of_fetch_ok hc hf
    obtain ⟨t, ht, heffect⟩ := exec_effect i s
    obtain ⟨hpc', -, -, hcmd, hsched', -, -⟩ := heffect.control
    exact .of_next (hstep.trans (e.trans ht)) (restsWithin_of_launched t (hsched'.trans hsched) (hcmd.trans hc)) (by omega)
  · have hpc : s.pc < list.length := pc_lt_of_fetch_ok hc hf
    have hrest : step (raiseIllegalCommand w s) = .fault .seqFaulted := by
      rw [step_of_sched_nil (s := raiseIllegalCommand w s) hsched]
      exact seqStep_of_fetch_error (fetch_faulted (s := raiseIllegalCommand w s) hc rfl)
    exact .of_next (hstep.trans e) (.of_fault (n := 0) hrest) (by omega)
termination_by list.length - s.pc
decreasing_by omega

/-! The sequencer commands. -/

/-- NOP (R230). -/
theorem exec_nop (s : State) : exec .nop s = .next s.advance := rfl

/-- END (R231). -/
theorem exec_endCmd (s : State) : exec .endCmd s = .next ({ s with seq := .done } : State).advance := rfl

end Sys2Proof.Machine

namespace Sys2Proof.Proofs

open Sys2Proof.Machine

/-- Settles O5: at SEQ's turn the step is SEQ's, which runs what the fetched word decodes to. -/
theorem stepRunsDecodedCommand : Obligations.StepRunsDecodedCommand := by
  refine ⟨fun s s' w i ht hw hd => ?_, fun P s s' w i ht hw hd => ?_, congrFun stepIn_z8b, fun i s => ?_⟩
  · exact (step_of_seqTurn ht).trans (seqStep_of_fetches ht hw hd)
  · exact (stepIn_of_seqTurn ht).trans (seqStep_of_fetches ht hw hd)
  · rw [execIn_z8b]

/-- Settles O7: SEQ has a step when it fetches a word, and each rest condition has its own reason. -/
theorem seqHasAStepExactlyWhenRunning : Obligations.SeqHasAStepExactlyWhenRunning := by
  intro s s' ht
  have hrest {r : Fault} (hf : fetch s = .error r) : step s = .fault r :=
    (step_of_seqTurn ht).trans (seqStep_of_fetch_error ((fetch_of_seqTurn ht).trans hf))
  refine ⟨?_, fun hc => hrest (fetch_not_launched hc), fun list hc =>
    ⟨fun hs => hrest (fetch_done hc hs), fun hs => hrest (fetch_faulted hc hs),
      fun hs hpc => hrest (fetch_stuck hc hs hpc)⟩⟩
  rw [step_of_seqTurn ht, exists_seqStep_next_iff exists_exec_next, fetch_of_seqTurn ht, exists_fetch_ok_iff]

/-- Settles O10: NOP and END are one advance of pc, END with SEQ at DONE. -/
theorem nopAndEndEffects : Obligations.NopAndEndEffects := by
  obtain ⟨hnop, hend, -⟩ := printedWordsDecodeAsPrinted
  exact ⟨hnop, hend, fun s => ⟨⟨_, exec_nop s, rfl, memFrame_setMem s s.mem, rfl⟩,
    ⟨_, exec_endCmd s, rfl, rfl, rfl, rfl, rfl, rfl, rfl, rfl, rfl, rfl, rfl, rfl⟩⟩⟩

/-- Settles O12, from `restsWithin_of_launched`. -/
theorem everyCommandListTerminates : Obligations.EveryCommandListTerminates :=
  fun s _ hsched hc => restsWithin_of_launched s hsched hc

end Sys2Proof.Proofs
end

