-- ==== Sys2Proof/Proofs/IllegalCommand.lean ====
section
/-! PROOFS. The exception IllegalCommand (R241, R245): SEQ's step on a word that names no command. -/

namespace Sys2Proof.Machine

open Sys2Proof.Claims

variable {nc nr xl : Nat} {run : Instr → State nc nr xl → Result nc nr xl}

/-- SEQ's turn changes nothing but the schedule (assumption 1). -/
theorem eq_withSched_of_seqTurn {s s' : State nc nr xl} (h : SeqTurn s s') : s' = { s with sched := s'.sched } := by
  rcases h with ⟨-, rfl⟩ | ⟨rest, -, rfl⟩ <;> rfl

/-- Fetching a word that does not decode, SEQ takes the exception, whatever the decoder objects to (R241, R244). -/
theorem seqStep_of_decode_error {s : State nc nr xl} {w : CmdWord} {e : DecodeError} (h : fetch s = .ok w)
    (hd : decode w = .error e) : seqStep run s = .next (raiseIllegalCommand w s) := by
  simp [seqStep, h, runWord, hd]

/-- The machine's step on an illegal word at SEQ's turn: the fault entry of R245, with the turn taken off the schedule. -/
theorem step_of_decode_error {s s' : State} {w : CmdWord} {e : DecodeError} (ht : SeqTurn s s') (hw : Fetches s w)
    (hd : decode w = .error e) : step s = .next (raiseIllegalCommand w { s with sched := s'.sched }) := by
  have hf : fetch s' = .ok w := (fetch_of_seqTurn ht).trans (fetch_of_fetches hw)
  rw [← eq_withSched_of_seqTurn ht, step_of_seqTurn ht, seqStep_of_decode_error hf hd]

end Sys2Proof.Machine

namespace Sys2Proof.Proofs

open Sys2Proof.Machine

/-- Settles O6: the step answers the fault entry (`step_of_decode_error`), whose fields are the laws of
`raiseIllegalCommand`. -/
theorem illegalWordTakesTheException : Obligations.IllegalWordTakesTheException := by
  intro s s' w e ht hw hd
  exact ⟨_, step_of_decode_error ht hw hd, by simp⟩

end Sys2Proof.Proofs
end

