-- ==== Sys2Proof/Proofs/Interleaving.lean ====
section
/-! PROOFS. SEQ's steps do not see the audio agents' ticks (R70, R267), so a schedule of both ends like its SEQ steps
alone. -/

namespace Sys2Proof.Machine

open Sys2Proof.Claims

variable {nc nr xl : Nat} {P : Params}

/-- s and u hold the same for SEQ: the block without its channels, and the command list. The channels, the schedule,
the noise count and the record of the output are free. -/
def SameForSeq (s u : State nc nr xl) : Prop := SameBlock s u ∧ u.cmd = s.cmd

theorem SameForSeq.refl (s : State nc nr xl) : SameForSeq s s := ⟨⟨rfl, rfl, rfl, rfl, rfl, rfl⟩, rfl⟩

/-- What is free, written out. -/
theorem SameForSeq.exists_eq {s u : State nc nr xl} (h : SameForSeq s u) :
    ∃ ch sched count out, u = { s with ch := ch, sched := sched, noiseCount := count, out := out } := by
  obtain ⟨⟨hx, hpc, hseq, hfaultPc, hfaultW, hmem⟩, hcmd⟩ := h
  cases u
  cases hx; cases hpc; cases hseq; cases hfaultPc; cases hfaultW; cases hmem; cases hcmd
  exact ⟨_, _, _, _, rfl⟩

/-- A tick goes unseen by SEQ (R204). -/
theorem SameForSeq.tickIn_right {s u : State nc nr xl} (h : SameForSeq s u) (ch : Fin nc) :
    SameForSeq s (tickIn P ch u) := by
  simpa [SameForSeq, SameBlock] using h

/-- The schedule goes unseen by SEQ. -/
theorem SameForSeq.withSched {s u : State nc nr xl} (h : SameForSeq s u) (q q' : List (Move nc)) :
    SameForSeq { s with sched := q } { u with sched := q' } := h

/-- SEQ fetches the same word. -/
theorem SameForSeq.fetch_eq {s u : State nc nr xl} (h : SameForSeq s u) : fetch u = fetch s := by
  obtain ⟨ch, sched, count, out, rfl⟩ := h.exists_eq
  rfl

/-- A command reads nothing that is free, SFX its own channel apart, which stays free. -/
theorem SameForSeq.exists_execIn {s u : State nc nr xl} (h : SameForSeq s u) (P : Params) (i : Instr) :
    ∃ t v, execIn P i s = .next t ∧ execIn P i u = .next v ∧ SameForSeq t v := by
  obtain ⟨ch, sched, count, out, rfl⟩ := h.exists_eq
  cases i with
  | sfx => exact ⟨_, _, rfl, rfl, by simp [SameForSeq, SameBlock]⟩
  | nop | endCmd | lih | lil | mov | add | sub | mul | div | peek | poke | peek4 | poke4
  | pset | pget | line | rect | rectfill | circ | circfill | spr | sspr | map =>
    exact ⟨_, _, rfl, rfl, ⟨rfl, rfl, rfl, rfl, rfl, rfl⟩, rfl⟩

/-- A step of SEQ from one of the two has its like from the other (R232). -/
theorem SameForSeq.exists_seqStep {s u v : State nc nr xl} (h : SameForSeq s u)
    (hv : seqStep (execIn P) u = .next v) :
    ∃ t, seqStep (execIn P) s = .next t ∧ SameForSeq t v := by
  rcases seqStep_cases (execIn P) u with ⟨r, -, e⟩ | ⟨w, i, hf, hd, e⟩ | ⟨w, d, hf, hd, e⟩
  · rw [e] at hv; cases hv
  · obtain ⟨t, v', ht, hv', hsame⟩ := h.exists_execIn P i
    cases hv'.symm.trans (e.symm.trans hv)
    exact ⟨t, (seqStep_of_decode_ok (h.fetch_eq.symm.trans hf) hd).trans ht, hsame⟩
  · cases e.symm.trans hv
    obtain ⟨ch, sched, count, out, rfl⟩ := h.exists_eq
    exact ⟨_, seqStep_of_decode_error (h.fetch_eq.symm.trans hf) hd, by simp [SameForSeq, SameBlock]⟩

/-- SEQ's step leaves the schedule alone (R240, R245). -/
theorem sched_of_seqStep {s t : State nc nr xl} (h : seqStep (execIn P) s = .next t) : t.sched = s.sched := by
  obtain ⟨-, ⟨i, hi⟩ | ⟨w, rfl⟩⟩ := seqStep_next h
  · obtain ⟨-, -, -, -, hsched, -, -⟩ := (effect_of_execIn hi).control
    exact hsched
  · rfl

/-- The step of the agent that the schedule names first (R70). -/
theorem step_of_sched_cons {s : State} {mv : Move} {rest : List Move} (h : s.sched = mv :: rest) :
    step s = perform z8b (execIn z8b) mv { s with sched := rest } := by
  rw [step, takeTurn_cons h, execIn_z8b]

/-- A run of a step and more that answers, taken apart at its first step. -/
theorem exists_step_of_run_succ {M : Host.Core} {s t : M.State} {k : Nat} (h : M.run (k + 1) s = .next t) :
    ∃ s', M.step s = .next s' ∧ M.run k s' = .next t := by
  cases hs : M.step s with
  | next s' => exact ⟨s', rfl, (run_succ_of_next hs k).symm.trans h⟩
  | fault r => simp [Host.Core.run, hs] at h
  | refused r => simp [Host.Core.run, hs] at h

/-- A schedule of SEQ's turns and ticks that runs to its end from u, and its SEQ turns alone from s, which holds the
same for SEQ: that runs to its end too, and the two ends hold the same for SEQ (R267). -/
theorem SameForSeq.exists_run {moves : List Move} (hmoves : ∀ mv ∈ moves, mv = .seq ∨ ∃ ch, mv = .aud ch) {s u v : State}
    (h : SameForSeq s u) (hs : s.sched = moves.filter (· = .seq)) (hu : u.sched = moves)
    (hrun : Sys2Proof.core.run moves.length u = .next v) :
    ∃ t, Sys2Proof.core.run (moves.filter (· = .seq)).length s = .next t ∧ SameForSeq t v := by
  induction moves generalizing s u with
  | nil =>
    cases hrun
    exact ⟨s, rfl, h⟩
  | cons mv rest ih =>
    obtain ⟨hmv, hrest⟩ := List.forall_mem_cons.1 hmoves
    obtain ⟨u', hu', hrun'⟩ := exists_step_of_run_succ hrun
    have hstep : perform z8b (execIn z8b) mv { u with sched := rest } = .next u' :=
      (step_of_sched_cons hu).symm.trans hu'
    rcases hmv with rfl | ⟨ch, rfl⟩
    · have hfilter : (Move.seq :: rest).filter (· = .seq) = .seq :: rest.filter (· = .seq) := by simp
      rw [hfilter] at hs ⊢
      obtain ⟨s', hs', hsame⟩ := (h.withSched (rest.filter (· = .seq)) rest).exists_seqStep hstep
      obtain ⟨t, ht, hend⟩ := ih hrest hsame (sched_of_seqStep hs') (sched_of_seqStep hstep) hrun'
      have hfirst : Sys2Proof.core.step s = .next s' := (step_of_sched_cons hs).trans hs'
      exact ⟨t, (run_succ_of_next hfirst _).trans ht, hend⟩
    · have hfilter : (Move.aud ch :: rest).filter (· = .seq) = rest.filter (· = .seq) := by simp
      rw [hfilter] at hs ⊢
      cases hstep
      exact ih hrest ((h.withSched s.sched rest).tickIn_right ch) hs (tickIn_sched ..) hrun'

end Sys2Proof.Machine

namespace Sys2Proof.Proofs

open Sys2Proof.Machine

/-- Settles O60, from `SameForSeq.exists_run`, both schedules starting in one state. -/
theorem ticksDoNotChangeTheResult : Obligations.TicksDoNotChangeTheResult := by
  intro moves s t hmoves hrun
  obtain ⟨t', ht', hsame, -⟩ := ((SameForSeq.refl s).withSched _ _).exists_run hmoves rfl rfl hrun
  exact ⟨t', ht', hsame⟩

end Sys2Proof.Proofs
end

