-- ==== Sys2Proof/Proofs/Boot.lean ====
section
/-! PROOFS. The host's reset and launch in the schedule (R246, R261, R263). -/

namespace Sys2Proof.Machine

/-- The host's reset at its turn (R261). -/
theorem step_hostReset {image : List Host.Cell} {s : State} {rest : List Move} (h : s.sched = .hostReset image :: rest) :
    step s = .next (({ s with sched := rest } : State).resetWith z8b image) := step_of_sched_cons h

/-- With nothing launched the host's launch at its turn puts its list in place (R263). -/
theorem step_hostLaunch_of_cmd_none {list : List CmdWord} {s : State} {rest : List Move}
    (h : s.sched = .hostLaunch list :: rest) (hc : s.cmd = none) :
    step s = .next { s with sched := rest, cmd := some list } := by
  rw [step_of_sched_cons h]
  simp [perform, hostLaunch, hc]

/-- With a list launched there is no such move (R246, assumption 6). -/
theorem step_hostLaunch_of_cmd_ne_none {list : List CmdWord} {s : State} {rest : List Move}
    (h : s.sched = .hostLaunch list :: rest) (hc : s.cmd ≠ none) : step s = .refused .launchWithoutReset := by
  obtain ⟨launched, hl⟩ := Option.ne_none_iff_exists'.1 hc
  rw [step_of_sched_cons h]
  simp [perform, hostLaunch, hl]

end Sys2Proof.Machine

namespace Sys2Proof.Proofs

open Sys2Proof.Machine

/-- Settles O55: the reset leaves nothing launched, so that the launch after it puts its list in place. -/
theorem bootLaunchesTheList : Obligations.BootLaunchesTheList := by
  refine ⟨fun image list s rest h => ?_, fun list s rest h =>
    ⟨step_hostLaunch_of_cmd_none h, step_hostLaunch_of_cmd_ne_none h⟩⟩
  have hlaunch := step_hostLaunch_of_cmd_none (list := list) (rest := rest)
    (s := ({ s with sched := .hostLaunch list :: rest } : State).resetWith z8b image) rfl rfl
  have hboot := (run_succ_of_next (M := Sys2Proof.core) (step_hostReset h) 1).trans (run_succ_of_next hlaunch 0)
  exact ⟨_, hboot, rfl, rfl, rfl, rfl, rfl⟩

end Sys2Proof.Proofs
end
